-- ==== Sys2Proof/Word.lean ====
section
/-! DEFINITION. The word types of the block (00_scope.md R5 to R8). -/

namespace Sys2Proof

/-- One byte of memory or of write data. -/
abbrev Byte := BitVec 8

/-- A general-purpose, Flags or Instruction-Pointer cell (R5: 64 bits). -/
abbrev Word := BitVec 64

/-- A vector cell (R5: VLEN = 512 bits; bit 0 is the least significant, R7). -/
abbrev VecCell := BitVec 512

/-- A command word (30_encoding.md R49). -/
abbrev Command := BitVec 32

/-- The address width (00_scope.md R6: AW = 64, decision D17). Log entry 6. -/
abbrev AW : Nat := 64

/-- An untranslated address as the request carries it (30_encoding.md R48). -/
abbrev Addr := BitVec AW

/-- The allocation unit and alignment of the segment store (00_scope.md R5: CHUNK = 512 bytes). -/
abbrev CHUNK : Nat := 512

/-- The largest selector bound (00_scope.md R5: `MAX` = 511). -/
abbrev selectorMax : Nat := 511

end Sys2Proof
end

