-- ==== Sys2Proof/Syntax.lean ====
section
/-! DEFINITION. The syntax: operand codes, the 19 commands of 30_encoding.md R58, and the request of R48. -/

namespace Sys2Proof

/-- A vector window (30_encoding.md R55). -/
inductive Window
  | xmm
  | ymm
  | zmm
deriving DecidableEq, Repr

/-- An element width T, named by a width code (30_encoding.md R53). Code 7 is reserved and names none. -/
inductive Width
  | u8
  | u16
  | u32
  | u64
  | u128
  | u256
  | u512
deriving DecidableEq, Repr

/-- A general-purpose view policy (30_encoding.md R56). -/
inductive GprView
  | full64
  | zext32
  | merge16
  | merge8Low
  | merge8High
deriving DecidableEq, Repr

/-- A Flags or Instruction-Pointer view (30_encoding.md R57): RFLAGS/RIP, EFLAGS/EIP, FLAGS/IP. -/
inductive CellView
  | v64
  | v32
  | v16
deriving DecidableEq, Repr

/-- The commands of 30_encoding.md R58 with the fields of their words, one constructor per row of the opcode
table. `addr` and `wdata` are operands of the request, not fields of the word (R54, R63).
`vgetsel` and `vsetsel` carry the raw `win` field, which is not consulted (R61). -/
inductive Instr
  | vsetbit (win : Window) (idx : Fin 16) (pos : Fin 512) (val : Bool)
  | vgetbit (win : Window) (idx : Fin 16) (pos : Fin 512)
  | vgetsec (win : Window) (idx : Fin 16) (wc : Width)
  | vsetsec (win : Window) (idx : Fin 16) (wc : Width) (count : Fin 65536)
  | vgetsel (win : Fin 4) (idx : Fin 16) (wc : Width) (a b : Fin 512)
  | vsetsel (win : Fin 4) (idx : Fin 16) (wc : Width) (a b : Fin 512)
  | vclear (idx : Fin 16)
  | gprset (view : GprView) (idx : Fin 16)
  | gprget (view : GprView) (idx : Fin 16)
  | flset (view : CellView)
  | flget (view : CellView)
  | ipset (view : CellView)
  | ipget (view : CellView)
  | mrdb
  | mwrb
  | mrd (wc : Width)
  | mwr (wc : Width)
  | mrdv (wc : Width) (count : Fin 65536)
  | mwrv (wc : Width) (count : Fin 65536)
deriving DecidableEq, Repr

/-- One element of write or read data: an unsigned bit-vector with its width (30_encoding.md R59, R68). -/
structure Elem where
  width : Nat
  bits : BitVec width
deriving DecidableEq, Repr

/-- A request on the command port (30_encoding.md R48). `addr = none` is an absent address. -/
structure Request where
  cmd : Command
  addr : Option Addr
  wdata : List Elem
deriving DecidableEq, Repr

end Sys2Proof
end

