-- ==== Sys2Proof/WellFormed.lean ====
section
/-! DEFINITION. Which instructions are well-formed. Every field but one has a type that admits exactly the values
the encoding admits; the check left is that a (view, index) pair is a register name (10_state.md R17). -/

namespace Sys2Proof

/-- The 64 general-purpose register names of 10_state.md R17: every index has the 64-, 32- and 16-bit views; the
low byte is left out for 4 to 7 (SPL, BPL, SIL, DIL) and the high byte for every index above 3. -/
def isGprName (view : GprView) (idx : Fin 16) : Bool :=
  match view with
  | .full64 => true
  | .zext32 => true
  | .merge16 => true
  | .merge8Low => decide (idx.val < 4) || decide (8 ≤ idx.val)
  | .merge8High => decide (idx.val < 4)

/-- An instruction is well-formed when the register name it uses exists (30_encoding.md R61 item 4). -/
def Instr.wellFormed : Instr → Bool
  | .vsetbit _ _ _ _ => true
  | .vgetbit _ _ _ => true
  | .vgetsec _ _ _ => true
  | .vsetsec _ _ _ _ => true
  | .vgetsel _ _ _ _ _ => true
  | .vsetsel _ _ _ _ _ => true
  | .vclear _ => true
  | .gprset view idx => isGprName view idx
  | .gprget view idx => isGprName view idx
  | .flset _ => true
  | .flget _ => true
  | .ipset _ => true
  | .ipget _ => true
  | .mrdb => true
  | .mwrb => true
  | .mrd _ => true
  | .mwr _ => true
  | .mrdv _ _ => true
  | .mwrv _ _ => true

end Sys2Proof
end

