-- ==== Sys2Proof/Decode.lean ====
section
/-! DEFINITION. The encoding of 30_encoding.md: operand codes (R53, R55 to R57), the decoder (R58 to R63), the encoder
written from the same formats (R50 to R54), and the opcode table. -/

namespace Sys2Proof

/-! ### Operand codes -/

/-- `W(win)`, the window width (R55, 10_state.md R14). -/
def Window.bits : Window → Nat
  | .xmm => 128
  | .ymm => 256
  | .zmm => 512

/-- The code of a window in the `win` field (R55). -/
def Window.code : Window → BitVec 2
  | .xmm => 0b00
  | .ymm => 0b01
  | .zmm => 0b10

/-- The window a code names; 11 is reserved (R55). -/
def Window.ofCode : Nat → Option Window
  | 0 => some .xmm
  | 1 => some .ymm
  | 2 => some .zmm
  | _ => none

/-- `w(wc)`, the element width in bits (R53). -/
def Width.bits : Width → Nat
  | .u8 => 8
  | .u16 => 16
  | .u32 => 32
  | .u64 => 64
  | .u128 => 128
  | .u256 => 256
  | .u512 => 512

/-- `n(wc)`, the element width in bytes (R53, 00_scope.md R8). -/
def Width.bytes (wc : Width) : Nat := wc.bits / 8

/-- The width code of an element width (R53). -/
def Width.code : Width → BitVec 3
  | .u8 => 0
  | .u16 => 1
  | .u32 => 2
  | .u64 => 3
  | .u128 => 4
  | .u256 => 5
  | .u512 => 6

/-- The width a code names; 7 is reserved (R53). -/
def Width.ofCode : Nat → Option Width
  | 0 => some .u8
  | 1 => some .u16
  | 2 => some .u32
  | 3 => some .u64
  | 4 => some .u128
  | 5 => some .u256
  | 6 => some .u512
  | _ => none

/-- The code of a general-purpose view (R56). -/
def GprView.code : GprView → BitVec 3
  | .full64 => 0b000
  | .zext32 => 0b001
  | .merge16 => 0b010
  | .merge8Low => 0b011
  | .merge8High => 0b100

/-- The view a code names; 101, 110 and 111 are reserved (R56). -/
def GprView.ofCode : Nat → Option GprView
  | 0 => some .full64
  | 1 => some .zext32
  | 2 => some .merge16
  | 3 => some .merge8Low
  | 4 => some .merge8High
  | _ => none

/-- The code of a Flags or Instruction-Pointer view (R57). -/
def CellView.code : CellView → BitVec 2
  | .v64 => 0b00
  | .v32 => 0b01
  | .v16 => 0b10

/-- The view a code names; 11 is reserved (R57). -/
def CellView.ofCode : Nat → Option CellView
  | 0 => some .v64
  | 1 => some .v32
  | 2 => some .v16
  | _ => none

/-! ### The decoder -/

/-- The field of `len` bits whose lowest bit is bit `lo` of a command word, as an unsigned integer (R59). -/
def field (c : Command) (lo len : Nat) : Fin (2 ^ len) :=
  ⟨c.toNat / 2 ^ lo % 2 ^ len, Nat.mod_lt _ (Nat.two_pow_pos len)⟩

/-- VSETBIT (R58 row 0x01): wc and bits 7:0 zero (R60), win not 11 (R61). -/
def decodeVsetbit (c : Command) : Option Instr :=
  if (field c 18 3).val = 0 ∧ (field c 0 8).val = 0 then
    (Window.ofCode (field c 25 2).val).map fun win =>
      .vsetbit win (field c 21 4) (field c 9 9) (decide ((field c 8 1).val = 1))
  else none

/-- VGETBIT (R58 row 0x02): wc and bits 8:0 zero (R60), win not 11 (R61). -/
def decodeVgetbit (c : Command) : Option Instr :=
  if (field c 18 3).val = 0 ∧ (field c 0 9).val = 0 then
    (Window.ofCode (field c 25 2).val).map fun win => .vgetbit win (field c 21 4) (field c 9 9)
  else none

/-- VGETSEC (R58 row 0x03): bits 17:0 zero (R60), win not 11, wc not 7 (R61). -/
def decodeVgetsec (c : Command) : Option Instr :=
  if (field c 0 18).val = 0 then
    (Window.ofCode (field c 25 2).val).bind fun win =>
      (Width.ofCode (field c 18 3).val).map fun wc => .vgetsec win (field c 21 4) wc
  else none

/-- VSETSEC (R58 row 0x04): bits 17:16 zero (R60), win not 11, wc not 7 (R61). -/
def decodeVsetsec (c : Command) : Option Instr :=
  if (field c 16 2).val = 0 then
    (Window.ofCode (field c 25 2).val).bind fun win =>
      (Width.ofCode (field c 18 3).val).map fun wc => .vsetsec win (field c 21 4) wc (field c 0 16)
  else none

/-- VGETSEL (R58 row 0x05): no bit must be zero (R60), every win is accepted, wc not 7 (R61). -/
def decodeVgetsel (c : Command) : Option Instr :=
  (Width.ofCode (field c 18 3).val).map fun wc =>
    .vgetsel (field c 25 2) (field c 21 4) wc (field c 9 9) (field c 0 9)

/-- VSETSEL (R58 row 0x06): as VGETSEL. -/
def decodeVsetsel (c : Command) : Option Instr :=
  (Width.ofCode (field c 18 3).val).map fun wc =>
    .vsetsel (field c 25 2) (field c 21 4) wc (field c 9 9) (field c 0 9)

/-- VCLEAR (R58 row 0x07): win, wc and bits 17:0 zero (R60). -/
def decodeVclear (c : Command) : Option Instr :=
  if (field c 25 2).val = 0 ∧ (field c 0 21).val = 0 then some (.vclear (field c 21 4)) else none

/-- The register name of a format G word (R51): bits 19:0 zero (R60), a name of 10_state.md R17 (R61 item 4). -/
def decodeGprName (c : Command) : Option (GprView × Fin 16) :=
  if (field c 0 20).val = 0 then
    (GprView.ofCode (field c 24 3).val).bind fun view =>
      if isGprName view (field c 20 4) then some (view, field c 20 4) else none
  else none

/-- The view of a format F word (R52): bits 24:0 zero (R60), view not 11 (R61 item 5). -/
def decodeCellView (c : Command) : Option CellView :=
  if (field c 0 25).val = 0 then CellView.ofCode (field c 25 2).val else none

/-- The width of a format M word (R54); 7 is reserved (R61 item 3). -/
def decodeWidth (c : Command) : Option Width :=
  Width.ofCode (field c 24 3).val

/-- `Decode(cmd)` (R63): one of the 19 commands with its fields, or `none` for `Illegal`. Opcodes 0x00, 0x0E, 0x0F
and 0x16 to 0x1F are reserved (R61 item 1). -/
def decode (c : Command) : Option Instr :=
  match (field c 27 5).val with
  | 0x01 => decodeVsetbit c
  | 0x02 => decodeVgetbit c
  | 0x03 => decodeVgetsec c
  | 0x04 => decodeVsetsec c
  | 0x05 => decodeVgetsel c
  | 0x06 => decodeVsetsel c
  | 0x07 => decodeVclear c
  | 0x08 => (decodeGprName c).map fun n => .gprset n.1 n.2
  | 0x09 => (decodeGprName c).map fun n => .gprget n.1 n.2
  | 0x0A => (decodeCellView c).map .flset
  | 0x0B => (decodeCellView c).map .flget
  | 0x0C => (decodeCellView c).map .ipset
  | 0x0D => (decodeCellView c).map .ipget
  | 0x10 => if (field c 0 27).val = 0 then some .mrdb else none
  | 0x11 => if (field c 0 27).val = 0 then some .mwrb else none
  | 0x12 => if (field c 0 24).val = 0 then (decodeWidth c).map .mrd else none
  | 0x13 => if (field c 0 24).val = 0 then (decodeWidth c).map .mwr else none
  | 0x14 => if (field c 16 8).val = 0 then (decodeWidth c).map fun wc => .mrdv wc (field c 0 16) else none
  | 0x15 => if (field c 16 8).val = 0 then (decodeWidth c).map fun wc => .mwrv wc (field c 0 16) else none
  | _ => none

/-- The instruction the decoder reads from a table word (the host's question): a command is exactly one 32-bit word
(R49), so a word that needs more bits is none. -/
def decodeTableWord (nbits w : Nat) : Option Instr :=
  if nbits ≤ 32 ∧ w < 2 ^ nbits then decode (BitVec.ofNat 32 w) else none

/-! ### The encoder -/

/-- The 5-bit opcode of a command (R58). -/
def Instr.opcode : Instr → BitVec 5
  | .vsetbit _ _ _ _ => 0x01
  | .vgetbit _ _ _ => 0x02
  | .vgetsec _ _ _ => 0x03
  | .vsetsec _ _ _ _ => 0x04
  | .vgetsel _ _ _ _ _ => 0x05
  | .vsetsel _ _ _ _ _ => 0x06
  | .vclear _ => 0x07
  | .gprset _ _ => 0x08
  | .gprget _ _ => 0x09
  | .flset _ => 0x0A
  | .flget _ => 0x0B
  | .ipset _ => 0x0C
  | .ipget _ => 0x0D
  | .mrdb => 0x10
  | .mwrb => 0x11
  | .mrd _ => 0x12
  | .mwr _ => 0x13
  | .mrdv _ _ => 0x14
  | .mwrv _ _ => 0x15

/-- The 27 bits below the opcode, field by field from the highest, as the formats V, G, F and M lay them out
(R50, R51, R52, R54); the bits a command does not use are zero (R60). -/
def Instr.operandBits : Instr → BitVec 27
  | .vsetbit win idx pos val =>
    win.code ++ BitVec.ofFin (w := 4) idx ++ 0#3 ++ BitVec.ofFin (w := 9) pos ++ BitVec.ofBool val ++ 0#8
  | .vgetbit win idx pos => win.code ++ BitVec.ofFin (w := 4) idx ++ 0#3 ++ BitVec.ofFin (w := 9) pos ++ 0#9
  | .vgetsec win idx wc => win.code ++ BitVec.ofFin (w := 4) idx ++ wc.code ++ 0#18
  | .vsetsec win idx wc count =>
    win.code ++ BitVec.ofFin (w := 4) idx ++ wc.code ++ 0#2 ++ BitVec.ofFin (w := 16) count
  | .vgetsel win idx wc a b =>
    BitVec.ofFin (w := 2) win ++ BitVec.ofFin (w := 4) idx ++ wc.code ++ BitVec.ofFin (w := 9) a
      ++ BitVec.ofFin (w := 9) b
  | .vsetsel win idx wc a b =>
    BitVec.ofFin (w := 2) win ++ BitVec.ofFin (w := 4) idx ++ wc.code ++ BitVec.ofFin (w := 9) a
      ++ BitVec.ofFin (w := 9) b
  | .vclear idx => 0#2 ++ BitVec.ofFin (w := 4) idx ++ 0#21
  | .gprset view idx => view.code ++ BitVec.ofFin (w := 4) idx ++ 0#20
  | .gprget view idx => view.code ++ BitVec.ofFin (w := 4) idx ++ 0#20
  | .flset view => view.code ++ 0#25
  | .flget view => view.code ++ 0#25
  | .ipset view => view.code ++ 0#25
  | .ipget view => view.code ++ 0#25
  | .mrdb => 0#27
  | .mwrb => 0#27
  | .mrd wc => wc.code ++ 0#24
  | .mwr wc => wc.code ++ 0#24
  | .mrdv wc count => wc.code ++ 0#8 ++ BitVec.ofFin (w := 16) count
  | .mwrv wc count => wc.code ++ 0#8 ++ BitVec.ofFin (w := 16) count

/-- The command word of an instruction (R49: opcode in bits 31:27). -/
def encode (i : Instr) : Command := i.opcode ++ i.operandBits

/-! ### The opcode table (R58, R63) -/

/-- A row of spec/opcode_table.json: the word matches when `cmd & mask = pattern`. -/
structure OpcodeRow where
  mnemonic : String
  pattern : Command
  mask : Command
deriving DecidableEq, Repr

/-- The rows of spec/opcode_table.json, in its order. -/
def opcodeTable : List OpcodeRow :=
  [⟨"VSETBIT", 0x08000000, 0xF81C00FF⟩, ⟨"VGETBIT", 0x10000000, 0xF81C01FF⟩, ⟨"VGETSEC", 0x18000000, 0xF803FFFF⟩,
    ⟨"VSETSEC", 0x20000000, 0xF8030000⟩, ⟨"VGETSEL", 0x28000000, 0xF8000000⟩, ⟨"VSETSEL", 0x30000000, 0xF8000000⟩,
    ⟨"VCLEAR", 0x38000000, 0xFE1FFFFF⟩, ⟨"GPRSET", 0x40000000, 0xF80FFFFF⟩, ⟨"GPRGET", 0x48000000, 0xF80FFFFF⟩,
    ⟨"FLSET", 0x50000000, 0xF9FFFFFF⟩, ⟨"FLGET", 0x58000000, 0xF9FFFFFF⟩, ⟨"IPSET", 0x60000000, 0xF9FFFFFF⟩]
    ++ [⟨"IPGET", 0x68000000, 0xF9FFFFFF⟩, ⟨"MRDB", 0x80000000, 0xFFFFFFFF⟩, ⟨"MWRB", 0x88000000, 0xFFFFFFFF⟩,
      ⟨"MRD", 0x90000000, 0xF8FFFFFF⟩, ⟨"MWR", 0x98000000, 0xF8FFFFFF⟩, ⟨"MRDV", 0xA0000000, 0xF8FF0000⟩,
      ⟨"MWRV", 0xA8000000, 0xF8FF0000⟩]

/-- `cmd & mask = match` (R63). -/
def OpcodeRow.hits (row : OpcodeRow) (c : Command) : Bool := decide (c &&& row.mask = row.pattern)

/-- The reserved-value constraints of R61 items 2 to 5, by opcode: which words of a matching row are illegal. -/
def reservedValue (c : Command) : Bool :=
  let op := (field c 27 5).val
  let win := (field c 25 2).val
  (decide (1 ≤ op ∧ op ≤ 4) && decide (win = 3))
    || (decide (3 ≤ op ∧ op ≤ 6) && decide ((field c 18 3).val = 7))
    || (decide (0x12 ≤ op ∧ op ≤ 0x15) && decide ((field c 24 3).val = 7))
    || (decide (op = 8 ∨ op = 9) &&
      (decide (5 ≤ (field c 24 3).val)
        || (decide ((field c 24 3).val = 3) && decide (4 ≤ (field c 20 4).val ∧ (field c 20 4).val ≤ 7))
        || (decide ((field c 24 3).val = 4) && decide (4 ≤ (field c 20 4).val))))
    || (decide (0x0A ≤ op ∧ op ≤ 0x0D) && decide (win = 3))

/-- The mnemonic of a command (R58). -/
def Instr.mnemonic : Instr → String
  | .vsetbit _ _ _ _ => "VSETBIT"
  | .vgetbit _ _ _ => "VGETBIT"
  | .vgetsec _ _ _ => "VGETSEC"
  | .vsetsec _ _ _ _ => "VSETSEC"
  | .vgetsel _ _ _ _ _ => "VGETSEL"
  | .vsetsel _ _ _ _ _ => "VSETSEL"
  | .vclear _ => "VCLEAR"
  | .gprset _ _ => "GPRSET"
  | .gprget _ _ => "GPRGET"
  | .flset _ => "FLSET"
  | .flget _ => "FLGET"
  | .ipset _ => "IPSET"
  | .ipget _ => "IPGET"
  | .mrdb => "MRDB"
  | .mwrb => "MWRB"
  | .mrd _ => "MRD"
  | .mwr _ => "MWR"
  | .mrdv _ _ => "MRDV"
  | .mwrv _ _ => "MWRV"

end Sys2Proof
end

