-- ==== Sys2Proof/Config.lean ====
section
/-! DEFINITION. The implementation parameters of 00_scope.md R6 and the values the spec leaves open.
The opaque constants have no body: nothing can be proved about which value they are, so a claim about the reset
state holds for every one of them. -/

namespace Sys2Proof

/-- ALIAS_POLICY (00_scope.md R6, decision D15): how the sub-width views of registers other than RAX act. -/
inductive AliasPolicy
  | uniform
  | raxOnly
deriving DecidableEq, Repr

/-- SELECTOR_ORDER (00_scope.md R6, decision D10): what a selector `[A:B]` with A < B does. -/
inductive SelectorOrder
  | swap
  | reject
deriving DecidableEq, Repr

/-- REG_RESET (00_scope.md R6, decision D25): what the register cells hold after reset. -/
inductive RegReset
  | arbitrary
  | zero
deriving DecidableEq, Repr

/-- The parameters a model takes as an argument (00_scope.md R6), fixed for the life of the block
(10_state.md R29). `maxChunks = none` is the unbounded store. -/
structure Params where
  maxChunks : Option Nat
  aliasPolicy : AliasPolicy
  selectorOrder : SelectorOrder
  regReset : RegReset
deriving DecidableEq, Repr

/-- BASE, the configuration input sampled at reset (10_state.md R22): any AW-bit value. Log entry 2. -/
opaque Config.base : Addr

/-- MAX_CHUNKS, OPEN (00_scope.md R6, decision D20). Log entry 2. -/
opaque Config.maxChunks : Option Nat

/-- The draws of 10_state.md R26: the value each vector cell holds after the k-th reset. Log entry 1. -/
opaque Config.vecDraw : Nat → Fin 16 → VecCell

/-- The draw for each general-purpose cell after the k-th reset (10_state.md R26). Log entry 1. -/
opaque Config.gprDraw : Nat → Fin 16 → Word

/-- The draw for the Flags cell after the k-th reset (10_state.md R26). Log entry 1. -/
opaque Config.flDraw : Nat → Word

/-- The draw for the Instruction-Pointer cell after the k-th reset (10_state.md R26, R116). Log entry 1. -/
opaque Config.ipDraw : Nat → Word

/-- The parameters with the values this spec takes (00_scope.md R6): Uniform, Swap, Arbitrary; MAX_CHUNKS stays
open. Log entry 3. -/
def Config.params : Params :=
  { maxChunks := Config.maxChunks, aliasPolicy := .uniform, selectorOrder := .swap, regReset := .arbitrary }

end Sys2Proof
end

