-- ==== Sys2Proof/Machine/State.lean ====
section
/-! DEFINITION. The state of the block (10_state.md), the command port (30_encoding.md R48), the reasons a step may
stop, and the state after reset (10_state.md R26 to R29, 70_reset_and_hazards.md R115). Plain data throughout. -/

namespace Sys2Proof.Machine

/-! ### The command port -/

/-- The status of a response (60_exceptions.md R100). -/
inductive Status
  | ok
  | fail
  | fatal
deriving DecidableEq, Repr

/-- The reason of a response (60_exceptions.md R101). `selectorParse` is reported by the host's own encoder. -/
inductive Reason
  | none
  | illegalCommand
  | malformedPayload
  | selectorTooNarrow
  | addrBelowBase
  | addrOverflow
  | outOfChunks
  | halted
  | bitposOutOfWindow
  | sectionCountMismatch
  | selectorReversed
  | selectorParse
deriving DecidableEq, Repr

/-- The causes of a FATAL response that halts the block (60_exceptions.md R103). -/
inductive Cause
  | illegalCommand
  | malformedPayload
  | selectorTooNarrow
  | addrBelowBase
  | addrOverflow
  | outOfChunks
deriving DecidableEq, Repr

/-- A response (30_encoding.md R48). -/
structure Response where
  status : Status
  reason : Reason
  rdata : List Elem
deriving DecidableEq, Repr

/-- A selector command as the host writes it, with its selector string (30_encoding.md R64); the host's encoder
turns it into a request. -/
inductive SelectorCall
  | get (win : Fin 4) (idx : Fin 16) (wc : Width) (text : List Char)
  | set (win : Fin 4) (idx : Fin 16) (wc : Width) (text : List Char) (value : Elem)
deriving DecidableEq, Repr

/-- A move of the host (70_reset_and_hazards.md R124). A reset carries the BASE input the platform drives (R117)
and the request in progress it abandons, if any (R115). Inspection changes nothing and is no move. -/
inductive HostMove
  | request (r : Request)
  | selector (c : SelectorCall)
  | reset (base : Addr) (abandoned : Option Request)
deriving DecidableEq, Repr

/-! ### The state -/

/-- The bytes of the memory space (20_memory.md R42, the map `M`): a canonical list of translated address and byte,
addresses strictly rising, no byte equal to what an unlisted address reads as. -/
abbrev Memory := List Host.Cell

/-- The shape of one segment of the list `S` (10_state.md R21): it covers translated addresses
`start .. start + len - 1`. Its data bytes stand in `Memory`. -/
structure Segment where
  start : Nat
  len : Nat
deriving DecidableEq, Repr

/-- The state of the block, its command port, and the model's own reset counter. -/
structure State where
  /-- `V[0]` to `V[15]` (10_state.md R13). -/
  vec : Vector VecCell 16
  /-- `G[0]` to `G[15]` (10_state.md R16). -/
  gpr : Vector Word 16
  /-- `FL` (10_state.md R19). -/
  fl : Word
  /-- `IP` (10_state.md R20). -/
  ip : Word
  /-- The bytes of `S` (10_state.md R21, 20_memory.md R42). -/
  mem : Memory
  /-- The segments of `S`, sorted by start (10_state.md R21). -/
  segs : List Segment
  /-- `HALTED` (10_state.md R23). -/
  halted : Bool
  /-- `FAULT_CAUSE` (10_state.md R23). -/
  faultCause : BitVec 8
  /-- `BASE`, sampled at reset (10_state.md R22). -/
  base : Addr
  /-- The parameters of 00_scope.md R6, fixed for the life of the block (10_state.md R29). -/
  params : Params
  /-- The host's moves still to come, the next one first (70_reset_and_hazards.md R123). Log entry 4. -/
  inputs : List HostMove
  /-- What the host got back in this run, oldest first (70_reset_and_hazards.md R125). Log entry 4. -/
  responses : List Response
  /-- The MODEL's own: how many resets have happened, so that each takes a draw of its own. Log entry 1. -/
  resets : Nat
deriving DecidableEq, Repr

/-! ### Why a step may stop -/

/-- The block never stops answering: a FATAL response is a next state with HALTED = 1, and a halted block answers
every request (60_exceptions.md R104, R105). So there is no fault that stops the machine. Log entry 5. -/
inductive Fault
deriving DecidableEq, Repr

/-- Why the model gives no meaning. -/
inductive Refusal
  /-- Raised by an arm of `exec` whose instruction has no meaning yet; no arm raises it now. Safe. -/
  | notModelled (mnemonic : String)
deriving DecidableEq, Repr

/-- The outcome of a step of the block. -/
abbrev Outcome := Host.Outcome State Fault Refusal

/-! ### Reset -/

/-- What a register cell holds after reset (10_state.md R26): the draw under `Arbitrary`, zero under `Zero`. -/
def resetCell {n : Nat} (policy : RegReset) (draw : BitVec n) : BitVec n :=
  match policy with
  | .arbitrary => draw
  | .zero => 0

/-- The state after the reset number `k` (counting from 0) with parameters `p` and BASE input `base`
(10_state.md R26 to R29, 70_reset_and_hazards.md R115). -/
def State.resetWith (p : Params) (base : Addr) (k : Nat) : State where
  vec := Vector.ofFn fun i => resetCell p.regReset (Config.vecDraw k i)
  gpr := Vector.ofFn fun i => resetCell p.regReset (Config.gprDraw k i)
  fl := resetCell p.regReset (Config.flDraw k)
  ip := resetCell p.regReset (Config.ipDraw k)
  mem := []
  segs := []
  halted := false
  faultCause := 0
  base := base
  params := p
  inputs := []
  responses := []
  resets := k + 1

/-- The block right after its first reset, with the configuration of `Config`. Nothing is queued: how a program comes
to run is log entry 4. -/
def State.reset : State := State.resetWith Config.params Config.base 0

end Sys2Proof.Machine
end

