-- ==== Sys2Proof/Machine/Ops.lean ====
section
/-! DEFINITION. The named operations: register cells, the byte map and the segment store (20_memory.md), the checks of
an access, the responses, and taking a fault (60_exceptions.md R104). -/

namespace Sys2Proof.Machine

/-! ### Register cells (10_state.md R13, R16) -/

/-- `V[i]`. -/
def State.vecCell (s : State) (i : Fin 16) : VecCell := s.vec[i]

/-- `V[i] <- v`. -/
def State.setVec (s : State) (i : Fin 16) (v : VecCell) : State := { s with vec := s.vec.set i v }

/-- `G[i]`. -/
def State.gprCell (s : State) (i : Fin 16) : Word := s.gpr[i]

/-- `G[i] <- v`. -/
def State.setGpr (s : State) (i : Fin 16) (v : Word) : State := { s with gpr := s.gpr.set i v }

/-- `FL <- v`. -/
def State.setFl (s : State) (v : Word) : State := { s with fl := v }

/-- `IP <- v`. -/
def State.setIp (s : State) (v : Word) : State := { s with ip := v }

/-! ### The byte map (20_memory.md R42) -/

/-- What an unlisted address reads as (20_memory.md R36: "unmapped memory behaves as always-zero"). -/
def Memory.unlisted : Byte := 0x00

/-- The byte at a translated address. -/
def Memory.read : Memory → Nat → Byte
  | [], _ => Memory.unlisted
  | (k, v) :: m, a => if a = k then v else Memory.read m a

/-- `M[a := b]`, keeping the canonical form: addresses rising, no cell equal to what an unlisted address reads as. -/
def Memory.write : Memory → Nat → Byte → Memory
  | [], a, b => if b = Memory.unlisted then [] else [(a, b)]
  | (k, v) :: m, a, b =>
    if a < k then (if b = Memory.unlisted then (k, v) :: m else (a, b) :: (k, v) :: m)
    else if a = k then (if b = Memory.unlisted then m else (a, b) :: m)
    else (k, v) :: Memory.write m a b

/-- The canonical form: addresses strictly rising and no cell equal to what an unlisted address reads as. -/
def Memory.wf : Memory → Bool
  | [] => true
  | [(_, v)] => decide (v ≠ Memory.unlisted)
  | (k, v) :: (k', v') :: m => decide (v ≠ Memory.unlisted) && decide (k < k') && Memory.wf ((k', v') :: m)

/-! ### The segment store (10_state.md R21, 20_memory.md R36 to R39) -/

/-- `end(s)`, the first translated address after the segment (10_state.md R21). -/
def Segment.stop (g : Segment) : Nat := g.start + g.len

/-- The segment covers a translated address (20_memory.md R36). -/
def Segment.covers (g : Segment) (t : Nat) : Bool := decide (g.start ≤ t) && decide (t < g.stop)

/-- Some segment of the list covers a translated address. -/
def isMapped (segs : List Segment) (t : Nat) : Bool := segs.any fun g => g.covers t

/-- Insert a segment keeping the list sorted by start (20_memory.md R37). -/
def insertSegment (new : Segment) : List Segment → List Segment
  | [] => [new]
  | g :: segs => if new.start ≤ g.start then new :: g :: segs else g :: insertSegment new segs

/-- The left-to-right pass of 20_memory.md R38 from the segment `cur` on: while `cur` ends where the next one starts
the two become one and the pass stays at it, else it moves on. -/
def coalesceFrom (cur : Segment) : List Segment → List Segment
  | [] => [cur]
  | next :: segs =>
    if cur.stop = next.start then coalesceFrom ⟨cur.start, cur.len + next.len⟩ segs
    else cur :: coalesceFrom next segs

/-- `Coalesce(S)` (20_memory.md R38). -/
def coalesce : List Segment → List Segment
  | [] => []
  | g :: segs => coalesceFrom g segs

/-- The start of the 512-byte chunk that holds a translated address (20_memory.md R37). -/
def chunkStart (t : Nat) : Nat := t - t % CHUNK

/-- The shape of `S` after a write at `t` (20_memory.md R37): unchanged inside a segment, else the chunk of `t` is
allocated, inserted in order and coalesced. -/
def allocateAt (segs : List Segment) (t : Nat) : List Segment :=
  if isMapped segs t then segs else coalesce (insertSegment ⟨chunkStart t, CHUNK⟩ segs)

/-- `allocated(S)`, in chunks (20_memory.md R39). -/
def allocated (segs : List Segment) : Nat := (segs.map fun g => g.len / CHUNK).sum

/-- `ChunksNeeded(t, n)` (20_memory.md R39): how many chunks that an n-byte access at `t` touches lie in no segment. -/
def chunksNeeded (segs : List Segment) (t n : Nat) : Nat :=
  ((List.range' (t / CHUNK) ((t + n - 1) / CHUNK + 1 - t / CHUNK)).filter
    fun c => !isMapped segs (CHUNK * c)).length

/-- The capacity check of 20_memory.md R39; an unbounded store always passes. -/
def admits (maxChunks : Option Nat) (segs : List Segment) (t n : Nat) : Bool :=
  match maxChunks with
  | none => true
  | some m => decide (allocated segs + chunksNeeded segs t n ≤ m)

/-! ### Bytes of the state -/

/-- `ReadByteT(t)` (20_memory.md R36, R42): the stored byte, 0x00 where no byte stands. -/
def State.readByteT (s : State) (t : Nat) : Byte := Memory.read s.mem t

/-- `WriteByteT(t, b)` (20_memory.md R37): the chunk of `t` is allocated if it lies in no segment (even when b is 0,
R34), and the byte is written. -/
def State.writeByteT (s : State) (t : Nat) (b : Byte) : State :=
  { s with mem := Memory.write s.mem t b, segs := allocateAt s.segs t }

/-- Bytes written at `t`, `t + 1`, ... in increasing address order (20_memory.md R41). -/
def State.writeBytesT (s : State) (t : Nat) : List Byte → State
  | [] => s
  | b :: bs => (s.writeByteT t b).writeBytesT (t + 1) bs

/-! ### The checks of an access (42_memory_ops.md R90) -/

/-- The kind of an access (42_memory_ops.md R90). -/
inductive AccessKind
  | read
  | write
deriving DecidableEq, Repr

/-- The translated address of an untranslated one that is not below BASE (20_memory.md R35). -/
def State.translate (s : State) (e : Nat) : Nat := e - s.base.toNat

/-- `Check(addr, n, kind)` (42_memory_ops.md R90): the fault an n-byte access at untranslated address `e` raises before
any byte is touched, in the order below base, past the top, out of chunks. Arithmetic on naturals, no wrap. -/
def State.accessFault (s : State) (e n : Nat) (kind : AccessKind) : Option Cause :=
  if e < s.base.toNat then some .addrBelowBase
  else if e + n - 1 > 2 ^ AW - 1 then some .addrOverflow
  else if kind = .write ∧ admits s.params.maxChunks s.segs (s.translate e) n = false then some .outOfChunks
  else none

/-! ### Responses (30_encoding.md R48, 60_exceptions.md R100, R101) -/

/-- The 2-bit code of a status (60_exceptions.md R100). -/
def Status.code : Status → BitVec 2
  | .ok => 0
  | .fail => 1
  | .fatal => 2

/-- The 8-bit code of a reason (60_exceptions.md R101). -/
def Reason.code : Reason → BitVec 8
  | .none => 0
  | .illegalCommand => 1
  | .malformedPayload => 2
  | .selectorTooNarrow => 3
  | .addrBelowBase => 4
  | .addrOverflow => 5
  | .outOfChunks => 6
  | .halted => 7
  | .bitposOutOfWindow => 16
  | .sectionCountMismatch => 17
  | .selectorReversed => 18
  | .selectorParse => 19

/-- The reason a FATAL response gives for a cause (60_exceptions.md R101, R103). -/
def Cause.reason : Cause → Reason
  | .illegalCommand => .illegalCommand
  | .malformedPayload => .malformedPayload
  | .selectorTooNarrow => .selectorTooNarrow
  | .addrBelowBase => .addrBelowBase
  | .addrOverflow => .addrOverflow
  | .outOfChunks => .outOfChunks

/-- The 8-bit value a cause leaves in FAULT_CAUSE (10_state.md R23). -/
def Cause.code (c : Cause) : BitVec 8 := c.reason.code

/-- `respond(status, reason, rdata)` (00_scope.md R10): ends the command at the port and gives its response. -/
def State.respond (s : State) (status : Status) (reason : Reason) (rdata : List Elem) : State :=
  { s with inputs := s.inputs.tail, responses := s.responses ++ [⟨status, reason, rdata⟩] }

/-- An OK response; the reason is 0 (30_encoding.md R48). -/
def State.respondOk (s : State) (rdata : List Elem) : State := s.respond .ok .none rdata

/-- A FAIL response; rdata is empty (30_encoding.md R68) and no state changes (60_exceptions.md R102). -/
def State.respondFail (s : State) (reason : Reason) : State := s.respond .fail reason []

/-- `raise Fatal(cause)` (60_exceptions.md R104): TAKING A FAULT. HALTED is set, the cause recorded, and the command
answered; control goes nowhere. -/
def State.raiseFatal (s : State) (cause : Cause) : State :=
  State.respond { s with halted := true, faultCause := cause.code } .fatal cause.reason []

/-- The answer to any request while HALTED = 1 (60_exceptions.md R105). -/
def State.respondHalted (s : State) : State := s.respond .fatal .halted [⟨8, s.faultCause⟩]

/-- The reset event (70_reset_and_hazards.md R115), the only way back from a fault (60_exceptions.md R108): the reset
state with the BASE input and a draw of its own; the parameters stay (10_state.md R29). The host's later moves stay to
come, and a new run begins, so no response of the old one is kept. -/
def State.takeReset (s : State) (base : Addr) (later : List HostMove) : State :=
  { State.resetWith s.params base s.resets with inputs := later }

end Sys2Proof.Machine
end

