-- ==== Sys2Proof/Machine/Operands.lean ====
section
/-! DEFINITION. Operands: splitting and joining bit-vectors (sections and bytes), selectors (40_vector.md R74 to R76),
general-purpose views (41_scalar_regs.md R80, R81), and the request's payload (30_encoding.md R62). -/

namespace Sys2Proof.Machine

/-! ### Sections and bytes -/

/-- The first `m` pieces of `w` bits of a value, lowest first: piece k is bits `k*w + w - 1 : k*w`
(40_vector.md R72; with w = 8 the bytes of 20_memory.md R30). -/
def splitLow {n : Nat} (w m : Nat) (v : BitVec n) : List (BitVec w) :=
  (List.range m).map fun k => v.extractLsb' (k * w) w

/-- `x(m-1) ++ ... ++ x1 ++ x0` zero-extended to n bits: the first element fills the lowest bits (40_vector.md R73; with
w = 8 the little-endian value of 20_memory.md R40). -/
def joinLow {w : Nat} (n : Nat) : List (BitVec w) → BitVec n
  | [] => 0
  | x :: xs => (joinLow n xs <<< w) ||| x.setWidth n

/-- The value with bits `lo .. lo + len - 1` replaced by the low `len` bits of `x`, every other bit unchanged. -/
def replaceBits (v : VecCell) (lo len : Nat) (x : VecCell) : VecCell :=
  let mask : VecCell := (BitVec.allOnes len).setWidth 512
  (v &&& ~~~(mask <<< lo)) ||| ((x &&& mask) <<< lo)

/-! ### Selectors (40_vector.md R74) -/

/-- `Order(A, B)`: the inclusive range (hi, lo), or none where SELECTOR_ORDER = Reject and A < B. -/
def orderSelector (o : SelectorOrder) (a b : Fin 512) : Option (Nat × Nat) :=
  if b.val ≤ a.val then some (a.val, b.val)
  else
    match o with
    | .swap => some (b.val, a.val)
    | .reject => none

/-! ### General-purpose views (41_scalar_regs.md R80, R81) -/

/-- `ReadView(view, g)`. -/
def readView (view : GprView) (g : Word) : Word :=
  match view with
  | .full64 => g
  | .zext32 => (g.extractLsb' 0 32).setWidth 64
  | .merge16 => (g.extractLsb' 0 16).setWidth 64
  | .merge8Low => (g.extractLsb' 0 8).setWidth 64
  | .merge8High => (g.extractLsb' 8 8).setWidth 64

/-- `WriteView(view, g, v)`. -/
def writeView (view : GprView) (g v : Word) : Word :=
  match view with
  | .full64 => v
  | .zext32 => (v.extractLsb' 0 32).setWidth 64
  | .merge16 => g.extractLsb' 16 48 ++ v.extractLsb' 0 16
  | .merge8Low => g.extractLsb' 8 56 ++ v.extractLsb' 0 8
  | .merge8High => g.extractLsb' 16 48 ++ v.extractLsb' 0 8 ++ g.extractLsb' 0 8

/-- `EffView(view, idx)` (R81). -/
def effView (p : AliasPolicy) (view : GprView) (idx : Fin 16) : GprView :=
  match p with
  | .uniform => view
  | .raxOnly => if idx.val = 0 then view else .full64

/-! ### The request at the port and its payload (30_encoding.md R48, R62) -/

/-- The request the block is serving: the head of the host's moves. Where the head is no request, one with nothing in
it. -/
def State.port (s : State) : Request :=
  match s.inputs with
  | .request r :: _ => r
  | _ => ⟨0, none, []⟩

/-- The payload a command's row of R62 asks for: whether `addr` is present, and how many elements of which width. -/
structure PayloadShape where
  hasAddr : Bool
  count : Nat
  width : Nat
deriving DecidableEq, Repr

/-- The table of R62. Where no element is wanted the width is not used. -/
def payloadShape : Instr → PayloadShape
  | .vsetbit _ _ _ _ => ⟨false, 0, 0⟩
  | .vgetbit _ _ _ => ⟨false, 0, 0⟩
  | .vgetsec _ _ _ => ⟨false, 0, 0⟩
  | .vsetsec _ _ wc count => ⟨false, count.val, wc.bits⟩
  | .vgetsel _ _ _ _ _ => ⟨false, 0, 0⟩
  | .vsetsel _ _ wc _ _ => ⟨false, 1, wc.bits⟩
  | .vclear _ => ⟨false, 0, 0⟩
  | .gprset _ _ => ⟨false, 1, 64⟩
  | .gprget _ _ => ⟨false, 0, 0⟩
  | .flset _ => ⟨false, 1, 64⟩
  | .flget _ => ⟨false, 0, 0⟩
  | .ipset _ => ⟨false, 1, 64⟩
  | .ipget _ => ⟨false, 0, 0⟩
  | .mrdb => ⟨true, 0, 0⟩
  | .mwrb => ⟨true, 1, 8⟩
  | .mrd _ => ⟨true, 0, 0⟩
  | .mwr wc => ⟨true, 1, wc.bits⟩
  | .mrdv _ _ => ⟨true, 0, 0⟩
  | .mwrv wc count => ⟨true, count.val, wc.bits⟩

/-- The request's `addr` and `wdata` have the shape the command asks for (R62). -/
def payloadMatches (i : Instr) (r : Request) : Bool :=
  decide (r.addr.isSome = (payloadShape i).hasAddr) && decide (r.wdata.length = (payloadShape i).count)
    && r.wdata.all fun e => decide (e.width = (payloadShape i).width)

/-- The element as a value of width w, where it has that width. -/
def elemAs (w : Nat) (e : Elem) : Option (BitVec w) :=
  if e.width = w then some (e.bits.setWidth w) else none

/-- The elements as values of width w, where every one has that width. -/
def elemsAs (w : Nat) : List Elem → Option (List (BitVec w))
  | [] => some []
  | e :: es => (elemAs w e).bind fun v => (elemsAs w es).map fun vs => v :: vs

/-- The payload `addr` absent, `wdata` empty. -/
def noOperand (r : Request) : Bool := r.addr.isNone && r.wdata.isEmpty

/-- The payload `addr` absent, exactly `count` elements of w bits. -/
def listOperand (w count : Nat) (r : Request) : Option (List (BitVec w)) :=
  if r.addr.isNone ∧ r.wdata.length = count then elemsAs w r.wdata else none

/-- The payload `addr` absent, exactly one element of w bits. -/
def valueOperand (w : Nat) (r : Request) : Option (BitVec w) :=
  (listOperand w 1 r).bind fun vs => vs.head?

/-- The payload `addr` present, exactly `count` elements of w bits. -/
def addrListOperand (w count : Nat) (r : Request) : Option (Addr × List (BitVec w)) :=
  r.addr.bind fun a => if r.wdata.length = count then (elemsAs w r.wdata).map fun vs => (a, vs) else none

/-- The payload `addr` present, exactly one element of w bits. -/
def addrValueOperand (w : Nat) (r : Request) : Option (Addr × BitVec w) :=
  (addrListOperand w 1 r).bind fun p => p.2.head?.map fun v => (p.1, v)

/-- The payload `addr` present, `wdata` empty. -/
def addrOperand (r : Request) : Option Addr :=
  r.addr.bind fun a => if r.wdata.isEmpty then some a else none

/-- A request with the command word `c` and a payload of zeros of the shape its command asks for. -/
def zeroPayloadRequest (c : Command) : Request :=
  match decode c with
  | none => ⟨c, none, []⟩
  | some i =>
    let p := payloadShape i
    ⟨c, if p.hasAddr then some 0 else none, List.replicate p.count ⟨p.width, 0⟩⟩

end Sys2Proof.Machine
end

