-- ==== Sys2Proof/Machine/Memory.lean ====
section
/-! DEFINITION. The memory commands (42_memory_ops.md) over `MemRead`, `MemWrite` (20_memory.md R40, R41) and
`Check` (R90). Untranslated addresses are naturals here, so nothing wraps (00_scope.md R8). -/

namespace Sys2Proof.Machine

/-- `MemRead(addr, n)` of w = 8n bits for an in-range access (20_memory.md R40): byte k of the value is the byte at
`t + k`. -/
def State.memRead (s : State) (w e : Nat) : BitVec w :=
  joinLow w ((List.range (w / 8)).map fun k => s.readByteT (s.translate e + k))

/-- `MemWrite(addr, n, v)` for an access that has passed its checks (20_memory.md R41). -/
def State.memWrite (s : State) {w : Nat} (e : Nat) (v : BitVec w) : State :=
  s.writeBytesT (s.translate e) (splitLow 8 (w / 8) v)

/-- A checked read of one element (R91, R93). -/
def State.readElement (s : State) (w e : Nat) : Except Cause (BitVec w) :=
  match s.accessFault e (w / 8) .read with
  | some cause => .error cause
  | none => .ok (s.memRead w e)

/-- The elements of a vector read at `e`, `e + n`, ... (R95, R96); the first that fails gives its cause, and no data. -/
def State.readElements (s : State) (w : Nat) : Nat → Nat → Except Cause (List (BitVec w))
  | 0, _ => .ok []
  | count + 1, e =>
    match s.readElement w e with
    | .error cause => .error cause
    | .ok v =>
      match s.readElements w count (e + w / 8) with
      | .error cause => .error cause
      | .ok vs => .ok (v :: vs)

/-- The elements of a vector write at `e`, `e + n`, ... (R95, R97): each is checked against the state so far and
committed; at the first that fails the state so far stands, with the cause. -/
def State.writeElements (s : State) {w : Nat} : List (BitVec w) → Nat → State × Option Cause
  | [], _ => (s, none)
  | v :: vs, e =>
    match s.accessFault e (w / 8) .write with
    | some cause => (s, some cause)
    | none => (s.memWrite e v).writeElements vs (e + w / 8)

/-- The end of a read: the fault, or the value (R91, R93). -/
def State.finishRead (s : State) {w : Nat} : Except Cause (BitVec w) → State
  | .error cause => s.raiseFatal cause
  | .ok v => s.respondOk [⟨w, v⟩]

/-- A checked write of one element and its response (R92, R94). -/
def State.writeElement (s : State) {w : Nat} (e : Nat) (v : BitVec w) : State :=
  match s.accessFault e (w / 8) .write with
  | some cause => s.raiseFatal cause
  | none => (s.memWrite e v).respondOk []

/-- MRDB (R91). -/
def execMrdb (s : State) : Outcome :=
  .next <|
    match addrOperand s.port with
    | none => s.raiseFatal .malformedPayload
    | some addr => s.finishRead (s.readElement 8 addr.toNat)

/-- MWRB (R92). -/
def execMwrb (s : State) : Outcome :=
  .next <|
    match addrValueOperand 8 s.port with
    | none => s.raiseFatal .malformedPayload
    | some (addr, b) => s.writeElement addr.toNat b

/-- MRD (R93). -/
def execMrd (wc : Width) (s : State) : Outcome :=
  .next <|
    match addrOperand s.port with
    | none => s.raiseFatal .malformedPayload
    | some addr => s.finishRead (s.readElement wc.bits addr.toNat)

/-- MWR (R94). -/
def execMwr (wc : Width) (s : State) : Outcome :=
  .next <|
    match addrValueOperand wc.bits s.port with
    | none => s.raiseFatal .malformedPayload
    | some (addr, v) => s.writeElement addr.toNat v

/-- MRDV (R96). With count 0 no check is made. -/
def execMrdv (wc : Width) (count : Fin 65536) (s : State) : Outcome :=
  .next <|
    match addrOperand s.port with
    | none => s.raiseFatal .malformedPayload
    | some addr =>
      match s.readElements wc.bits count.val addr.toNat with
      | .error cause => s.raiseFatal cause
      | .ok vs => s.respondOk (vs.map fun v => ⟨wc.bits, v⟩)

/-- MWRV (R97). With count 0 no check is made. -/
def execMwrv (wc : Width) (count : Fin 65536) (s : State) : Outcome :=
  .next <|
    match addrListOperand wc.bits count.val s.port with
    | none => s.raiseFatal .malformedPayload
    | some (addr, vs) =>
      match s.writeElements vs addr.toNat with
      | (t, some cause) => t.raiseFatal cause
      | (t, none) => t.respondOk []

end Sys2Proof.Machine
end

