-- ==== Sys2Proof/Machine/Flags.lean ====
section
/-! DEFINITION. The view functions of the Flags and Instruction-Pointer cells (41_scalar_regs.md R84). The block computes
no flag (10_state.md R19): there is no flag computation to model. -/

namespace Sys2Proof.Machine

/-- `wv`, the width of a view (R84, 30_encoding.md R57). -/
def viewWidth : CellView → Nat
  | .v64 => 64
  | .v32 => 32
  | .v16 => 16

/-- `mask_wv` (R84, 00_scope.md R8). -/
def viewMask (view : CellView) : Word := (BitVec.allOnes (viewWidth view)).setWidth 64

/-- `FRead(view, c)` (R84). -/
def cellRead (view : CellView) (c : Word) : Word := c &&& viewMask view

/-- `FWrite(view, c, v)` (R84): the view's low bits are replaced, every bit above them is kept. -/
def cellWrite (view : CellView) (c v : Word) : Word := (c &&& ~~~viewMask view) ||| (v &&& viewMask view)

end Sys2Proof.Machine
end

