-- ==== Sys2Proof/Machine/Scalar.lean ====
section
/-! DEFINITION. The General-Purpose, Flags and Instruction-Pointer commands (41_scalar_regs.md). -/

namespace Sys2Proof.Machine

/-- GPRSET (R82). -/
def execGprset (view : GprView) (idx : Fin 16) (s : State) : Outcome :=
  .next <|
    match valueOperand 64 s.port with
    | none => s.raiseFatal .malformedPayload
    | some v => (s.setGpr idx (writeView (effView s.params.aliasPolicy view idx) (s.gprCell idx) v)).respondOk []

/-- GPRGET (R83). -/
def execGprget (view : GprView) (idx : Fin 16) (s : State) : Outcome :=
  .next <|
    if noOperand s.port then
      s.respondOk [⟨64, readView (effView s.params.aliasPolicy view idx) (s.gprCell idx)⟩]
    else s.raiseFatal .malformedPayload

/-- FLSET (R85). -/
def execFlset (view : CellView) (s : State) : Outcome :=
  .next <|
    match valueOperand 64 s.port with
    | none => s.raiseFatal .malformedPayload
    | some v => (s.setFl (cellWrite view s.fl v)).respondOk []

/-- FLGET (R86). -/
def execFlget (view : CellView) (s : State) : Outcome :=
  .next <| if noOperand s.port then s.respondOk [⟨64, cellRead view s.fl⟩] else s.raiseFatal .malformedPayload

/-- IPSET (R87). -/
def execIpset (view : CellView) (s : State) : Outcome :=
  .next <|
    match valueOperand 64 s.port with
    | none => s.raiseFatal .malformedPayload
    | some v => (s.setIp (cellWrite view s.ip v)).respondOk []

/-- IPGET (R88). -/
def execIpget (view : CellView) (s : State) : Outcome :=
  .next <| if noOperand s.port then s.respondOk [⟨64, cellRead view s.ip⟩] else s.raiseFatal .malformedPayload

end Sys2Proof.Machine
end

