-- ==== Sys2Proof/Machine/Vector.lean ====
section
/-! DEFINITION. The Vector Register Bank commands (40_vector.md). Each meaning checks the payload (60_exceptions.md
R106 step 3) and then runs its rule. -/

namespace Sys2Proof.Machine

/-- VSETBIT (R70). -/
def execVsetbit (win : Window) (idx : Fin 16) (pos : Fin 512) (val : Bool) (s : State) : Outcome :=
  .next <|
    if noOperand s.port then
      if pos.val ≥ win.bits then s.respondFail .bitposOutOfWindow
      else
        (s.setVec idx (replaceBits (s.vecCell idx) pos.val 1 ((BitVec.ofBool val).setWidth 512))).respondOk []
    else s.raiseFatal .malformedPayload

/-- VGETBIT (R71). -/
def execVgetbit (win : Window) (idx : Fin 16) (pos : Fin 512) (s : State) : Outcome :=
  .next <|
    if noOperand s.port then
      if pos.val ≥ win.bits then s.respondFail .bitposOutOfWindow
      else s.respondOk [⟨1, (s.vecCell idx).extractLsb' pos.val 1⟩]
    else s.raiseFatal .malformedPayload

/-- VGETSEC (R72): the first `floor(W / w)` sections of the cell, section 0 first. -/
def execVgetsec (win : Window) (idx : Fin 16) (wc : Width) (s : State) : Outcome :=
  .next <|
    if noOperand s.port then
      s.respondOk ((splitLow wc.bits (win.bits / wc.bits) (s.vecCell idx)).map fun v => ⟨wc.bits, v⟩)
    else s.raiseFatal .malformedPayload

/-- VSETSEC (R73): on success every bit at or above W becomes 0. -/
def execVsetsec (win : Window) (idx : Fin 16) (wc : Width) (count : Fin 65536) (s : State) : Outcome :=
  .next <|
    match listOperand wc.bits count.val s.port with
    | none => s.raiseFatal .malformedPayload
    | some sections =>
      if count.val * wc.bits ≠ win.bits then s.respondFail .sectionCountMismatch
      else (s.setVec idx (joinLow 512 sections)).respondOk []

/-- VGETSEL (R75). The window field is not consulted. -/
def execVgetsel (_win : Fin 4) (idx : Fin 16) (wc : Width) (a b : Fin 512) (s : State) : Outcome :=
  .next <|
    if noOperand s.port then
      match orderSelector s.params.selectorOrder a b with
      | none => s.respondFail .selectorReversed
      | some (hi, lo) =>
        if wc.bits < hi - lo + 1 then s.raiseFatal .selectorTooNarrow
        else s.respondOk [⟨wc.bits, ((s.vecCell idx).extractLsb' lo (hi - lo + 1)).setWidth wc.bits⟩]
    else s.raiseFatal .malformedPayload

/-- VSETSEL (R76): bits of the range past the value's width become 0. The window field is not consulted. -/
def execVsetsel (_win : Fin 4) (idx : Fin 16) (wc : Width) (a b : Fin 512) (s : State) : Outcome :=
  .next <|
    match valueOperand wc.bits s.port with
    | none => s.raiseFatal .malformedPayload
    | some v =>
      match orderSelector s.params.selectorOrder a b with
      | none => s.respondFail .selectorReversed
      | some (hi, lo) =>
        (s.setVec idx (replaceBits (s.vecCell idx) lo (hi - lo + 1) (v.setWidth 512))).respondOk []

/-- VCLEAR (R77). -/
def execVclear (idx : Fin 16) (s : State) : Outcome :=
  .next <| if noOperand s.port then (s.setVec idx 0).respondOk [] else s.raiseFatal .malformedPayload

end Sys2Proof.Machine
end

