-- ==== Sys2Proof/Machine/Dispatch.lean ====
section
/-! DEFINITION. One arm per command (30_encoding.md R58). -/

namespace Sys2Proof.Machine

def exec (i : Instr) (s : State) : Host.Outcome State Fault Refusal :=
  match i with
  | .vsetbit win idx pos val => Sys2Proof.Machine.execVsetbit win idx pos val s
  | .vgetbit win idx pos => Sys2Proof.Machine.execVgetbit win idx pos s
  | .vgetsec win idx wc => Sys2Proof.Machine.execVgetsec win idx wc s
  | .vsetsec win idx wc count => Sys2Proof.Machine.execVsetsec win idx wc count s
  | .vgetsel win idx wc a b => Sys2Proof.Machine.execVgetsel win idx wc a b s
  | .vsetsel win idx wc a b => Sys2Proof.Machine.execVsetsel win idx wc a b s
  | .vclear idx => Sys2Proof.Machine.execVclear idx s
  | .gprset view idx => Sys2Proof.Machine.execGprset view idx s
  | .gprget view idx => Sys2Proof.Machine.execGprget view idx s
  | .flset view => Sys2Proof.Machine.execFlset view s
  | .flget view => Sys2Proof.Machine.execFlget view s
  | .ipset view => Sys2Proof.Machine.execIpset view s
  | .ipget view => Sys2Proof.Machine.execIpget view s
  | .mrdb => Sys2Proof.Machine.execMrdb s
  | .mwrb => Sys2Proof.Machine.execMwrb s
  | .mrd wc => Sys2Proof.Machine.execMrd wc s
  | .mwr wc => Sys2Proof.Machine.execMwr wc s
  | .mrdv wc count => Sys2Proof.Machine.execMrdv wc count s
  | .mwrv wc count => Sys2Proof.Machine.execMwrv wc count s

end Sys2Proof.Machine
end

