-- ==== Sys2Proof/Machine/HostEncoder.lean ====
section
/-! DEFINITION. The host's encoder of selector strings (30_encoding.md R64, 70_reset_and_hazards.md R124). It is outside
the block: a string that does not parse gives FAIL SELECTOR_PARSE and no command. -/

namespace Sys2Proof.Machine

/-- The value of a decimal digit (R64: `digit`). -/
def digitValue (c : Char) : Option Nat :=
  if '0'.toNat ≤ c.toNat ∧ c.toNat ≤ '9'.toNat then some (c.toNat - '0'.toNat) else none

/-- Read decimal digits onto `acc`; the rest starts at the first character that is no digit. -/
def readDigits (acc : Nat) : List Char → Nat × List Char
  | [] => (acc, [])
  | c :: cs =>
    match digitValue c with
    | some d => readDigits (10 * acc + d) cs
    | none => (acc, c :: cs)

/-- A bound (R64): `MAX`, which is 511, or a decimal integer of one or more digits whose value is at most 511; leading
zeros are allowed. -/
def parseBound : List Char → Option (Fin 512 × List Char)
  | 'M' :: 'A' :: 'X' :: cs => some (⟨selectorMax, by decide⟩, cs)
  | c :: cs =>
    match digitValue c with
    | none => none
    | some d =>
      let r := readDigits d cs
      if h : r.1 < 512 then some (⟨r.1, h⟩, r.2) else none
  | [] => none

/-- A selector string `[A:B]` (R64): no whitespace, nothing before or after. A < B is allowed here. -/
def parseSelector : List Char → Option (Fin 512 × Fin 512)
  | '[' :: cs =>
    match parseBound cs with
    | some (a, ':' :: cs') =>
      match parseBound cs' with
      | some (b, [']']) => some (a, b)
      | _ => none
    | _ => none
  | _ => none

/-- The request a selector command becomes, where its string parses: A and B unchanged (R64). -/
def encodeSelectorCall : SelectorCall → Option Request
  | .get win idx wc text => (parseSelector text).map fun p => ⟨encode (.vgetsel win idx wc p.1 p.2), none, []⟩
  | .set win idx wc text value =>
    (parseSelector text).map fun p => ⟨encode (.vsetsel win idx wc p.1 p.2), none, [value]⟩

end Sys2Proof.Machine
end

