-- ==== Sys2Proof/Machine/Serve.lean ====
section
/-! DEFINITION. Serving the host's moves: the order of 60_exceptions.md R106, the selector string, the reset. -/

namespace Sys2Proof.Machine

/-- Serve the request at the port (60_exceptions.md R106): a halted block answers without decoding (R105), an illegal
word faults (R103), and a command runs; its meaning checks the payload first (step 3) and then runs its rule (step 4). -/
def State.serve (s : State) : Outcome :=
  if s.halted then .next s.respondHalted
  else
    match decode s.port.cmd with
    | none => .next (s.raiseFatal .illegalCommand)
    | some i => exec i s

/-- Serve a selector command of the host: its encoder answers FAIL SELECTOR_PARSE itself, or the encoded request takes
the command's place and is served (30_encoding.md R64). -/
def State.serveSelector (s : State) (c : SelectorCall) (later : List HostMove) : Outcome :=
  match encodeSelectorCall c with
  | none => .next (s.respondFail .selectorParse)
  | some r => State.serve { s with inputs := .request r :: later }

/-- One move of the host. With none to come the block is idle and keeps all its state (60_exceptions.md R113). -/
def State.serveMove (s : State) : Outcome :=
  match s.inputs with
  | [] => .next s
  | .request _ :: _ => s.serve
  | .selector c :: later => s.serveSelector c later
  | .reset base _ :: later => .next (s.takeReset base later)

/-- `s` with a request of the command word `w`, its payload all zeros, as the host's next move. -/
def State.offerWord (s : State) (w : Nat) : State :=
  { s with inputs := .request (zeroPayloadRequest (BitVec.ofNat 32 w)) :: s.inputs }

end Sys2Proof.Machine
end

