-- ==== Sys2Proof/Machine/Step.lean ====
section
/-! DEFINITION. One step of the block: one move of the host (70_reset_and_hazards.md R123, R124). -/

namespace Sys2Proof.Machine

/-- One step: the host's next move. -/
def step (s : State) : Host.Outcome State Fault Refusal := s.serveMove

/-- The host's next move is a request with the command word `w` and a payload of zeros of the shape its command asks
for (30_encoding.md R62). The block fetches nothing (20_memory.md R47): this stands for the host issuing the command,
log entry 4. A command is one 32-bit word whatever `nbits` says (R49). -/
def State.withFetchWord (s : State) (_nbits w : Nat) : State := s.offerWord w

end Sys2Proof.Machine
end

