-- ==== Sys2Proof/Machine/Assembler.lean ====
section
/-! DEFINITION. The assembler syntax (30_encoding.md R65 to R67) and the register names (10_state.md R17, R19, R20): a
line of text to a request. It is outside the block. -/

namespace Sys2Proof.Machine

/-! ### Names -/

/-- The decimal spellings 0 to 15. -/
def indexNames : List String :=
  ["0", "1", "2", "3", "4", "5", "6", "7", "8", "9", "10", "11", "12", "13", "14", "15"]

/-- The decimal spelling of an index. -/
def indexName (idx : Fin 16) : String := indexNames.getD idx.val ""

/-- The legacy letters of the registers 0 to 7, in the index order of 10_state.md R16. -/
def legacyName (idx : Fin 16) : String :=
  (["AX", "CX", "DX", "BX", "SP", "BP", "SI", "DI"] : List String).getD idx.val ""

/-- The letter of the byte registers 0 to 3 (10_state.md R17). -/
def byteLetter (idx : Fin 16) : String := (["A", "C", "D", "B"] : List String).getD idx.val ""

/-- The general-purpose register name of a (view, index) pair (10_state.md R17); none for a pair that is no name. -/
def gprName (view : GprView) (idx : Fin 16) : Option String :=
  if isGprName view idx then
    some <|
      if idx.val < 8 then
        match view with
        | .full64 => "R" ++ legacyName idx
        | .zext32 => "E" ++ legacyName idx
        | .merge16 => legacyName idx
        | .merge8Low => byteLetter idx ++ "L"
        | .merge8High => byteLetter idx ++ "H"
      else
        match view with
        | .full64 => "R" ++ indexName idx
        | .zext32 => "R" ++ indexName idx ++ "D"
        | .merge16 => "R" ++ indexName idx ++ "W"
        | .merge8Low => "R" ++ indexName idx ++ "B"
        | .merge8High => ""
  else none

/-- RFLAGS, EFLAGS, FLAGS (10_state.md R19, 30_encoding.md R57). -/
def flagsName : CellView → String
  | .v64 => "RFLAGS"
  | .v32 => "EFLAGS"
  | .v16 => "FLAGS"

/-- RIP, EIP, IP (10_state.md R20, 30_encoding.md R57). -/
def ipName : CellView → String
  | .v64 => "RIP"
  | .v32 => "EIP"
  | .v16 => "IP"

/-- XMM, YMM, ZMM (30_encoding.md R55, R65). -/
def windowName : Window → String
  | .xmm => "XMM"
  | .ymm => "YMM"
  | .zmm => "ZMM"

/-- U8 to U512 (30_encoding.md R53). -/
def widthName : Width → String
  | .u8 => "U8"
  | .u16 => "U16"
  | .u32 => "U32"
  | .u64 => "U64"
  | .u128 => "U128"
  | .u256 => "U256"
  | .u512 => "U512"

def allIndices : List (Fin 16) := List.finRange 16

def allGprViews : List GprView := [.full64, .zext32, .merge16, .merge8Low, .merge8High]

def allCellViews : List CellView := [.v64, .v32, .v16]

def allWindows : List Window := [.xmm, .ymm, .zmm]

def allWidths : List Width := [.u8, .u16, .u32, .u64, .u128, .u256, .u512]

/-- The (view, index) pair a general-purpose name selects (30_encoding.md R66). -/
def gprOfName (text : List Char) : Option (GprView × Fin 16) :=
  (allGprViews.flatMap fun v => allIndices.map fun i => (v, i)).find? fun p =>
    decide ((gprName p.1 p.2).map String.toList = some text)

/-- The view a flags name selects (R66). -/
def flagsOfName (text : List Char) : Option CellView :=
  allCellViews.find? fun v => decide ((flagsName v).toList = text)

/-- The view an instruction-pointer name selects (R66). -/
def ipOfName (text : List Char) : Option CellView :=
  allCellViews.find? fun v => decide ((ipName v).toList = text)

/-- The width a type name selects (R66). -/
def widthOfName (text : List Char) : Option Width :=
  allWidths.find? fun w => decide ((widthName w).toList = text)

/-- The window and index of a spelling `<win><idx>` (R65). -/
def windowRegOfName (text : List Char) : Option (Window × Fin 16) :=
  (allWindows.flatMap fun w => allIndices.map fun i => (w, i)).find? fun p =>
    decide ((windowName p.1 ++ indexName p.2).toList = text)

/-- The index of a spelling `V<idx>` (R65). -/
def cellOfName (text : List Char) : Option (Fin 16) :=
  allIndices.find? fun i => decide (("V" ++ indexName i).toList = text)

/-- The win field and index of a `<vreg>` (R65): `<win><idx>`, or `V<idx>` with win = 00. -/
def vregOfName (text : List Char) : Option (Fin 4 × Fin 16) :=
  match windowRegOfName text with
  | some (w, i) => some (w.code.toFin, i)
  | none => (cellOfName text).map fun i => (0, i)

/-! ### Text -/

/-- The text with its leading spaces dropped. -/
def skipSpaces : List Char → List Char
  | [] => []
  | c :: cs => if c = ' ' then skipSpaces cs else c :: cs

/-- The text with its spaces at both ends dropped. -/
def trimSpaces (text : List Char) : List Char := (skipSpaces (skipSpaces text).reverse).reverse

/-- The characters up to the first that satisfies `p`, and the rest from it on. -/
def breakAt (p : Char → Bool) : List Char → List Char × List Char
  | [] => ([], [])
  | c :: cs => if p c then ([], c :: cs) else ((c :: (breakAt p cs).1), (breakAt p cs).2)

/-- The characters that open and close a list (R65), left curly bracket and right curly bracket. -/
def listOpen : Char := Char.ofNat 0x7B
def listClose : Char := Char.ofNat 0x7D

/-- The operands of a line: the text cut at its commas, those inside a list left alone. -/
def splitOperands (inList : Bool) : List Char → List (List Char)
  | [] => [[]]
  | c :: cs =>
    if c = ',' ∧ inList = false then [] :: splitOperands inList cs
    else
      let depth := if c = listOpen then true else if c = listClose then false else inList
      match splitOperands depth cs with
      | [] => [[c]]
      | p :: ps => (c :: p) :: ps

/-- The value of a hexadecimal digit. -/
def hexValue (c : Char) : Option Nat :=
  match digitValue c with
  | some d => some d
  | none =>
    if 'A'.toNat ≤ c.toNat ∧ c.toNat ≤ 'F'.toNat then some (c.toNat - 'A'.toNat + 10)
    else if 'a'.toNat ≤ c.toNat ∧ c.toNat ≤ 'f'.toNat then some (c.toNat - 'a'.toNat + 10)
    else none

/-- The digits of a number in base `b`, read onto `acc`; none where a character is no digit. -/
def parseDigits (b : Nat) (value : Char → Option Nat) (acc : Nat) : List Char → Option Nat
  | [] => some acc
  | c :: cs =>
    match value c with
    | some d => parseDigits b value (b * acc + d) cs
    | none => none

/-- A number (R65): decimal, or hexadecimal after `0x`. -/
def parseNumber (text : List Char) : Option Nat :=
  match text with
  | [] => none
  | ['0', 'x'] => none
  | '0' :: 'x' :: cs => parseDigits 16 hexValue 0 cs
  | c :: cs => parseDigits 10 digitValue 0 (c :: cs)

/-- A number that fits below `bound`. -/
def parseBelow (bound : Nat) (text : List Char) : Option (Fin bound) :=
  (parseNumber text).bind fun n => if h : n < bound then some ⟨n, h⟩ else none

/-- A value of w bits (30_encoding.md R59, R62). -/
def parseValue (w : Nat) (text : List Char) : Option (BitVec w) :=
  (parseNumber text).bind fun n => if n < 2 ^ w then some (BitVec.ofNat w n) else none

/-- A list of values of w bits, each one all of its piece of the text. -/
def parseValues (w : Nat) : List (List Char) → Option (List (BitVec w))
  | [] => some []
  | t :: ts => (parseValue w (trimSpaces t)).bind fun v => (parseValues w ts).map fun vs => v :: vs

/-- A list in curly brackets (R65), the lowest element first; it may be empty. -/
def parseList (w : Nat) (text : List Char) : Option (List (BitVec w)) :=
  match text with
  | [] => none
  | c :: cs =>
    if c = listOpen then
      let r := breakAt (fun d => decide (d = listClose)) cs
      if r.2 = [listClose] then
        if trimSpaces r.1 = [] then some [] else parseValues w (splitOperands false r.1)
      else none
    else none

/-! ### Lines (R65) -/

/-- What assembling a line gives: a request, the host encoder's SELECTOR_PARSE (R64), or no line of R65. -/
inductive AsmResult
  | request (r : Request)
  | selectorParse
  | badLine
deriving DecidableEq, Repr

/-- A request that carries no payload, or an address, or data. -/
def asmRequest (i : Option Instr) (addr : Option Addr) (wdata : List Elem) : AsmResult :=
  match i with
  | some i => .request ⟨encode i, addr, wdata⟩
  | none => .badLine

/-- A selector command: the string goes to the host's encoder (R64). -/
def asmSelector (c : SelectorCall) : AsmResult :=
  match encodeSelectorCall c with
  | some r => .request r
  | none => .selectorParse

/-- Assemble the commands of the Vector Register Bank that take no width. -/
def asmPlainVector (mnemonic : String) (ops : List (List Char)) : AsmResult :=
  match mnemonic, ops with
  | "VSETBIT", [reg, pos, val] =>
    asmRequest ((windowRegOfName reg).bind fun r => (parseBelow 512 pos).bind fun p =>
      (parseBelow 2 val).map fun v => .vsetbit r.1 r.2 p (decide (v.val = 1))) none []
  | "VGETBIT", [reg, pos] =>
    asmRequest ((windowRegOfName reg).bind fun r => (parseBelow 512 pos).map fun p => .vgetbit r.1 r.2 p) none []
  | "VCLEAR", [reg] => asmRequest ((cellOfName reg).map .vclear) none []
  | _, _ => .badLine

/-- Assemble the general-purpose, Flags and Instruction-Pointer commands. -/
def asmScalar (mnemonic : String) (ops : List (List Char)) : AsmResult :=
  match mnemonic, ops with
  | "GPRSET", [name, value] =>
    match parseValue 64 value with
    | some v => asmRequest ((gprOfName name).map fun p => .gprset p.1 p.2) none [⟨64, v⟩]
    | none => .badLine
  | "GPRGET", [name] => asmRequest ((gprOfName name).map fun p => .gprget p.1 p.2) none []
  | "FLSET", [name, value] =>
    match parseValue 64 value with
    | some v => asmRequest ((flagsOfName name).map .flset) none [⟨64, v⟩]
    | none => .badLine
  | "FLGET", [name] => asmRequest ((flagsOfName name).map .flget) none []
  | "IPSET", [name, value] =>
    match parseValue 64 value with
    | some v => asmRequest ((ipOfName name).map .ipset) none [⟨64, v⟩]
    | none => .badLine
  | "IPGET", [name] => asmRequest ((ipOfName name).map .ipget) none []
  | _, _ => .badLine

/-- Assemble the byte memory commands. -/
def asmByteMemory (mnemonic : String) (ops : List (List Char)) : AsmResult :=
  match mnemonic, ops with
  | "MRDB", [addr] =>
    match parseValue AW addr with
    | some a => asmRequest (some .mrdb) (some a) []
    | none => .badLine
  | "MWRB", [addr, byte] =>
    match parseValue AW addr, parseValue 8 byte with
    | some a, some b => asmRequest (some .mwrb) (some a) [⟨8, b⟩]
    | _, _ => .badLine
  | _, _ => .badLine

/-- Assemble the commands that take a type name after a dot. -/
def asmTyped (mnemonic : String) (wc : Width) (ops : List (List Char)) : AsmResult :=
  match mnemonic, ops with
  | "VGETSEC", [reg] => asmRequest ((windowRegOfName reg).map fun r => .vgetsec r.1 r.2 wc) none []
  | "VSETSEC", [reg, list] =>
    match parseList wc.bits list with
    | some vs =>
      if h : vs.length < 65536 then
        asmRequest ((windowRegOfName reg).map fun r => .vsetsec r.1 r.2 wc ⟨vs.length, h⟩) none
          (vs.map fun v => ⟨wc.bits, v⟩)
      else .badLine
    | none => .badLine
  | "VGETSEL", [reg, selector] =>
    match vregOfName reg with
    | some r => asmSelector (.get r.1 r.2 wc selector)
    | none => .badLine
  | "VSETSEL", [reg, selector, value] =>
    match vregOfName reg, parseValue wc.bits value with
    | some r, some v => asmSelector (.set r.1 r.2 wc selector ⟨wc.bits, v⟩)
    | _, _ => .badLine
  | "MRD", [addr] =>
    match parseValue AW addr with
    | some a => asmRequest (some (.mrd wc)) (some a) []
    | none => .badLine
  | "MWR", [addr, value] =>
    match parseValue AW addr, parseValue wc.bits value with
    | some a, some v => asmRequest (some (.mwr wc)) (some a) [⟨wc.bits, v⟩]
    | _, _ => .badLine
  | "MRDV", [addr, count] =>
    match parseValue AW addr with
    | some a => asmRequest ((parseBelow 65536 count).map fun n => .mrdv wc n) (some a) []
    | none => .badLine
  | "MWRV", [addr, list] =>
    match parseValue AW addr, parseList wc.bits list with
    | some a, some vs =>
      if h : vs.length < 65536 then
        asmRequest (some (.mwrv wc ⟨vs.length, h⟩)) (some a) (vs.map fun v => ⟨wc.bits, v⟩)
      else .badLine
    | _, _ => .badLine
  | _, _ => .badLine

/-- Assemble one line (R65, R67): the command written, and no other. -/
def assemble (line : List Char) : AsmResult :=
  let head := breakAt (fun c => decide (c = ' ')) (trimSpaces line)
  let name := breakAt (fun c => decide (c = '.')) head.1
  let ops := (splitOperands false head.2).map trimSpaces
  match name.2 with
  | [] =>
    match asmPlainVector (String.ofList name.1) ops, asmScalar (String.ofList name.1) ops with
    | .badLine, .badLine => asmByteMemory (String.ofList name.1) ops
    | .badLine, r => r
    | r, _ => r
  | _ :: typeName =>
    match widthOfName typeName with
    | some wc => asmTyped (String.ofList name.1) wc ops
    | none => .badLine

end Sys2Proof.Machine
end

