-- ==== Sys2Proof/Safety.lean ====
section
/-! DEFINITION. What claims about the block are stated in: a faulted and a final state (60_exceptions.md R114,
70_reset_and_hazards.md R125), the invariant of the state (10_state.md R21, R23), the inspection view (10_state.md R25)
and the segment store with its data bytes, written as 20_memory.md R36 to R38 write it. -/

namespace Sys2Proof.Machine

/-! ### Runs (60_exceptions.md R114, 70_reset_and_hazards.md R125) -/

/-- After a FATAL response the state is faulted. -/
def State.faulted (s : State) : Prop := s.halted = true

/-- A run has ended without a fault: every move answered, and no fault. A faulted state is never final. -/
def State.final (s : State) : Prop := s.inputs = [] ∧ s.halted = false

/-- A run of `k` steps (70_reset_and_hazards.md R125). -/
def run : Nat → State → Outcome
  | 0, s => .next s
  | k + 1, s =>
    match step s with
    | .next t => run k t
    | .fault r => .fault r
    | .refused r => .refused r

/-- The state with the requests `rs` as the host's moves to come. -/
def State.issue (s : State) (rs : List Request) : State := { s with inputs := rs.map .request }

/-- The state with `moves` as the host's moves to come. -/
def State.withInputs (s : State) (moves : List HostMove) : State := { s with inputs := moves }

/-! ### The invariant -/

/-- The invariants 1 to 4 of 10_state.md R21 on the shape of `S`: starts and lengths are whole chunks, no segment is
empty, and each ends strictly before the next one starts. -/
def segmentsWf : List Segment → Prop
  | [] => True
  | [g] => g.start % CHUNK = 0 ∧ g.len % CHUNK = 0 ∧ 0 < g.len
  | g :: h :: segs =>
    (g.start % CHUNK = 0 ∧ g.len % CHUNK = 0 ∧ 0 < g.len) ∧ g.stop < h.start ∧ segmentsWf (h :: segs)

/-- HALTED and FAULT_CAUSE agree (10_state.md R23): a cause of 60_exceptions.md R103 while halted, else NONE. -/
def State.faultWf (s : State) : Prop :=
  if s.halted then ∃ c : Cause, s.faultCause = c.code else s.faultCause = 0

/-- What every reachable state satisfies. -/
structure State.Inv (s : State) : Prop where
  /-- the byte map is in its canonical form -/
  memWf : Memory.wf s.mem = true
  /-- the segments are aligned, whole, sorted, disjoint and coalesced (10_state.md R21) -/
  segsWf : segmentsWf s.segs
  /-- a byte that is not zero lies in a segment (20_memory.md R36) -/
  cellsMapped : ∀ t, s.readByteT t ≠ 0 → isMapped s.segs t = true
  /-- bytes lie at the translated addresses of the space (10_state.md R21) -/
  cellsInSpace : ∀ t, s.readByteT t ≠ 0 → t + s.base.toNat ≤ 2 ^ AW - 1
  /-- the status registers agree (10_state.md R23) -/
  faultAgrees : s.faultWf

/-- The store holds no more chunks than MAX_CHUNKS allows (20_memory.md R39). -/
def State.withinCapacity (s : State) : Prop :=
  match s.params.maxChunks with
  | none => True
  | some m => allocated s.segs ≤ m

/-! ### The inspection view and the store of 20_memory.md R36 to R38 -/

/-- A segment of `S` with its data (10_state.md R21). -/
structure DataSegment where
  start : Nat
  data : List Byte
deriving DecidableEq, Repr

/-- The inspection view of `S` (10_state.md R25): read-only, for tests, no command. -/
def State.inspect (s : State) : List DataSegment :=
  s.segs.map fun g => ⟨g.start, (List.range g.len).map fun k => s.readByteT (g.start + k)⟩

/-- `s.start <= t < end(s)` (20_memory.md R36). -/
def DataSegment.covers (g : DataSegment) (t : Nat) : Bool :=
  decide (g.start ≤ t) && decide (t < g.start + g.data.length)

/-- `ReadByteT(t)` on a list of data segments, as R36 writes it. -/
def storeRead (segs : List DataSegment) (t : Nat) : Byte :=
  match segs.find? fun g => g.covers t with
  | some g => g.data.getD (t - g.start) 0
  | none => 0

/-- R37: insert keeping the list sorted by start. -/
def storeInsert (new : DataSegment) : List DataSegment → List DataSegment
  | [] => [new]
  | g :: segs => if new.start ≤ g.start then new :: g :: segs else g :: storeInsert new segs

/-- R38: the pass from the segment `cur` on; a merge appends the next segment's bytes. -/
def storeCoalesceFrom (cur : DataSegment) : List DataSegment → List DataSegment
  | [] => [cur]
  | next :: segs =>
    if cur.start + cur.data.length = next.start then storeCoalesceFrom ⟨cur.start, cur.data ++ next.data⟩ segs
    else cur :: storeCoalesceFrom next segs

/-- `Coalesce(S)` (R38). -/
def storeCoalesce : List DataSegment → List DataSegment
  | [] => []
  | g :: segs => storeCoalesceFrom g segs

/-- `WriteByteT(t, b)` on a list of data segments, as R37 writes it: mutate in place, or allocate a zero-filled chunk,
set its byte, insert it and coalesce. -/
def storeWrite (segs : List DataSegment) (t : Nat) (b : Byte) : List DataSegment :=
  if segs.any fun g => g.covers t then
    segs.map fun g => if g.covers t then ⟨g.start, g.data.set (t - g.start) b⟩ else g
  else
    storeCoalesce
      (storeInsert ⟨chunkStart t, (List.replicate CHUNK (0 : Byte)).set (t % CHUNK) b⟩ segs)

/-! ### What a command may change -/

/-- The request at the port carries this address and this data (30_encoding.md R48, R62). -/
def State.presents (s : State) (addr : Option Addr) (wdata : List Elem) : Prop :=
  s.port.addr = addr ∧ s.port.wdata = wdata

/-- `w` values as elements of write or read data. -/
def elems {w : Nat} (vs : List (BitVec w)) : List Elem := vs.map fun v => ⟨w, v⟩

/-- The one response to the request at the port (30_encoding.md R48): the request leaves the port, the response is the
newest of the run. -/
def Answered (s t : State) (status : Status) (reason : Reason) (rdata : List Elem) : Prop :=
  t.inputs = s.inputs.tail ∧ t.responses = s.responses ++ [⟨status, reason, rdata⟩]

/-- The general-purpose cells are unchanged. -/
def SameGpr (s t : State) : Prop := ∀ j, t.gprCell j = s.gprCell j

/-- The vector cells are unchanged. -/
def SameVec (s t : State) : Prop := ∀ j, t.vecCell j = s.vecCell j

/-- Every byte reads as before and the segment list is unchanged. -/
def SameMemory (s t : State) : Prop := (∀ a, t.readByteT a = s.readByteT a) ∧ t.segs = s.segs

/-- HALTED and FAULT_CAUSE are unchanged. -/
def SameFault (s t : State) : Prop := t.halted = s.halted ∧ t.faultCause = s.faultCause

/-- BASE, the parameters and the model's reset counter are unchanged. -/
def SameConfig (s t : State) : Prop := t.base = s.base ∧ t.params = s.params ∧ t.resets = s.resets

/-- Everything the spec gives the block is the same: registers, bytes, segments, status, BASE and parameters; the command
port and the model's counter may differ. -/
def SameBlock (s t : State) : Prop :=
  SameVec s t ∧ SameGpr s t ∧ t.fl = s.fl ∧ t.ip = s.ip ∧ t.mem = s.mem ∧ t.segs = s.segs ∧ SameFault s t
    ∧ t.base = s.base ∧ t.params = s.params

/-- The state after `s` takes the fault `cause` and nothing else (60_exceptions.md R104), field by field. -/
def State.faultedBy (s : State) (cause : Cause) : State :=
  { s with
    halted := true
    faultCause := cause.code
    inputs := s.inputs.tail
    responses := s.responses ++ [⟨.fatal, cause.reason, []⟩] }

/-- The state after `s` answers its request and changes nothing else. -/
def State.onlyAnswers (s : State) (status : Status) (reason : Reason) (rdata : List Elem) : State :=
  { s with inputs := s.inputs.tail, responses := s.responses ++ [⟨status, reason, rdata⟩] }

/-- The vector cell a command names (40_vector.md R69). -/
def vecIndex : Instr → Option (Fin 16)
  | .vsetbit _ idx _ _ => some idx
  | .vgetbit _ idx _ => some idx
  | .vgetsec _ idx _ => some idx
  | .vsetsec _ idx _ _ => some idx
  | .vgetsel _ idx _ _ _ => some idx
  | .vsetsel _ idx _ _ _ => some idx
  | .vclear idx => some idx
  | _ => none

/-- The failures of 60_exceptions.md R102 that a command of the block may meet, condition by condition. -/
def failReason (p : Params) : Instr → Option Reason
  | .vsetbit win _ pos _ => if pos.val ≥ win.bits then some .bitposOutOfWindow else none
  | .vgetbit win _ pos => if pos.val ≥ win.bits then some .bitposOutOfWindow else none
  | .vsetsec win _ wc count => if count.val * wc.bits ≠ win.bits then some .sectionCountMismatch else none
  | .vgetsel _ _ _ a b => if a.val < b.val ∧ p.selectorOrder = .reject then some .selectorReversed else none
  | .vsetsel _ _ _ a b => if a.val < b.val ∧ p.selectorOrder = .reject then some .selectorReversed else none
  | _ => none

/-- The memory commands that write (42_memory_ops.md). -/
def writesMemory : Instr → Bool
  | .mwrb => true
  | .mwr _ => true
  | .mwrv _ _ => true
  | _ => false

/-- The memory commands (42_memory_ops.md). -/
def isMemoryCommand : Instr → Bool
  | .mrdb => true
  | .mwrb => true
  | .mrd _ => true
  | .mwr _ => true
  | .mrdv _ _ => true
  | .mwrv _ _ => true
  | _ => false

/-- The value of a text of decimal digits (30_encoding.md R64). -/
def decimalValue (ds : List (Fin 10)) : Nat := ds.foldl (fun acc d => 10 * acc + d.val) 0

/-- The characters of decimal digits. -/
def digitChars (ds : List (Fin 10)) : List Char := ds.map fun d => Char.ofNat ('0'.toNat + d.val)

end Sys2Proof.Machine
end

