-- ==== Sys2Proof/Certificates/Slice0/Obligations.lean ====
section
/-! DEFINITION. The statements for the provers. Each docstring names the rules of spec/ it formalises. A state here is
any state, not only a reachable one; where a statement needs the invariant `State.Inv` (or its part `segmentsWf`) it
says so, and the invariant is a statement of its own. -/

open Sys2Proof Sys2Proof.Machine

/-! ### Encoding (30_encoding.md) -/

/-- R50 to R59: no bit of an encoding is dropped. -/
def Obligations.DecodeOfEncodeIsTheCommand : Prop :=
  ∀ i : Instr, i.wellFormed = true → decode (encode i) = some i

/-- R60, R61, R63: a word that decodes is exactly the encoding of its command, every must-be-zero bit included, and
its register name exists. -/
def Obligations.DecodedWordIsTheEncodingOfItsCommand : Prop :=
  ∀ (c : Command) (i : Instr), decode c = some i → i.wellFormed = true ∧ encode i = c

/-- R63 with R60, R61: the decoder reads a command exactly where a row of the opcode table matches and no reserved
value stands; the row is the command's, and no two rows match one word. -/
def Obligations.DecodeFollowsTheOpcodeTable : Prop :=
  ∀ c : Command,
    ((decode c).isSome = true ↔ ∃ row ∈ opcodeTable, row.hits c = true ∧ reservedValue c = false)
    ∧ (∀ i, decode c = some i → ∃ row ∈ opcodeTable, row.mnemonic = i.mnemonic ∧ row.hits c = true)
    ∧ ∀ row ∈ opcodeTable, ∀ row' ∈ opcodeTable, row.hits c = true → row'.hits c = true → row = row'

/-- Words of 95_test_vectors.md (VB3, VS11, VT4, GW-CH, FW-EFLAGS, IR-IP, M21, P3 step 2, DEC8, DEC16): they decode to
the commands they stand for, or to nothing. -/
def Obligations.WordsOfTheSpecDecode : Prop :=
  decode 0x0A21FF00 = some (.vsetbit .ymm 1 255 true)
  ∧ decode 0x226C0004 = some (.vsetsec .ymm 3 .u64 4)
  ∧ decode 0x30A3FFF8 = some (.vsetsel 0 5 .u8 511 504)
  ∧ decode 0x44100000 = some (.gprset .merge8High 1)
  ∧ decode 0x52000000 = some (.flset .v32)
  ∧ decode 0x6C000000 = some (.ipget .v16)
  ∧ decode 0xA8000000 = some (.mwrv .u8 0)
  ∧ decode 0x9A000000 = some (.mwr .u32)
  ∧ decode 0x08040000 = none
  ∧ decode 0x4C400000 = none

/-! ### The command port, faults and runs (60_exceptions.md, 70_reset_and_hazards.md) -/

/-- 60_exceptions.md R100, R101, 10_state.md R23: the codes of the statuses, of the reasons, and of the six causes as
FAULT_CAUSE holds them, each with the reason its response gives. Status 3 is never sent. -/
def Obligations.ResponseCodesAreTheSpecs : Prop :=
  Status.ok.code = 0 ∧ Status.fail.code = 1 ∧ Status.fatal.code = 2 ∧ (∀ status : Status, status.code ≠ 3)
  ∧ Reason.none.code = 0 ∧ Reason.illegalCommand.code = 1 ∧ Reason.malformedPayload.code = 2
  ∧ Reason.selectorTooNarrow.code = 3 ∧ Reason.addrBelowBase.code = 4 ∧ Reason.addrOverflow.code = 5
  ∧ Reason.outOfChunks.code = 6 ∧ Reason.halted.code = 7 ∧ Reason.bitposOutOfWindow.code = 16
  ∧ Reason.sectionCountMismatch.code = 17 ∧ Reason.selectorReversed.code = 18 ∧ Reason.selectorParse.code = 19
  ∧ Cause.illegalCommand.code = 1 ∧ Cause.malformedPayload.code = 2 ∧ Cause.selectorTooNarrow.code = 3
  ∧ Cause.addrBelowBase.code = 4 ∧ Cause.addrOverflow.code = 5 ∧ Cause.outOfChunks.code = 6
  ∧ Cause.illegalCommand.reason = .illegalCommand ∧ Cause.malformedPayload.reason = .malformedPayload
  ∧ Cause.selectorTooNarrow.reason = .selectorTooNarrow ∧ Cause.addrBelowBase.reason = .addrBelowBase
  ∧ Cause.addrOverflow.reason = .addrOverflow ∧ Cause.outOfChunks.reason = .outOfChunks

/-- R106: on a running block, a step with a request at the port whose word decodes is the command's meaning at that
very state; the meaning itself takes the request from the port and answers it. -/
def Obligations.StepRunsTheDecodedCommand : Prop :=
  ∀ (s : State) (r : Request) (later : List HostMove) (i : Instr),
    s.inputs = .request r :: later → s.halted = false → decode r.cmd = some i → step s = exec i s

/-- R60, R61, R103, R104: a word that decodes to no command halts a running block with ILLEGAL_COMMAND, whatever its
payload, and changes nothing else. -/
def Obligations.IllegalWordHaltsTheBlock : Prop :=
  ∀ (s : State) (r : Request) (later : List HostMove),
    s.inputs = .request r :: later → s.halted = false → decode r.cmd = none →
    step s = .next (s.faultedBy .illegalCommand)

/-- 30_encoding.md R62: a payload that does not have the shape of its command's row halts the block with
MALFORMED_PAYLOAD, for every command, and nothing else happens. -/
def Obligations.MalformedPayloadIsFatal : Prop :=
  ∀ (i : Instr) (s : State), payloadMatches i s.port = false → exec i s = .next (s.faultedBy .malformedPayload)

/-- R105: while HALTED = 1 every request, legal or not, gets FATAL HALTED with the cause in one 8-bit element, and
nothing changes. -/
def Obligations.HaltedBlockAnswersItsCause : Prop :=
  ∀ (s : State) (r : Request) (later : List HostMove),
    s.inputs = .request r :: later → s.halted = true →
    step s = .next (s.onlyAnswers .fatal .halted [⟨8, s.faultCause⟩])

/-- R104: where a command answers FATAL, HALTED is set and FAULT_CAUSE is the reason of the response; no register
changes, and no byte or segment either but for MWRV. -/
def Obligations.FatalCommandRecordsItsCauseOnly : Prop :=
  ∀ (i : Instr) (s t : State) (reason : Reason) (rdata : List Elem),
    exec i s = .next t → t.responses = s.responses ++ [⟨.fatal, reason, rdata⟩] →
    t.halted = true ∧ t.faultCause = reason.code ∧ rdata = [] ∧ (∃ cause : Cause, reason = cause.reason)
    ∧ SameVec s t ∧ SameGpr s t ∧ t.fl = s.fl ∧ t.ip = s.ip ∧ SameConfig s t
    ∧ ((∀ wc count, i ≠ .mwrv wc count) → SameMemory s t)

/-- R102: with a well-shaped payload a command answers FAIL exactly on the conditions of the table, with its reason, and
then nothing but the port changes; the host's encoder answers SELECTOR_PARSE for a string that does not parse. That it
does so for a halted block too (log entry 12) and that its answer stands in the list of responses (log entry 4) are the
model's own. -/
def Obligations.FailHasItsConditionAndChangesNothing : Prop :=
  (∀ (i : Instr) (s : State), payloadMatches i s.port = true →
    (∀ reason, failReason s.params i = some reason → exec i s = .next (s.onlyAnswers .fail reason []))
    ∧ (failReason s.params i = none →
        ∀ t, exec i s = .next t → ∀ reason rdata, t.responses ≠ s.responses ++ [⟨.fail, reason, rdata⟩]))
  ∧ ∀ (s : State) (c : SelectorCall) (later : List HostMove),
      s.inputs = .selector c :: later → encodeSelectorCall c = none →
      step s = .next (s.onlyAnswers .fail .selectorParse [])

/-- 30_encoding.md R48, 70_reset_and_hazards.md R122: every request is answered, by exactly one response, and leaves the
port; the reason is NONE exactly where the status is OK. -/
def Obligations.EveryRequestGetsOneResponse : Prop :=
  ∀ (s : State) (r : Request) (later : List HostMove), s.inputs = .request r :: later →
    ∃ t resp, step s = .next t ∧ t.inputs = later ∧ t.responses = s.responses ++ [resp]
      ∧ (resp.status = .ok ↔ resp.reason = .none) ∧ (resp.status = .fail → resp.rdata = [])

/-- 60_exceptions.md R108, R114: only a reset takes a halted block out of its fault; every other move leaves HALTED
and FAULT_CAUSE as they are, and changes no register, byte or segment. -/
def Obligations.OnlyResetLeavesTheFault : Prop :=
  ∀ s : State, s.halted = true → (∀ base abandoned later, s.inputs ≠ .reset base abandoned :: later) →
    ∃ t, step s = .next t ∧ SameFault s t ∧ SameVec s t ∧ SameGpr s t ∧ t.fl = s.fl ∧ t.ip = s.ip
      ∧ SameMemory s t ∧ SameConfig s t

/-- 10_state.md R27, R28: after a reset, also of a halted block, memory holds no segment and every byte reads 0, HALTED
and FAULT_CAUSE are 0. -/
def Obligations.ResetEmptiesMemoryAndClearsTheFault : Prop :=
  ∀ (s : State) (base : Addr) (abandoned : Option Request) (later : List HostMove),
    s.inputs = .reset base abandoned :: later →
    ∃ t, step s = .next t ∧ t.segs = [] ∧ (∀ a, t.readByteT a = 0) ∧ t.halted = false ∧ t.faultCause = 0

/-- 10_state.md R26, R29, 70_reset_and_hazards.md R115: a reset samples BASE from its input and keeps the parameters; the
cells are 0 under `Zero`, and under `Arbitrary` the draws of this reset (the MODEL's form of the spec's draw, log
entry 1); a request in progress gets no response (log entry 4: a new run begins, its response list is empty). -/
def Obligations.ResetSamplesBaseAndDrawsTheCells : Prop :=
  ∀ (s : State) (base : Addr) (abandoned : Option Request) (later : List HostMove),
    s.inputs = .reset base abandoned :: later →
    ∃ t, step s = .next t ∧ t.base = base ∧ t.params = s.params ∧ t.inputs = later ∧ t.responses = []
      ∧ (s.params.regReset = .zero →
          (∀ i, t.vecCell i = 0) ∧ (∀ i, t.gprCell i = 0) ∧ t.fl = 0 ∧ t.ip = 0)
      ∧ (s.params.regReset = .arbitrary →
          (∀ i, t.vecCell i = Config.vecDraw s.resets i) ∧ (∀ i, t.gprCell i = Config.gprDraw s.resets i)
          ∧ t.fl = Config.flDraw s.resets ∧ t.ip = Config.ipDraw s.resets)
      ∧ t.resets = s.resets + 1

/-- 10_state.md R22, R23, R29, 70_reset_and_hazards.md R124: no move but a reset changes BASE or a parameter. -/
def Obligations.NoCommandChangesTheConfiguration : Prop :=
  ∀ s t : State, step s = .next t → (∀ base abandoned later, s.inputs ≠ .reset base abandoned :: later) →
    SameConfig s t

/-- 60_exceptions.md R113: with no move of the host to come the block is idle and keeps all its state. -/
def Obligations.IdleBlockKeepsItsState : Prop :=
  ∀ s : State, s.inputs = [] → step s = .next s

/-- 70_reset_and_hazards.md R123, R125: a run over a finite list of requests, from any state, ends with every request
answered once and in order: after k steps the first k requests have left the port and the first k answers are given, and after as
many steps as there are requests nothing is left to come; it ends with a fault exactly when one of its responses was
FATAL, if it began without one. -/
def Obligations.RunAnswersEveryRequest : Prop :=
  ∀ (rs : List Request) (s : State),
    ∃ t answers, run rs.length (s.issue rs) = .next t ∧ t.inputs = []
      ∧ t.responses = s.responses ++ answers ∧ answers.length = rs.length
      ∧ (∀ k, k ≤ rs.length → ∃ u, run k (s.issue rs) = .next u ∧ u.inputs = (rs.drop k).map .request
          ∧ u.responses = s.responses ++ answers.take k)
      ∧ (s.halted = false → (t.faulted ↔ ∃ a ∈ answers, a.status = .fatal))

/-! ### The invariant -/

/-- 10_state.md R26 to R29: the state right after the first reset. Memory is empty and reads 0, the block runs without a
fault, BASE and MAX_CHUNKS are the open values of Config (log entry 2), the parameters are those the spec takes, and each
register holds its draw (log entry 1: the MODEL's form of the draw; nothing constrains its value). -/
def Obligations.ResetStateIsTheSpecs : Prop :=
  State.reset.segs = [] ∧ (∀ a, State.reset.readByteT a = 0) ∧ State.reset.halted = false
  ∧ State.reset.faultCause = 0 ∧ State.reset.base = Config.base
  ∧ State.reset.params = ⟨Config.maxChunks, .uniform, .swap, .arbitrary⟩
  ∧ (∀ i, State.reset.vecCell i = Config.vecDraw 0 i) ∧ (∀ i, State.reset.gprCell i = Config.gprDraw 0 i)
  ∧ State.reset.fl = Config.flDraw 0 ∧ State.reset.ip = Config.ipDraw 0

/-- 10_state.md R26 to R28: the reset state meets the invariant, whatever the configuration and the draws. -/
def Obligations.ResetStateMeetsTheInvariant : Prop :=
  State.reset.Inv ∧ State.reset.withinCapacity
  ∧ ∀ (p : Params) (base : Addr) (k : Nat), (State.resetWith p base k).Inv ∧ (State.resetWith p base k).withinCapacity

/-- 10_state.md R21, R23, 20_memory.md R36: every step, of whatever move of the host, keeps the invariant: the byte map
canonical, the segments aligned, whole, sorted, disjoint and coalesced, the bytes that are not zero inside segments and
inside the address space, HALTED and FAULT_CAUSE in agreement. -/
def Obligations.EveryStepKeepsTheStateWellFormed : Prop :=
  ∀ s t : State, s.Inv → step s = .next t → t.Inv

/-- 20_memory.md R39: no step takes the store past MAX_CHUNKS. -/
def Obligations.EveryStepStaysWithinMaxChunks : Prop :=
  ∀ s t : State, s.Inv → s.withinCapacity → step s = .next t → t.withinCapacity

/-! ### Vector Register Bank (40_vector.md) -/

/-- R70: VSETBIT inside the window sets the one bit and nothing else; outside it, `pos = W` included, it fails. -/
def Obligations.VsetbitWritesOneBitOfTheWindow : Prop :=
  ∀ (win : Window) (idx : Fin 16) (pos : Fin 512) (val : Bool) (s : State), s.presents none [] →
    (pos.val < win.bits → ∃ t, exec (.vsetbit win idx pos val) s = .next t ∧ Answered s t .ok .none []
      ∧ (∀ k, k < 512 → (t.vecCell idx).getLsbD k = if k = pos.val then val else (s.vecCell idx).getLsbD k)
      ∧ (∀ j, j ≠ idx → t.vecCell j = s.vecCell j)
      ∧ SameGpr s t ∧ t.fl = s.fl ∧ t.ip = s.ip ∧ SameMemory s t ∧ SameFault s t ∧ SameConfig s t)
    ∧ (win.bits ≤ pos.val →
      exec (.vsetbit win idx pos val) s = .next (s.onlyAnswers .fail .bitposOutOfWindow []))

/-- R71: VGETBIT inside the window gives the bit in one 1-bit element; outside it fails. No state is written. -/
def Obligations.VgetbitReadsTheBit : Prop :=
  ∀ (win : Window) (idx : Fin 16) (pos : Fin 512) (s : State), s.presents none [] →
    (pos.val < win.bits → exec (.vgetbit win idx pos) s =
      .next (s.onlyAnswers .ok .none [⟨1, BitVec.ofBool ((s.vecCell idx).getLsbD pos.val)⟩]))
    ∧ (win.bits ≤ pos.val →
      exec (.vgetbit win idx pos) s = .next (s.onlyAnswers .fail .bitposOutOfWindow []))

/-- R72: VGETSEC gives `floor(W / w)` sections of w bits, bit j of section k being cell bit `k*w + j`. -/
def Obligations.VgetsecReadsTheSections : Prop :=
  ∀ (win : Window) (idx : Fin 16) (wc : Width) (s : State), s.presents none [] →
    ∃ xs : List (BitVec wc.bits), exec (.vgetsec win idx wc) s = .next (s.onlyAnswers .ok .none (elems xs))
      ∧ xs.length = win.bits / wc.bits
      ∧ ∀ k x, xs[k]? = some x → ∀ j, j < wc.bits → x.getLsbD j = (s.vecCell idx).getLsbD (k * wc.bits + j)

/-- R73: VSETSEC with `count * w = W` makes bit `k*w + j` of the cell bit j of section k and every bit from W up 0;
with any other count it fails and nothing changes. -/
def Obligations.VsetsecWritesTheSectionsAndClearsAbove : Prop :=
  ∀ (win : Window) (idx : Fin 16) (wc : Width) (count : Fin 65536) (xs : List (BitVec wc.bits)) (s : State),
    s.presents none (elems xs) → xs.length = count.val →
    (count.val * wc.bits = win.bits → ∃ t, exec (.vsetsec win idx wc count) s = .next t ∧ Answered s t .ok .none []
      ∧ (∀ k x, xs[k]? = some x → ∀ j, j < wc.bits → (t.vecCell idx).getLsbD (k * wc.bits + j) = x.getLsbD j)
      ∧ (∀ b, win.bits ≤ b → (t.vecCell idx).getLsbD b = false)
      ∧ (∀ j, j ≠ idx → t.vecCell j = s.vecCell j)
      ∧ SameGpr s t ∧ t.fl = s.fl ∧ t.ip = s.ip ∧ SameMemory s t ∧ SameFault s t ∧ SameConfig s t)
    ∧ (count.val * wc.bits ≠ win.bits →
      exec (.vsetsec win idx wc count) s = .next (s.onlyAnswers .fail .sectionCountMismatch []))

/-- R74, R75: VGETSEL gives the bits of the range, zero-extended to w bits; a type narrower than the range halts the
block; a reversed selector under `Reject` fails, before the width is looked at. The window field plays no part. -/
def Obligations.VgetselReadsTheRange : Prop :=
  ∀ (win : Fin 4) (idx : Fin 16) (wc : Width) (a b : Fin 512) (s : State), s.presents none [] →
    (b.val ≤ a.val ∨ s.params.selectorOrder = .swap →
      (max a.val b.val - min a.val b.val + 1 ≤ wc.bits → ∃ v : BitVec wc.bits,
        exec (.vgetsel win idx wc a b) s = .next (s.onlyAnswers .ok .none [⟨wc.bits, v⟩])
        ∧ ∀ k, k < wc.bits → v.getLsbD k =
            (decide (k ≤ max a.val b.val - min a.val b.val) && (s.vecCell idx).getLsbD (min a.val b.val + k)))
      ∧ (wc.bits < max a.val b.val - min a.val b.val + 1 →
        exec (.vgetsel win idx wc a b) s = .next (s.faultedBy .selectorTooNarrow)))
    ∧ (a.val < b.val → s.params.selectorOrder = .reject →
      exec (.vgetsel win idx wc a b) s = .next (s.onlyAnswers .fail .selectorReversed []))

/-- R74, R76: VSETSEL writes the low bits of the value into the range, bits of the range past the value's width
become 0, every other bit of the cell is unchanged; a reversed selector under `Reject` fails. -/
def Obligations.VsetselWritesTheRange : Prop :=
  ∀ (win : Fin 4) (idx : Fin 16) (wc : Width) (a b : Fin 512) (v : BitVec wc.bits) (s : State),
    s.presents none [⟨wc.bits, v⟩] →
    (b.val ≤ a.val ∨ s.params.selectorOrder = .swap → ∃ t,
      exec (.vsetsel win idx wc a b) s = .next t ∧ Answered s t .ok .none []
      ∧ (∀ k, k < 512 → (t.vecCell idx).getLsbD k =
          if min a.val b.val ≤ k ∧ k ≤ max a.val b.val then
            (decide (k - min a.val b.val < wc.bits) && v.getLsbD (k - min a.val b.val))
          else (s.vecCell idx).getLsbD k)
      ∧ (∀ j, j ≠ idx → t.vecCell j = s.vecCell j)
      ∧ SameGpr s t ∧ t.fl = s.fl ∧ t.ip = s.ip ∧ SameMemory s t ∧ SameFault s t ∧ SameConfig s t)
    ∧ (a.val < b.val → s.params.selectorOrder = .reject →
      exec (.vsetsel win idx wc a b) s = .next (s.onlyAnswers .fail .selectorReversed []))

/-- R77: VCLEAR makes all 512 bits of its cell 0 and changes nothing else. -/
def Obligations.VclearZeroesItsCell : Prop :=
  ∀ (idx : Fin 16) (s : State), s.presents none [] →
    ∃ t, exec (.vclear idx) s = .next t ∧ Answered s t .ok .none [] ∧ t.vecCell idx = 0
      ∧ (∀ j, j ≠ idx → t.vecCell j = s.vecCell j)
      ∧ SameGpr s t ∧ t.fl = s.fl ∧ t.ip = s.ip ∧ SameMemory s t ∧ SameFault s t ∧ SameConfig s t

/-- 10_state.md R13: no command that names cell i reads or writes another cell. Two states that agree on the request,
the parameters and cell i give the same response and the same cell i; and every other cell is as before, whatever the
response. -/
def Obligations.VectorCellsAreIndependent : Prop :=
  ∀ (i : Instr) (idx : Fin 16) (s s' t t' : State), vecIndex i = some idx →
    s.port = s'.port → s.params = s'.params → s.vecCell idx = s'.vecCell idx →
    exec i s = .next t → exec i s' = .next t' →
    t.vecCell idx = t'.vecCell idx
    ∧ (∃ resp, t.responses = s.responses ++ [resp] ∧ t'.responses = s'.responses ++ [resp])
    ∧ ∀ j, j ≠ idx → t.vecCell j = s.vecCell j

/-- 10_state.md R15, R18, R19, R20, 40_vector.md: whatever its response, a vector command changes no general-purpose
cell, FL, IP or memory; a command that is none changes no vector cell. -/
def Obligations.OnlyVectorCommandsTouchVectorCells : Prop :=
  ∀ (i : Instr) (s t : State), exec i s = .next t →
    ((vecIndex i).isSome = true → SameGpr s t ∧ t.fl = s.fl ∧ t.ip = s.ip ∧ SameMemory s t ∧ SameConfig s t)
    ∧ (vecIndex i = none → SameVec s t)

/-- R78 item 2: sections written through a window read back through it, and the cell is 0 above the window. -/
def Obligations.SectionsRoundTrip : Prop :=
  ∀ (win : Window) (idx : Fin 16) (wc : Width) (count : Fin 65536) (xs : List (BitVec wc.bits)) (s t : State)
    (moves : List HostMove),
    s.presents none (elems xs) → xs.length = count.val → count.val * wc.bits = win.bits →
    exec (.vsetsec win idx wc count) s = .next t → (t.withInputs moves).presents none [] →
    (∀ b, win.bits ≤ b → (t.vecCell idx).getLsbD b = false)
    ∧ ∃ u, exec (.vgetsec win idx wc) (t.withInputs moves) = .next u
      ∧ u.responses = t.responses ++ [⟨.ok, .none, elems xs⟩]
      ∧ ∀ j, u.vecCell j = t.vecCell j

/-- R79 item 2: a value written to a range its type covers reads back through the same selector, zero-extended from the
range. -/
def Obligations.SelectorRoundTrip : Prop :=
  ∀ (win win' : Fin 4) (idx : Fin 16) (wc : Width) (a b : Fin 512) (v : BitVec wc.bits) (s t : State)
    (moves : List HostMove),
    s.presents none [⟨wc.bits, v⟩] → b.val ≤ a.val → a.val - b.val + 1 ≤ wc.bits →
    exec (.vsetsel win idx wc a b) s = .next t → (t.withInputs moves).presents none [] →
    ∃ (u : State) (x : BitVec wc.bits), exec (.vgetsel win' idx wc a b) (t.withInputs moves) = .next u
      ∧ u.responses = t.responses ++ [⟨.ok, .none, [⟨wc.bits, x⟩]⟩]
      ∧ ∀ k, k < wc.bits → x.getLsbD k = (decide (k ≤ a.val - b.val) && v.getLsbD k)

/-- R79 item 3: under `Swap` the selectors `[A:B]` and `[B:A]` are the same command, for reads and writes. -/
def Obligations.SwappedSelectorsAgree : Prop :=
  ∀ (win win' : Fin 4) (idx : Fin 16) (wc : Width) (a b : Fin 512) (s : State), s.params.selectorOrder = .swap →
    exec (.vgetsel win idx wc a b) s = exec (.vgetsel win' idx wc b a) s
    ∧ exec (.vsetsel win idx wc a b) s = exec (.vsetsel win' idx wc b a) s

/-- R78 item 1: a bit read through a window where it is in range reads the same through every wider window. -/
def Obligations.WindowsAliasTheCell : Prop :=
  ∀ (win win' : Window) (idx : Fin 16) (pos : Fin 512) (s : State),
    pos.val < win.bits → win.bits ≤ win'.bits →
    exec (.vgetbit win idx pos) s = exec (.vgetbit win' idx pos) s

/-! ### General-purpose, Flags and Instruction-Pointer cells (41_scalar_regs.md) -/

/-- R80, R81, R82: GPRSET of a register name, under the effective view: Full64 the whole value; Zext32 its low 32 bits, the rest 0; Merge16
and Merge8Low the view's low bits, the rest kept; Merge8High the value's low byte at bits 15:8, the rest kept. Bits of the
value above the view play no part. Nothing else changes. -/
def Obligations.GprsetWritesItsView : Prop :=
  ∀ (view : GprView) (idx : Fin 16) (v : Word) (s : State), isGprName view idx = true → s.presents none [⟨64, v⟩] →
    ∃ t, exec (.gprset view idx) s = .next t ∧ Answered s t .ok .none []
      ∧ (∀ k, k < 64 → (t.gprCell idx).getLsbD k =
          if view = .full64 ∨ (s.params.aliasPolicy = .raxOnly ∧ idx ≠ 0) then v.getLsbD k
          else if view = .zext32 then (decide (k < 32) && v.getLsbD k)
          else if view = .merge16 then (if k < 16 then v.getLsbD k else (s.gprCell idx).getLsbD k)
          else if view = .merge8Low then (if k < 8 then v.getLsbD k else (s.gprCell idx).getLsbD k)
          else (if 8 ≤ k ∧ k < 16 then v.getLsbD (k - 8) else (s.gprCell idx).getLsbD k))
      ∧ (∀ j, j ≠ idx → t.gprCell j = s.gprCell j)
      ∧ SameVec s t ∧ t.fl = s.fl ∧ t.ip = s.ip ∧ SameMemory s t ∧ SameFault s t ∧ SameConfig s t

/-- R80, R81, R83: GPRGET of a register name gives the bits of the effective view, zero-extended to 64; Merge8High gives bits 15:8 in bits
7:0. No state is written. -/
def Obligations.GprgetReadsItsView : Prop :=
  ∀ (view : GprView) (idx : Fin 16) (s : State), isGprName view idx = true → s.presents none [] →
    ∃ v : Word, exec (.gprget view idx) s = .next (s.onlyAnswers .ok .none [⟨64, v⟩])
      ∧ ∀ k, k < 64 → v.getLsbD k =
          if view = .full64 ∨ (s.params.aliasPolicy = .raxOnly ∧ idx ≠ 0) then (s.gprCell idx).getLsbD k
          else if view = .zext32 then (decide (k < 32) && (s.gprCell idx).getLsbD k)
          else if view = .merge16 then (decide (k < 16) && (s.gprCell idx).getLsbD k)
          else if view = .merge8Low then (decide (k < 8) && (s.gprCell idx).getLsbD k)
          else (decide (k < 8) && (s.gprCell idx).getLsbD (8 + k))

/-- R89 item 3, 10_state.md R18: whatever its response, GPRSET changes no other cell, FL, IP, vector cell or memory, and
no other command changes a general-purpose cell. -/
def Obligations.OnlyGprsetTouchesItsCell : Prop :=
  ∀ (i : Instr) (s t : State), exec i s = .next t →
    (∀ view idx, i = .gprset view idx →
      (∀ j, j ≠ idx → t.gprCell j = s.gprCell j) ∧ SameVec s t ∧ t.fl = s.fl ∧ t.ip = s.ip ∧ SameMemory s t
      ∧ SameConfig s t)
    ∧ ((∀ view idx, i ≠ .gprset view idx) → SameGpr s t)

/-- R89 item 4: under every view, the value read back is the value written masked to the view. -/
def Obligations.ViewReadsBackWhatItWrote : Prop :=
  ∀ g v : Word,
    readView .full64 (writeView .full64 g v) = v
    ∧ readView .zext32 (writeView .zext32 g v) = v &&& 0xFFFFFFFF
    ∧ readView .merge16 (writeView .merge16 g v) = v &&& 0xFFFF
    ∧ readView .merge8Low (writeView .merge8Low g v) = v &&& 0xFF
    ∧ readView .merge8High (writeView .merge8High g v) = v &&& 0xFF

/-- R84, R85, R86: FLSET replaces the low 64, 32 or 16 bits of FL and keeps every bit above; FLGET gives them,
zero-extended. Nothing else changes. -/
def Obligations.FlagsCellFollowsItsViews : Prop :=
  ∀ (view : CellView) (s : State),
    (∀ v : Word, s.presents none [⟨64, v⟩] → ∃ t, exec (.flset view) s = .next t ∧ Answered s t .ok .none []
      ∧ (∀ k, k < 64 → t.fl.getLsbD k = if k < viewWidth view then v.getLsbD k else s.fl.getLsbD k)
      ∧ SameVec s t ∧ SameGpr s t ∧ t.ip = s.ip ∧ SameMemory s t ∧ SameFault s t ∧ SameConfig s t)
    ∧ (s.presents none [] → ∃ v : Word, exec (.flget view) s = .next (s.onlyAnswers .ok .none [⟨64, v⟩])
      ∧ ∀ k, k < 64 → v.getLsbD k = (decide (k < viewWidth view) && s.fl.getLsbD k))

/-- R84, R87, R88: the same for IPSET, IPGET and IP. -/
def Obligations.InstructionPointerFollowsItsViews : Prop :=
  ∀ (view : CellView) (s : State),
    (∀ v : Word, s.presents none [⟨64, v⟩] → ∃ t, exec (.ipset view) s = .next t ∧ Answered s t .ok .none []
      ∧ (∀ k, k < 64 → t.ip.getLsbD k = if k < viewWidth view then v.getLsbD k else s.ip.getLsbD k)
      ∧ SameVec s t ∧ SameGpr s t ∧ t.fl = s.fl ∧ SameMemory s t ∧ SameFault s t ∧ SameConfig s t)
    ∧ (s.presents none [] → ∃ v : Word, exec (.ipget view) s = .next (s.onlyAnswers .ok .none [⟨64, v⟩])
      ∧ ∀ k, k < 64 → v.getLsbD k = (decide (k < viewWidth view) && s.ip.getLsbD k))

/-- 10_state.md R19, R20: only FLSET changes FL and only IPSET changes IP, whatever the response; the block never moves
IP by itself, whatever move of the host a step serves but a reset. -/
def Obligations.OnlyFlsetAndIpsetTouchFlagsAndIp : Prop :=
  (∀ (i : Instr) (s t : State), exec i s = .next t →
    ((∀ view, i ≠ .flset view) → t.fl = s.fl) ∧ ((∀ view, i ≠ .ipset view) → t.ip = s.ip))
  ∧ ∀ s t : State, step s = .next t → (∀ base abandoned later, s.inputs ≠ .reset base abandoned :: later) →
    (∀ view, decode s.port.cmd ≠ some (.ipset view)) → t.ip = s.ip

/-! ### Memory (20_memory.md, 42_memory_ops.md) -/

/-- R90: the checks of an n-byte access in their order, on naturals: below BASE, past the top, then for a write the
chunks. -/
def Obligations.AccessChecksInOrder : Prop :=
  ∀ (s : State) (e n : Nat) (kind : AccessKind), 0 < n →
    (e < s.base.toNat → s.accessFault e n kind = some .addrBelowBase)
    ∧ (s.base.toNat ≤ e → 2 ^ 64 < e + n → s.accessFault e n kind = some .addrOverflow)
    ∧ (s.base.toNat ≤ e → e + n ≤ 2 ^ 64 → s.accessFault e n .read = none)
    ∧ (s.base.toNat ≤ e → e + n ≤ 2 ^ 64 → s.params.maxChunks = none → s.accessFault e n .write = none)
    ∧ ∀ m, s.base.toNat ≤ e → e + n ≤ 2 ^ 64 → s.params.maxChunks = some m →
        s.accessFault e n .write =
          if m < allocated s.segs + chunksNeeded s.segs (e - s.base.toNat) n then some .outOfChunks else none

/-- 20_memory.md R30, R40, 42_memory_ops.md R91, R93: MRDB and MRD in range give the little-endian value, byte k of it
the byte at `addr - BASE + k`, and change no state; out of range they halt the block with the cause. -/
def Obligations.MemoryReadsAreLittleEndian : Prop :=
  ∀ (s : State) (addr : Addr), s.presents (some addr) [] →
    (∀ wc : Width,
      (s.base.toNat ≤ addr.toNat → addr.toNat + wc.bytes ≤ 2 ^ 64 → ∃ v : BitVec wc.bits,
        exec (.mrd wc) s = .next (s.onlyAnswers .ok .none [⟨wc.bits, v⟩])
        ∧ ∀ k, k < wc.bytes → v.extractLsb' (8 * k) 8 = s.readByteT (addr.toNat - s.base.toNat + k))
      ∧ (addr.toNat < s.base.toNat → exec (.mrd wc) s = .next (s.faultedBy .addrBelowBase))
      ∧ (s.base.toNat ≤ addr.toNat → 2 ^ 64 < addr.toNat + wc.bytes →
        exec (.mrd wc) s = .next (s.faultedBy .addrOverflow)))
    ∧ (s.base.toNat ≤ addr.toNat →
      exec .mrdb s = .next (s.onlyAnswers .ok .none [⟨8, s.readByteT (addr.toNat - s.base.toNat)⟩]))
    ∧ (addr.toNat < s.base.toNat → exec .mrdb s = .next (s.faultedBy .addrBelowBase))

/-- 20_memory.md R30, R34, R41, R42 item 2, 42_memory_ops.md R94: MWR in range and within the capacity stores byte k of
the value at `addr - BASE + k`, leaves every other byte as it was, maps exactly the chunks it touches besides those that
were mapped, and changes nothing else. Otherwise it halts the block with its cause and stores nothing. The byte map
and the segment list are well-formed, which every step keeps. -/
def Obligations.MwrStoresItsBytesOnly : Prop :=
  ∀ (s : State) (addr : Addr) (wc : Width) (v : BitVec wc.bits), Memory.wf s.mem = true → segmentsWf s.segs →
    s.presents (some addr) [⟨wc.bits, v⟩] →
    (s.accessFault addr.toNat wc.bytes .write = none → ∃ t, exec (.mwr wc) s = .next t ∧ Answered s t .ok .none []
      ∧ (∀ k, k < wc.bytes → t.readByteT (addr.toNat - s.base.toNat + k) = v.extractLsb' (8 * k) 8)
      ∧ (∀ a, a < addr.toNat - s.base.toNat ∨ addr.toNat - s.base.toNat + wc.bytes ≤ a →
          t.readByteT a = s.readByteT a)
      ∧ (∀ a, isMapped t.segs a = true ↔
          isMapped s.segs a = true ∨ ∃ k, k < wc.bytes ∧ a / 512 = (addr.toNat - s.base.toNat + k) / 512)
      ∧ SameVec s t ∧ SameGpr s t ∧ t.fl = s.fl ∧ t.ip = s.ip ∧ SameFault s t ∧ SameConfig s t)
    ∧ ∀ cause, s.accessFault addr.toNat wc.bytes .write = some cause → exec (.mwr wc) s = .next (s.faultedBy cause)

/-- 20_memory.md R34, R37, 42_memory_ops.md R92: MWRB in range and within the capacity stores its byte, allocates the
chunk of it even where the byte is 0, and changes nothing else; otherwise it halts the block and stores nothing. -/
def Obligations.MwrbStoresItsByteOnly : Prop :=
  ∀ (s : State) (addr : Addr) (b : Byte), Memory.wf s.mem = true → segmentsWf s.segs →
    s.presents (some addr) [⟨8, b⟩] →
    (s.accessFault addr.toNat 1 .write = none → ∃ t, exec .mwrb s = .next t ∧ Answered s t .ok .none []
      ∧ (∀ a, t.readByteT a = if a = addr.toNat - s.base.toNat then b else s.readByteT a)
      ∧ (∀ a, isMapped t.segs a = true ↔
          isMapped s.segs a = true ∨ a / 512 = (addr.toNat - s.base.toNat) / 512)
      ∧ SameVec s t ∧ SameGpr s t ∧ t.fl = s.fl ∧ t.ip = s.ip ∧ SameFault s t ∧ SameConfig s t)
    ∧ ∀ cause, s.accessFault addr.toNat 1 .write = some cause → exec .mwrb s = .next (s.faultedBy cause)

/-- R95, R96: MRDV whose elements are all in range gives `count` elements, element 0 first, byte k of element j the byte
at `addr - BASE + j*n + k`, and changes no state; with count 0 no check is made. With an element out of range it halts
the block with the cause of the first one and gives no data. -/
def Obligations.MrdvReadsItsElements : Prop :=
  ∀ (s : State) (addr : Addr) (wc : Width) (count : Fin 65536), s.presents (some addr) [] →
    (count.val = 0 ∨ (s.base.toNat ≤ addr.toNat ∧ addr.toNat + count.val * wc.bytes ≤ 2 ^ 64) →
      ∃ vs : List (BitVec wc.bits), exec (.mrdv wc count) s = .next (s.onlyAnswers .ok .none (elems vs))
        ∧ vs.length = count.val
        ∧ ∀ j v, vs[j]? = some v → ∀ k, k < wc.bytes →
            v.extractLsb' (8 * k) 8 = s.readByteT (addr.toNat - s.base.toNat + j * wc.bytes + k))
    ∧ (0 < count.val → addr.toNat < s.base.toNat → exec (.mrdv wc count) s = .next (s.faultedBy .addrBelowBase))
    ∧ (0 < count.val → s.base.toNat ≤ addr.toNat → 2 ^ 64 < addr.toNat + count.val * wc.bytes →
      exec (.mrdv wc count) s = .next (s.faultedBy .addrOverflow))

/-- R97 with R90, R95, 20_memory.md R33, R34, R39: MWRV on any store, from any address. The first m elements pass their
checks, m being all of them or the number before the first that fails; they are stored, every other byte is as before,
exactly their chunks are mapped besides those that were, and registers are untouched. The response is OK where m is all,
else FATAL with the cause of the element that fails. Element j is checked at its own address against the chunks
allocated by the elements before it; that check is the check of elements 0 to j as one access at `addr`
(42_memory_ops.md R90: the same address is below BASE, the same byte is the last, the same chunks are needed in all),
and the statement says it in this form. -/
def Obligations.MwrvCommitsTheElementsBeforeAFault : Prop :=
  ∀ (s : State) (addr : Addr) (wc : Width) (count : Fin 65536) (vs : List (BitVec wc.bits)),
    Memory.wf s.mem = true → segmentsWf s.segs → s.presents (some addr) (elems vs) → vs.length = count.val →
    ∃ t m, exec (.mwrv wc count) s = .next t ∧ m ≤ count.val
      ∧ (m = 0 ∨ s.accessFault addr.toNat (m * wc.bytes) .write = none)
      ∧ (∀ j v, j < m → vs[j]? = some v → ∀ k, k < wc.bytes →
          t.readByteT (addr.toNat - s.base.toNat + j * wc.bytes + k) = v.extractLsb' (8 * k) 8)
      ∧ (∀ a, a < addr.toNat - s.base.toNat ∨ addr.toNat - s.base.toNat + m * wc.bytes ≤ a →
          t.readByteT a = s.readByteT a)
      ∧ (∀ a, isMapped t.segs a = true ↔
          isMapped s.segs a = true ∨ ∃ k, k < m * wc.bytes ∧ a / 512 = (addr.toNat - s.base.toNat + k) / 512)
      ∧ (m = count.val → Answered s t .ok .none [] ∧ SameFault s t)
      ∧ (m < count.val → ∃ cause, s.accessFault addr.toNat ((m + 1) * wc.bytes) .write = some cause
          ∧ Answered s t .fatal cause.reason [] ∧ t.halted = true ∧ t.faultCause = cause.code)
      ∧ SameVec s t ∧ SameGpr s t ∧ t.fl = s.fl ∧ t.ip = s.ip ∧ SameConfig s t

/-- R97: on a store of any capacity, MWRV whose chunks all fit stores all its elements and answers OK; with count 0 it
answers OK, makes no check and changes nothing. -/
def Obligations.MwrvStoresAllThatFits : Prop :=
  ∀ (s : State) (addr : Addr) (wc : Width) (count : Fin 65536) (vs : List (BitVec wc.bits)),
    Memory.wf s.mem = true → segmentsWf s.segs → s.presents (some addr) (elems vs) → vs.length = count.val →
    (count.val = 0 → exec (.mwrv wc count) s = .next (s.onlyAnswers .ok .none []))
    ∧ (s.accessFault addr.toNat (count.val * wc.bytes) .write = none →
      ∃ t, exec (.mwrv wc count) s = .next t ∧ Answered s t .ok .none []
        ∧ (∀ j v, vs[j]? = some v → ∀ k, k < wc.bytes →
            t.readByteT (addr.toNat - s.base.toNat + j * wc.bytes + k) = v.extractLsb' (8 * k) 8)
        ∧ (∀ a, a < addr.toNat - s.base.toNat ∨ addr.toNat - s.base.toNat + count.val * wc.bytes ≤ a →
            t.readByteT a = s.readByteT a)
        ∧ SameVec s t ∧ SameGpr s t ∧ t.fl = s.fl ∧ t.ip = s.ip ∧ SameFault s t ∧ SameConfig s t)

/-- R95, R97, 20_memory.md R33: MWRV is its MWRs one after another, as runs of the whole block: from a running state, the
run of the one vector request and the run of the requests at `e_0`, `e_1`, ... end in the same registers, bytes, segments,
HALTED and FAULT_CAUSE, also where an element faults (the MWRs after it are answered HALTED). Every element begins at an
address a request can carry; the last may run past the top. -/
def Obligations.MwrvIsItsElementwiseMwrs : Prop :=
  ∀ (s : State) (addr : Addr) (wc : Width) (count : Fin 65536) (vs : List (BitVec wc.bits)),
    s.halted = false → vs.length = count.val → (∀ j, j < count.val → addr.toNat + j * wc.bytes < 2 ^ 64) →
    ∃ t u, step (s.issue [⟨encode (.mwrv wc count), some addr, elems vs⟩]) = .next t
      ∧ run count.val
          (s.issue (vs.mapIdx fun j v => ⟨encode (.mwr wc), some (addr + BitVec.ofNat 64 (j * wc.bytes)), [⟨wc.bits, v⟩]⟩))
          = .next u
      ∧ SameBlock t u

/-- R98: MRDB is MRD.U8 and MWRB is MWR.U8, on every state. -/
def Obligations.ByteCommandsAreTheU8Commands : Prop :=
  ∀ s : State, exec .mrdb s = exec (.mrd .u8) s ∧ exec .mwrb s = exec (.mwr .u8) s

/-- R99 item 1: a value stored by an MWR that answers OK reads back by an MRD at the same address. -/
def Obligations.MemoryRoundTrip : Prop :=
  ∀ (s t : State) (addr : Addr) (wc : Width) (v : BitVec wc.bits) (moves : List HostMove),
    Memory.wf s.mem = true → s.presents (some addr) [⟨wc.bits, v⟩] →
    s.accessFault addr.toNat wc.bytes .write = none → exec (.mwr wc) s = .next t →
    (t.withInputs moves).presents (some addr) [] →
    exec (.mrd wc) (t.withInputs moves) =
      .next ((t.withInputs moves).onlyAnswers .ok .none [⟨wc.bits, v⟩])

/-- R98, R99 items 2 and 3, 20_memory.md R34: whatever the response, only MWRB, MWR and MWRV change a byte or a
segment, and no memory command changes a register. -/
def Obligations.OnlyMemoryWritesTouchMemory : Prop :=
  ∀ (i : Instr) (s t : State), exec i s = .next t →
    (writesMemory i = false → SameMemory s t)
    ∧ (isMemoryCommand i = true → SameVec s t ∧ SameGpr s t ∧ t.fl = s.fl ∧ t.ip = s.ip ∧ SameConfig s t)

/-- 20_memory.md R36, R37, R38: seen through the inspection view, a byte read and a byte write are those of the rules:
read inside a segment or 0, mutate in place or allocate, insert in order and coalesce left to right. -/
def Obligations.InspectionFollowsTheSegmentStore : Prop :=
  ∀ (s : State) (t : Nat) (b : Byte), s.Inv →
    s.readByteT t = storeRead s.inspect t ∧ (s.writeByteT t b).inspect = storeWrite s.inspect t b

/-- 20_memory.md R42 item 3: the segments are the maximal runs of allocated chunks, and the list is determined by which
addresses are mapped. -/
def Obligations.SegmentsAreTheMaximalRuns : Prop :=
  (∀ segs : List Segment, segmentsWf segs → ∀ g ∈ segs,
    (∀ a, g.start ≤ a → a < g.stop → isMapped segs a = true) ∧ isMapped segs g.stop = false
    ∧ (0 < g.start → isMapped segs (g.start - 1) = false))
  ∧ ∀ segs segs' : List Segment, segmentsWf segs → segmentsWf segs' →
      (∀ a, isMapped segs a = isMapped segs' a) → segs = segs'

/-- 20_memory.md R37, R38, R39, R42 item 2: a byte write maps the chunk of its address and no other, and takes exactly
one chunk of the capacity where the address was not mapped, none where it was. -/
def Obligations.AllocationTakesOneChunk : Prop :=
  ∀ (segs : List Segment) (t : Nat), segmentsWf segs →
    segmentsWf (allocateAt segs t)
    ∧ (∀ a, isMapped (allocateAt segs t) a = true ↔ isMapped segs a = true ∨ a / 512 = t / 512)
    ∧ allocated (allocateAt segs t) = allocated segs + if isMapped segs t = true then 0 else 1

/-- 42_memory_ops.md R99 item 5, 90_conflicts.md C1: byte writes at translated 0 and 512 on an empty store leave one
segment of 1024 bytes, and a later write at 511 changes no segment. -/
def Obligations.AdjacentChunksCoalesce : Prop :=
  ∀ (s : State) (x y z : Byte), s.segs = [] →
    ((s.writeByteT 0 x).writeByteT 512 y).segs = [⟨0, 1024⟩]
    ∧ (((s.writeByteT 0 x).writeByteT 512 y).writeByteT 511 z).segs = [⟨0, 1024⟩]

/-! ### The host's encoder and the assembler (30_encoding.md R64 to R67) -/

/-- R64: a selector string of two decimal bounds parses to them, leading zeros allowed, exactly where both are at most
511; `MAX` is 511. -/
def Obligations.SelectorStringsParse : Prop :=
  ∀ ds es : List (Fin 10), ds ≠ [] → es ≠ [] →
    (∀ (ha : decimalValue ds < 512) (hb : decimalValue es < 512),
      parseSelector ('[' :: digitChars ds ++ ':' :: digitChars es ++ [']'])
        = some (⟨decimalValue ds, ha⟩, ⟨decimalValue es, hb⟩))
    ∧ (512 ≤ decimalValue ds ∨ 512 ≤ decimalValue es →
      parseSelector ('[' :: digitChars ds ++ ':' :: digitChars es ++ [']']) = none)
    ∧ (∀ hb : decimalValue es < 512,
      parseSelector (['[', 'M', 'A', 'X', ':'] ++ digitChars es ++ [']']) = some (511, ⟨decimalValue es, hb⟩))

/-- R64: on a running block a selector command whose string parses runs the command with exactly those bounds. -/
def Obligations.SelectorCommandRunsItsEncoding : Prop :=
  ∀ (s : State) (win : Fin 4) (idx : Fin 16) (wc : Width) (text : List Char) (value : Elem) (a b : Fin 512)
    (later : List HostMove), s.halted = false → parseSelector text = some (a, b) →
    (s.inputs = .selector (.get win idx wc text) :: later →
      step s = exec (.vgetsel win idx wc a b)
        (s.withInputs (.request ⟨encode (.vgetsel win idx wc a b), none, []⟩ :: later)))
    ∧ (s.inputs = .selector (.set win idx wc text value) :: later →
      step s = exec (.vsetsel win idx wc a b)
        (s.withInputs (.request ⟨encode (.vsetsel win idx wc a b), none, [value]⟩ :: later)))

/-- 10_state.md R17, 30_encoding.md R65, R66: every register name assembles to its (view, index) pair, for GPRGET and
GPRSET, and no two pairs have one name. -/
def Obligations.RegisterNamesAssemble : Prop :=
  (∀ (view : GprView) (idx : Fin 16) (name : String), gprName view idx = some name →
    assemble ("GPRGET ".toList ++ name.toList) = .request ⟨encode (.gprget view idx), none, []⟩
    ∧ assemble ("GPRSET ".toList ++ name.toList ++ ", 0x7F".toList)
        = .request ⟨encode (.gprset view idx), none, [⟨64, 0x7F⟩]⟩)
  ∧ ∀ (view view' : GprView) (idx idx' : Fin 16) (name : String),
      gprName view idx = some name → gprName view' idx' = some name → view = view' ∧ idx = idx'
end

