-- ==== Sys2Proof/Laws/Bits.lean ====
section
/-! SUPPORT. Every bit of the splitting, joining and replacing operations, and of the views. -/

namespace Sys2Proof

/-! ### Widths -/

theorem Width.bits_pos (wc : Width) : 0 < wc.bits := by cases wc <;> decide

theorem Width.bytes_pos (wc : Width) : 0 < wc.bytes := by cases wc <;> decide

theorem Width.bits_eq (wc : Width) : wc.bits = wc.bytes * 8 := by cases wc <;> rfl

theorem Width.bits_le (wc : Width) : wc.bits ≤ 512 := by cases wc <;> decide

theorem Width.bits_div (wc : Width) : wc.bits / 8 = wc.bytes := rfl

theorem Window.bits_le (win : Window) : win.bits ≤ 512 := by cases win <;> decide

theorem Width.eight_le (wc : Width) : 8 ≤ wc.bits := by cases wc <;> decide

end Sys2Proof

namespace Sys2Proof.Machine

/-! ### Splitting and joining -/

@[simp] theorem length_splitLow {n : Nat} (w m : Nat) (v : BitVec n) : (splitLow w m v).length = m := by
  simp [splitLow]

theorem getElem?_splitLow {n : Nat} (w m : Nat) (v : BitVec n) (k : Nat) :
    (splitLow w m v)[k]? = if k < m then some (v.extractLsb' (k * w) w) else none := by
  by_cases h : k < m <;> simp [splitLow, h]

/-- Bit i of the joined value is bit `i % w` of piece `i / w`. -/
theorem getLsbD_joinLow {w : Nat} (n : Nat) (hw : 0 < w) (xs : List (BitVec w)) (i : Nat) (hi : i < n) :
    (joinLow n xs).getLsbD i = (xs.getD (i / w) 0).getLsbD (i % w) := by
  induction xs generalizing i with
  | nil => simp [joinLow]
  | cons x xs ih =>
    by_cases h : i < w
    · simp [joinLow, hi, h, Nat.div_eq_of_lt h, Nat.mod_eq_of_lt h]
    · have hle : w ≤ i := Nat.le_of_not_lt h
      obtain ⟨j, rfl⟩ := Nat.exists_eq_add_of_le hle
      have hx : x.getLsbD (w + j) = false := BitVec.getLsbD_of_ge x _ hle
      have hj : j < n := by omega
      simp only [joinLow, BitVec.getLsbD_or, BitVec.getLsbD_shiftLeft, BitVec.getLsbD_setWidth, hi, h, hx,
        decide_true, decide_false, Bool.not_false, Bool.true_and, Bool.and_false, Bool.or_false,
        Nat.add_sub_cancel_left, ih j hj]
      rw [Nat.add_div_left _ hw, Nat.add_mod_left]
      simp

/-- Splitting what was joined gives the pieces back. -/
theorem splitLow_joinLow {w : Nat} (n m : Nat) (hw : 0 < w) (xs : List (BitVec w)) (hl : xs.length = m)
    (hn : m * w ≤ n) : splitLow w m (joinLow n xs) = xs := by
  apply List.ext_getElem?
  intro k
  rw [getElem?_splitLow]
  split
  · next hk =>
    have hk' : k < xs.length := by omega
    rw [List.getElem?_eq_getElem hk']
    congr 1
    apply BitVec.eq_of_getLsbD_eq
    intro j hj
    have hlt : k * w + j < n := by
      have : (k + 1) * w ≤ m * w := Nat.mul_le_mul_right w hk
      have : (k + 1) * w = k * w + w := Nat.succ_mul k w
      omega
    rw [BitVec.getLsbD_extractLsb', getLsbD_joinLow n hw xs _ hlt]
    have hd : (k * w + j) / w = k := by
      rw [Nat.mul_comm, Nat.mul_add_div hw, Nat.div_eq_of_lt hj, Nat.add_zero]
    have hm : (k * w + j) % w = j := by
      rw [Nat.mul_comm, Nat.mul_add_mod, Nat.mod_eq_of_lt hj]
    rw [hd, hm]
    simp [hj, List.getD_eq_getElem?_getD, List.getElem?_eq_getElem hk']
  · next hk => exact (List.getElem?_eq_none (by omega)).symm

/-- Joining the pieces of a value gives the value back. -/
theorem joinLow_splitLow {n : Nat} (w m : Nat) (hw : 0 < w) (v : BitVec n) (hn : n = m * w) :
    joinLow n (splitLow w m v) = v := by
  apply BitVec.eq_of_getLsbD_eq
  intro i hi
  have hk : i / w < m := by rw [Nat.div_lt_iff_lt_mul hw]; omega
  rw [getLsbD_joinLow n hw _ _ hi, List.getD_eq_getElem?_getD, getElem?_splitLow, if_pos hk]
  have := Nat.mod_lt i hw
  simp [this, Nat.mul_comm (i / w) w, Nat.div_add_mod]

/-- Piece k of a joined value is the k-th of the pieces. -/
theorem extractLsb'_joinLow {w : Nat} (n : Nat) (hw : 0 < w) (xs : List (BitVec w)) (k : Nat)
    (hn : (k + 1) * w ≤ n) : (joinLow n xs).extractLsb' (k * w) w = xs.getD k 0 := by
  apply BitVec.eq_of_getLsbD_eq
  intro j hj
  have hlt : k * w + j < n := by
    have : (k + 1) * w = k * w + w := Nat.succ_mul k w
    omega
  have hd : (k * w + j) / w = k := by
    rw [Nat.mul_comm, Nat.mul_add_div hw, Nat.div_eq_of_lt hj, Nat.add_zero]
  have hm : (k * w + j) % w = j := by
    rw [Nat.mul_comm, Nat.mul_add_mod, Nat.mod_eq_of_lt hj]
  rw [BitVec.getLsbD_extractLsb', getLsbD_joinLow n hw xs _ hlt, hd, hm]
  simp [hj]

/-! ### Replacing a bit range -/

theorem getLsbD_replaceBits (v : VecCell) (lo len : Nat) (x : VecCell) (k : Nat) (hk : k < 512) :
    (replaceBits v lo len x).getLsbD k = if lo ≤ k ∧ k < lo + len then x.getLsbD (k - lo) else v.getLsbD k := by
  simp only [replaceBits, BitVec.getLsbD_or, BitVec.getLsbD_and, BitVec.getLsbD_not, BitVec.getLsbD_shiftLeft,
    BitVec.getLsbD_setWidth, BitVec.getLsbD_allOnes, hk, decide_true, Bool.true_and]
  by_cases h1 : k < lo
  · have : ¬(lo ≤ k ∧ k < lo + len) := by omega
    simp [h1, this]
  · by_cases h2 : k - lo < len
    · have h3 : lo ≤ k ∧ k < lo + len := by omega
      have h4 : k - lo < 512 := by omega
      simp [h1, h2, h3, h4]
    · have : ¬(lo ≤ k ∧ k < lo + len) := by omega
      simp [h1, h2, this]

/-! ### Views -/

theorem getLsbD_readView (view : GprView) (g : Word) (k : Nat) (hk : k < 64) :
    (readView view g).getLsbD k =
      match view with
      | .full64 => g.getLsbD k
      | .zext32 => decide (k < 32) && g.getLsbD k
      | .merge16 => decide (k < 16) && g.getLsbD k
      | .merge8Low => decide (k < 8) && g.getLsbD k
      | .merge8High => decide (k < 8) && g.getLsbD (8 + k) := by
  cases view <;> simp [readView, hk]

theorem getLsbD_writeView (view : GprView) (g v : Word) (k : Nat) (hk : k < 64) :
    (writeView view g v).getLsbD k =
      match view with
      | .full64 => v.getLsbD k
      | .zext32 => decide (k < 32) && v.getLsbD k
      | .merge16 => if k < 16 then v.getLsbD k else g.getLsbD k
      | .merge8Low => if k < 8 then v.getLsbD k else g.getLsbD k
      | .merge8High => if 8 ≤ k ∧ k < 16 then v.getLsbD (k - 8) else g.getLsbD k := by
  cases view with
  | full64 => rfl
  | zext32 => simp [writeView, hk]
  | merge16 =>
    refine (BitVec.getLsbD_append (x := g.extractLsb' 16 48) (y := v.extractLsb' 0 16)).trans ?_
    by_cases h : k < 16
    · simp [h]
    · have h1 : k - 16 < 48 := by omega
      have h2 : 16 + (k - 16) = k := by omega
      simp [h, h1, h2]
  | merge8Low =>
    refine (BitVec.getLsbD_append (x := g.extractLsb' 8 56) (y := v.extractLsb' 0 8)).trans ?_
    by_cases h : k < 8
    · simp [h]
    · have h1 : k - 8 < 56 := by omega
      have h2 : 8 + (k - 8) = k := by omega
      simp [h, h1, h2]
  | merge8High =>
    refine (BitVec.getLsbD_append (x := g.extractLsb' 16 48 ++ v.extractLsb' 0 8)
      (y := g.extractLsb' 0 8)).trans ?_
    rw [BitVec.getLsbD_append]
    by_cases h : k < 8
    · have : ¬(8 ≤ k) := by omega
      simp [h, this]
    · by_cases h' : k < 16
      · have h1 : k - 8 < 8 := by omega
        have h2 : 8 ≤ k := by omega
        simp [h, h', h1, h2]
      · have h1 : ¬(k - 8 < 8) := by omega
        have h2 : k - 8 - 8 < 48 := by omega
        have h3 : 16 + (k - 8 - 8) = k := by omega
        simp [h, h', h1, h2, h3]

theorem getLsbD_viewMask (view : CellView) (k : Nat) (hk : k < 64) :
    (viewMask view).getLsbD k = decide (k < viewWidth view) := by
  simp [viewMask, hk]

theorem getLsbD_cellRead (view : CellView) (c : Word) (k : Nat) (hk : k < 64) :
    (cellRead view c).getLsbD k = (decide (k < viewWidth view) && c.getLsbD k) := by
  simp [cellRead, getLsbD_viewMask view k hk, Bool.and_comm]

theorem getLsbD_cellWrite (view : CellView) (c v : Word) (k : Nat) (hk : k < 64) :
    (cellWrite view c v).getLsbD k = if k < viewWidth view then v.getLsbD k else c.getLsbD k := by
  by_cases h : k < viewWidth view <;>
    simp only [cellWrite, BitVec.getLsbD_or, BitVec.getLsbD_and, BitVec.getLsbD_not, getLsbD_viewMask view k hk, hk, h,
      decide_true, decide_false, Bool.not_true, Bool.not_false, Bool.and_true, Bool.and_false, Bool.false_or,
      Bool.or_false, if_true, if_false]

end Sys2Proof.Machine
end

