-- ==== Sys2Proof/Laws/State.lean ====
section
/-! SUPPORT. The state: one lemma per field per update, and the responses written out. -/

namespace Sys2Proof.Machine.State

/-! ### setVec -/

@[simp] theorem setVec_vec (s : State) (i : Fin 16) (v : VecCell) : (s.setVec i v).vec = s.vec.set i v := rfl

@[simp] theorem setVec_gpr (s : State) (i : Fin 16) (v : VecCell) : (s.setVec i v).gpr = s.gpr := rfl

@[simp] theorem setVec_fl (s : State) (i : Fin 16) (v : VecCell) : (s.setVec i v).fl = s.fl := rfl

@[simp] theorem setVec_ip (s : State) (i : Fin 16) (v : VecCell) : (s.setVec i v).ip = s.ip := rfl

@[simp] theorem setVec_mem (s : State) (i : Fin 16) (v : VecCell) : (s.setVec i v).mem = s.mem := rfl

@[simp] theorem setVec_segs (s : State) (i : Fin 16) (v : VecCell) : (s.setVec i v).segs = s.segs := rfl

@[simp] theorem setVec_halted (s : State) (i : Fin 16) (v : VecCell) : (s.setVec i v).halted = s.halted := rfl

@[simp] theorem setVec_faultCause (s : State) (i : Fin 16) (v : VecCell) : (s.setVec i v).faultCause = s.faultCause := rfl

@[simp] theorem setVec_base (s : State) (i : Fin 16) (v : VecCell) : (s.setVec i v).base = s.base := rfl

@[simp] theorem setVec_params (s : State) (i : Fin 16) (v : VecCell) : (s.setVec i v).params = s.params := rfl

@[simp] theorem setVec_inputs (s : State) (i : Fin 16) (v : VecCell) : (s.setVec i v).inputs = s.inputs := rfl

@[simp] theorem setVec_responses (s : State) (i : Fin 16) (v : VecCell) : (s.setVec i v).responses = s.responses := rfl

@[simp] theorem setVec_resets (s : State) (i : Fin 16) (v : VecCell) : (s.setVec i v).resets = s.resets := rfl

/-! ### setGpr -/

@[simp] theorem setGpr_vec (s : State) (i : Fin 16) (v : Word) : (s.setGpr i v).vec = s.vec := rfl

@[simp] theorem setGpr_gpr (s : State) (i : Fin 16) (v : Word) : (s.setGpr i v).gpr = s.gpr.set i v := rfl

@[simp] theorem setGpr_fl (s : State) (i : Fin 16) (v : Word) : (s.setGpr i v).fl = s.fl := rfl

@[simp] theorem setGpr_ip (s : State) (i : Fin 16) (v : Word) : (s.setGpr i v).ip = s.ip := rfl

@[simp] theorem setGpr_mem (s : State) (i : Fin 16) (v : Word) : (s.setGpr i v).mem = s.mem := rfl

@[simp] theorem setGpr_segs (s : State) (i : Fin 16) (v : Word) : (s.setGpr i v).segs = s.segs := rfl

@[simp] theorem setGpr_halted (s : State) (i : Fin 16) (v : Word) : (s.setGpr i v).halted = s.halted := rfl

@[simp] theorem setGpr_faultCause (s : State) (i : Fin 16) (v : Word) : (s.setGpr i v).faultCause = s.faultCause := rfl

@[simp] theorem setGpr_base (s : State) (i : Fin 16) (v : Word) : (s.setGpr i v).base = s.base := rfl

@[simp] theorem setGpr_params (s : State) (i : Fin 16) (v : Word) : (s.setGpr i v).params = s.params := rfl

@[simp] theorem setGpr_inputs (s : State) (i : Fin 16) (v : Word) : (s.setGpr i v).inputs = s.inputs := rfl

@[simp] theorem setGpr_responses (s : State) (i : Fin 16) (v : Word) : (s.setGpr i v).responses = s.responses := rfl

@[simp] theorem setGpr_resets (s : State) (i : Fin 16) (v : Word) : (s.setGpr i v).resets = s.resets := rfl

/-! ### setFl -/

@[simp] theorem setFl_vec (s : State) (v : Word) : (s.setFl v).vec = s.vec := rfl

@[simp] theorem setFl_gpr (s : State) (v : Word) : (s.setFl v).gpr = s.gpr := rfl

@[simp] theorem setFl_fl (s : State) (v : Word) : (s.setFl v).fl = v := rfl

@[simp] theorem setFl_ip (s : State) (v : Word) : (s.setFl v).ip = s.ip := rfl

@[simp] theorem setFl_mem (s : State) (v : Word) : (s.setFl v).mem = s.mem := rfl

@[simp] theorem setFl_segs (s : State) (v : Word) : (s.setFl v).segs = s.segs := rfl

@[simp] theorem setFl_halted (s : State) (v : Word) : (s.setFl v).halted = s.halted := rfl

@[simp] theorem setFl_faultCause (s : State) (v : Word) : (s.setFl v).faultCause = s.faultCause := rfl

@[simp] theorem setFl_base (s : State) (v : Word) : (s.setFl v).base = s.base := rfl

@[simp] theorem setFl_params (s : State) (v : Word) : (s.setFl v).params = s.params := rfl

@[simp] theorem setFl_inputs (s : State) (v : Word) : (s.setFl v).inputs = s.inputs := rfl

@[simp] theorem setFl_responses (s : State) (v : Word) : (s.setFl v).responses = s.responses := rfl

@[simp] theorem setFl_resets (s : State) (v : Word) : (s.setFl v).resets = s.resets := rfl

/-! ### setIp -/

@[simp] theorem setIp_vec (s : State) (v : Word) : (s.setIp v).vec = s.vec := rfl

@[simp] theorem setIp_gpr (s : State) (v : Word) : (s.setIp v).gpr = s.gpr := rfl

@[simp] theorem setIp_fl (s : State) (v : Word) : (s.setIp v).fl = s.fl := rfl

@[simp] theorem setIp_ip (s : State) (v : Word) : (s.setIp v).ip = v := rfl

@[simp] theorem setIp_mem (s : State) (v : Word) : (s.setIp v).mem = s.mem := rfl

@[simp] theorem setIp_segs (s : State) (v : Word) : (s.setIp v).segs = s.segs := rfl

@[simp] theorem setIp_halted (s : State) (v : Word) : (s.setIp v).halted = s.halted := rfl

@[simp] theorem setIp_faultCause (s : State) (v : Word) : (s.setIp v).faultCause = s.faultCause := rfl

@[simp] theorem setIp_base (s : State) (v : Word) : (s.setIp v).base = s.base := rfl

@[simp] theorem setIp_params (s : State) (v : Word) : (s.setIp v).params = s.params := rfl

@[simp] theorem setIp_inputs (s : State) (v : Word) : (s.setIp v).inputs = s.inputs := rfl

@[simp] theorem setIp_responses (s : State) (v : Word) : (s.setIp v).responses = s.responses := rfl

@[simp] theorem setIp_resets (s : State) (v : Word) : (s.setIp v).resets = s.resets := rfl

/-! ### writeByteT -/

@[simp] theorem writeByteT_vec (s : State) (a : Nat) (b : Byte) : (s.writeByteT a b).vec = s.vec := rfl

@[simp] theorem writeByteT_gpr (s : State) (a : Nat) (b : Byte) : (s.writeByteT a b).gpr = s.gpr := rfl

@[simp] theorem writeByteT_fl (s : State) (a : Nat) (b : Byte) : (s.writeByteT a b).fl = s.fl := rfl

@[simp] theorem writeByteT_ip (s : State) (a : Nat) (b : Byte) : (s.writeByteT a b).ip = s.ip := rfl

@[simp] theorem writeByteT_mem (s : State) (a : Nat) (b : Byte) : (s.writeByteT a b).mem = Memory.write s.mem a b := rfl

@[simp] theorem writeByteT_segs (s : State) (a : Nat) (b : Byte) : (s.writeByteT a b).segs = allocateAt s.segs a := rfl

@[simp] theorem writeByteT_halted (s : State) (a : Nat) (b : Byte) : (s.writeByteT a b).halted = s.halted := rfl

@[simp] theorem writeByteT_faultCause (s : State) (a : Nat) (b : Byte) : (s.writeByteT a b).faultCause = s.faultCause := rfl

@[simp] theorem writeByteT_base (s : State) (a : Nat) (b : Byte) : (s.writeByteT a b).base = s.base := rfl

@[simp] theorem writeByteT_params (s : State) (a : Nat) (b : Byte) : (s.writeByteT a b).params = s.params := rfl

@[simp] theorem writeByteT_inputs (s : State) (a : Nat) (b : Byte) : (s.writeByteT a b).inputs = s.inputs := rfl

@[simp] theorem writeByteT_responses (s : State) (a : Nat) (b : Byte) : (s.writeByteT a b).responses = s.responses := rfl

@[simp] theorem writeByteT_resets (s : State) (a : Nat) (b : Byte) : (s.writeByteT a b).resets = s.resets := rfl

/-! ### respond -/

@[simp] theorem respond_vec (s : State) (st : Status) (r : Reason) (d : List Elem) : (s.respond st r d).vec = s.vec := rfl

@[simp] theorem respond_gpr (s : State) (st : Status) (r : Reason) (d : List Elem) : (s.respond st r d).gpr = s.gpr := rfl

@[simp] theorem respond_fl (s : State) (st : Status) (r : Reason) (d : List Elem) : (s.respond st r d).fl = s.fl := rfl

@[simp] theorem respond_ip (s : State) (st : Status) (r : Reason) (d : List Elem) : (s.respond st r d).ip = s.ip := rfl

@[simp] theorem respond_mem (s : State) (st : Status) (r : Reason) (d : List Elem) : (s.respond st r d).mem = s.mem := rfl

@[simp] theorem respond_segs (s : State) (st : Status) (r : Reason) (d : List Elem) : (s.respond st r d).segs = s.segs := rfl

@[simp] theorem respond_halted (s : State) (st : Status) (r : Reason) (d : List Elem) : (s.respond st r d).halted = s.halted := rfl

@[simp] theorem respond_faultCause (s : State) (st : Status) (r : Reason) (d : List Elem) : (s.respond st r d).faultCause = s.faultCause := rfl

@[simp] theorem respond_base (s : State) (st : Status) (r : Reason) (d : List Elem) : (s.respond st r d).base = s.base := rfl

@[simp] theorem respond_params (s : State) (st : Status) (r : Reason) (d : List Elem) : (s.respond st r d).params = s.params := rfl

@[simp] theorem respond_inputs (s : State) (st : Status) (r : Reason) (d : List Elem) : (s.respond st r d).inputs = s.inputs.tail := rfl

@[simp] theorem respond_responses (s : State) (st : Status) (r : Reason) (d : List Elem) : (s.respond st r d).responses = s.responses ++ [⟨st, r, d⟩] := rfl

@[simp] theorem respond_resets (s : State) (st : Status) (r : Reason) (d : List Elem) : (s.respond st r d).resets = s.resets := rfl

@[simp] theorem setVec_readByteT (s : State) (i : Fin 16) (v : VecCell) (x : Nat) :
    (s.setVec i v).readByteT x = s.readByteT x := rfl

@[simp] theorem setGpr_readByteT (s : State) (i : Fin 16) (v : Word) (x : Nat) :
    (s.setGpr i v).readByteT x = s.readByteT x := rfl

@[simp] theorem setFl_readByteT (s : State) (v : Word) (x : Nat) :
    (s.setFl v).readByteT x = s.readByteT x := rfl

@[simp] theorem setIp_readByteT (s : State) (v : Word) (x : Nat) :
    (s.setIp v).readByteT x = s.readByteT x := rfl

@[simp] theorem respond_readByteT (s : State) (st : Status) (r : Reason) (d : List Elem) (x : Nat) :
    (s.respond st r d).readByteT x = s.readByteT x := rfl

@[simp] theorem setGpr_vecCell (s : State) (i : Fin 16) (v : Word) (j : Fin 16) :
    (s.setGpr i v).vecCell j = s.vecCell j := rfl

@[simp] theorem setFl_vecCell (s : State) (v : Word) (j : Fin 16) :
    (s.setFl v).vecCell j = s.vecCell j := rfl

@[simp] theorem setIp_vecCell (s : State) (v : Word) (j : Fin 16) :
    (s.setIp v).vecCell j = s.vecCell j := rfl

@[simp] theorem writeByteT_vecCell (s : State) (a : Nat) (b : Byte) (j : Fin 16) :
    (s.writeByteT a b).vecCell j = s.vecCell j := rfl

@[simp] theorem respond_vecCell (s : State) (st : Status) (r : Reason) (d : List Elem) (j : Fin 16) :
    (s.respond st r d).vecCell j = s.vecCell j := rfl

@[simp] theorem setVec_gprCell (s : State) (i : Fin 16) (v : VecCell) (j : Fin 16) :
    (s.setVec i v).gprCell j = s.gprCell j := rfl

@[simp] theorem setFl_gprCell (s : State) (v : Word) (j : Fin 16) :
    (s.setFl v).gprCell j = s.gprCell j := rfl

@[simp] theorem setIp_gprCell (s : State) (v : Word) (j : Fin 16) :
    (s.setIp v).gprCell j = s.gprCell j := rfl

@[simp] theorem writeByteT_gprCell (s : State) (a : Nat) (b : Byte) (j : Fin 16) :
    (s.writeByteT a b).gprCell j = s.gprCell j := rfl

@[simp] theorem respond_gprCell (s : State) (st : Status) (r : Reason) (d : List Elem) (j : Fin 16) :
    (s.respond st r d).gprCell j = s.gprCell j := rfl

/-! ### Cells -/

@[simp] theorem setVec_vecCell_self (s : State) (i : Fin 16) (v : VecCell) : (s.setVec i v).vecCell i = v := by
  simp [setVec, vecCell]

theorem setVec_vecCell_of_ne (s : State) (i j : Fin 16) (v : VecCell) (h : j ≠ i) :
    (s.setVec i v).vecCell j = s.vecCell j := by
  have h' : i.val ≠ j.val := fun e => h (Fin.ext e.symm)
  simp [setVec, vecCell, h']

@[simp] theorem setGpr_gprCell_self (s : State) (i : Fin 16) (v : Word) : (s.setGpr i v).gprCell i = v := by
  simp [setGpr, gprCell]

theorem setGpr_gprCell_of_ne (s : State) (i j : Fin 16) (v : Word) (h : j ≠ i) :
    (s.setGpr i v).gprCell j = s.gprCell j := by
  have h' : i.val ≠ j.val := fun e => h (Fin.ext e.symm)
  simp [setGpr, gprCell, h']

/-! ### withInputs -/

@[simp] theorem withInputs_vec (s : State) (m : List HostMove) : (s.withInputs m).vec = s.vec := rfl

@[simp] theorem withInputs_gpr (s : State) (m : List HostMove) : (s.withInputs m).gpr = s.gpr := rfl

@[simp] theorem withInputs_fl (s : State) (m : List HostMove) : (s.withInputs m).fl = s.fl := rfl

@[simp] theorem withInputs_ip (s : State) (m : List HostMove) : (s.withInputs m).ip = s.ip := rfl

@[simp] theorem withInputs_mem (s : State) (m : List HostMove) : (s.withInputs m).mem = s.mem := rfl

@[simp] theorem withInputs_segs (s : State) (m : List HostMove) : (s.withInputs m).segs = s.segs := rfl

@[simp] theorem withInputs_halted (s : State) (m : List HostMove) : (s.withInputs m).halted = s.halted := rfl

@[simp] theorem withInputs_faultCause (s : State) (m : List HostMove) : (s.withInputs m).faultCause = s.faultCause := rfl

@[simp] theorem withInputs_base (s : State) (m : List HostMove) : (s.withInputs m).base = s.base := rfl

@[simp] theorem withInputs_params (s : State) (m : List HostMove) : (s.withInputs m).params = s.params := rfl

@[simp] theorem withInputs_inputs (s : State) (m : List HostMove) : (s.withInputs m).inputs = m := rfl

@[simp] theorem withInputs_responses (s : State) (m : List HostMove) : (s.withInputs m).responses = s.responses := rfl

@[simp] theorem withInputs_resets (s : State) (m : List HostMove) : (s.withInputs m).resets = s.resets := rfl

@[simp] theorem withInputs_readByteT (s : State) (m : List HostMove) (x : Nat) :
    (s.withInputs m).readByteT x = s.readByteT x := rfl

@[simp] theorem withInputs_vecCell (s : State) (m : List HostMove) (j : Fin 16) :
    (s.withInputs m).vecCell j = s.vecCell j := rfl

@[simp] theorem withInputs_gprCell (s : State) (m : List HostMove) (j : Fin 16) :
    (s.withInputs m).gprCell j = s.gprCell j := rfl

/-! ### Responses -/

theorem respondOk_eq (s : State) (d : List Elem) : s.respondOk d = s.onlyAnswers .ok .none d := rfl

theorem respondFail_eq (s : State) (r : Reason) : s.respondFail r = s.onlyAnswers .fail r [] := rfl

theorem respondHalted_eq (s : State) : s.respondHalted = s.onlyAnswers .fatal .halted [⟨8, s.faultCause⟩] := rfl

theorem raiseFatal_eq (s : State) (c : Cause) : s.raiseFatal c = s.faultedBy c := rfl

theorem answered_respond (s : State) (st : Status) (r : Reason) (d : List Elem) : Answered s (s.respond st r d) st r d :=
  ⟨rfl, rfl⟩

end Sys2Proof.Machine.State
end

