-- ==== Sys2Proof/Laws/Payload.lean ====
section
/-! SUPPORT. What the operand forms give on a payload, and when a payload is malformed (30_encoding.md R62). -/

namespace Sys2Proof.Machine

@[simp] theorem elemAs_mk (w : Nat) (v : BitVec w) : elemAs w ⟨w, v⟩ = some v := by simp [elemAs]

theorem elemAs_eq_none {w : Nat} {e : Elem} (h : e.width ≠ w) : elemAs w e = none := by simp [elemAs, h]

@[simp] theorem elemsAs_elems {w : Nat} (vs : List (BitVec w)) : elemsAs w (elems vs) = some vs := by
  induction vs with
  | nil => rfl
  | cons v vs ih => simp [elems, elemsAs] at ih ⊢; simp [ih]

theorem elemsAs_isSome (w : Nat) (es : List Elem) :
    (elemsAs w es).isSome = es.all fun e => decide (e.width = w) := by
  induction es with
  | nil => rfl
  | cons e es ih =>
    by_cases h : e.width = w
    · simp [elemsAs, elemAs, h, ← ih]
    · simp [elemsAs, elemAs, h]

theorem length_of_elemsAs {w : Nat} {es : List Elem} {vs : List (BitVec w)} (h : elemsAs w es = some vs) :
    vs.length = es.length := by
  induction es generalizing vs with
  | nil => simp [elemsAs] at h; simp [← h]
  | cons e es ih =>
    simp only [elemsAs, Option.bind_eq_some_iff, Option.map_eq_some_iff] at h
    obtain ⟨v, -, ws, hws, rfl⟩ := h
    simp [ih hws]

@[simp] theorem length_elems {w : Nat} (vs : List (BitVec w)) : (elems vs).length = vs.length := by simp [elems]

section
variable {s : State}

theorem noOperand_of_presents (h : s.presents none []) : noOperand s.port = true := by
  simp [noOperand, h.1, h.2]

theorem listOperand_of_presents {w : Nat} {vs : List (BitVec w)} {count : Nat} (h : s.presents none (elems vs))
    (hl : vs.length = count) : listOperand w count s.port = some vs := by
  simp [listOperand, h.1, h.2, hl]

theorem valueOperand_of_presents {w : Nat} {v : BitVec w} (h : s.presents none [⟨w, v⟩]) :
    valueOperand w s.port = some v := by
  have := listOperand_of_presents (w := w) (vs := [v]) (count := 1) h rfl
  simp [valueOperand, this]

theorem addrOperand_of_presents {a : Addr} (h : s.presents (some a) []) : addrOperand s.port = some a := by
  simp [addrOperand, h.1, h.2]

theorem addrListOperand_of_presents {w : Nat} {a : Addr} {vs : List (BitVec w)} {count : Nat}
    (h : s.presents (some a) (elems vs)) (hl : vs.length = count) :
    addrListOperand w count s.port = some (a, vs) := by
  simp [addrListOperand, h.1, h.2, hl]

theorem addrValueOperand_of_presents {w : Nat} {a : Addr} {v : BitVec w} (h : s.presents (some a) [⟨w, v⟩]) :
    addrValueOperand w s.port = some (a, v) := by
  have := addrListOperand_of_presents (w := w) (vs := [v]) (count := 1) h rfl
  simp [addrValueOperand, this]

end

/-! ### The shape of a payload -/

theorem noOperand_eq (r : Request) :
    noOperand r = (decide (r.addr.isSome = false) && decide (r.wdata.length = 0)) := by
  rcases r with ⟨c, a, d⟩
  cases a <;> cases d <;> simp [noOperand]

theorem listOperand_isSome (w count : Nat) (r : Request) :
    (listOperand w count r).isSome = (decide (r.addr.isSome = false) && decide (r.wdata.length = count)
      && r.wdata.all fun e => decide (e.width = w)) := by
  rcases r with ⟨c, a, d⟩
  cases a <;> by_cases h : d.length = count <;> simp [listOperand, h, elemsAs_isSome]

theorem valueOperand_isSome (w : Nat) (r : Request) :
    (valueOperand w r).isSome = (decide (r.addr.isSome = false) && decide (r.wdata.length = 1)
      && r.wdata.all fun e => decide (e.width = w)) := by
  rw [← listOperand_isSome, valueOperand]
  cases h : listOperand w 1 r with
  | none => rfl
  | some vs =>
    have hlen : vs.length = 1 := by
      unfold listOperand at h
      split at h
      · next hc => rw [length_of_elemsAs h, hc.2]
      · cases h
    match vs, hlen with
    | [v], _ => rfl

theorem addrOperand_isSome (r : Request) :
    (addrOperand r).isSome = (decide (r.addr.isSome = true) && decide (r.wdata.length = 0)) := by
  rcases r with ⟨c, a, d⟩
  cases a <;> cases d <;> simp [addrOperand]

theorem addrListOperand_isSome (w count : Nat) (r : Request) :
    (addrListOperand w count r).isSome = (decide (r.addr.isSome = true) && decide (r.wdata.length = count)
      && r.wdata.all fun e => decide (e.width = w)) := by
  rcases r with ⟨c, a, d⟩
  cases a <;> by_cases h : d.length = count <;> simp [addrListOperand, h, elemsAs_isSome]

theorem addrValueOperand_isSome (w : Nat) (r : Request) :
    (addrValueOperand w r).isSome = (decide (r.addr.isSome = true) && decide (r.wdata.length = 1)
      && r.wdata.all fun e => decide (e.width = w)) := by
  rw [← addrListOperand_isSome, addrValueOperand]
  cases h : addrListOperand w 1 r with
  | none => rfl
  | some p =>
    obtain ⟨a, vs⟩ := p
    have hlen : vs.length = 1 := by
      simp only [addrListOperand, Option.bind_eq_some_iff] at h
      obtain ⟨a', -, h⟩ := h
      split at h
      · next hc =>
        simp only [Option.map_eq_some_iff, Prod.mk.injEq] at h
        obtain ⟨ws, hws, -, rfl⟩ := h
        rw [length_of_elemsAs hws, hc]
      · cases h
    match vs, hlen with
    | [v], _ => rfl

/-! ### `payloadMatches`, by the shape a command asks for -/

theorem payloadMatches_none {i : Instr} (h : payloadShape i = ⟨false, 0, 0⟩) (r : Request) :
    payloadMatches i r = noOperand r := by
  rw [noOperand_eq, payloadMatches, h]
  cases r.wdata <;> simp

theorem payloadMatches_list {i : Instr} {count w : Nat} (h : payloadShape i = ⟨false, count, w⟩) (r : Request) :
    payloadMatches i r = (listOperand w count r).isSome := by
  rw [listOperand_isSome, payloadMatches, h]

theorem payloadMatches_value {i : Instr} {w : Nat} (h : payloadShape i = ⟨false, 1, w⟩) (r : Request) :
    payloadMatches i r = (valueOperand w r).isSome := by
  rw [valueOperand_isSome, payloadMatches, h]

theorem payloadMatches_addr {i : Instr} (h : payloadShape i = ⟨true, 0, 0⟩) (r : Request) :
    payloadMatches i r = (addrOperand r).isSome := by
  rw [addrOperand_isSome, payloadMatches, h]
  cases r.wdata <;> simp

theorem payloadMatches_addrList {i : Instr} {count w : Nat} (h : payloadShape i = ⟨true, count, w⟩) (r : Request) :
    payloadMatches i r = (addrListOperand w count r).isSome := by
  rw [addrListOperand_isSome, payloadMatches, h]

theorem payloadMatches_addrValue {i : Instr} {w : Nat} (h : payloadShape i = ⟨true, 1, w⟩) (r : Request) :
    payloadMatches i r = (addrValueOperand w r).isSome := by
  rw [addrValueOperand_isSome, payloadMatches, h]

end Sys2Proof.Machine
end

