-- ==== Sys2Proof/Laws/Memory.lean ====
section
/-! SUPPORT. The byte map: read after write, and the canonical form every operation keeps. -/

namespace Sys2Proof.Machine

namespace Memory

@[simp] theorem read_nil (a : Nat) : read [] a = 0 := rfl

theorem read_cons (k : Nat) (v : Byte) (m : Memory) (a : Nat) :
    read ((k, v) :: m) a = if a = k then v else read m a := rfl

/-- The canonical form of a list with a first cell. -/
theorem wf_cons (k : Nat) (v : Byte) (m : Memory) :
    wf ((k, v) :: m) = true ↔ v ≠ 0 ∧ (∀ c ∈ m, k < c.1) ∧ wf m = true := by
  induction m generalizing k v with
  | nil => simp only [wf, decide_eq_true_eq]; simp [unlisted]
  | cons c m ih =>
    obtain ⟨k', v'⟩ := c
    have h := ih k' v'
    constructor
    · intro hw
      simp only [wf, Bool.and_eq_true, decide_eq_true_eq] at hw
      obtain ⟨⟨hv, hk⟩, hm⟩ := hw
      refine ⟨hv, ?_, hm⟩
      intro c hc
      rcases List.mem_cons.1 hc with rfl | hc
      · exact hk
      · exact Nat.lt_trans hk ((h.1 hm).2.1 c hc)
    · rintro ⟨hv, hk, hm⟩
      simp only [wf, Bool.and_eq_true, decide_eq_true_eq]
      exact ⟨⟨hv, hk (k', v') (List.mem_cons_self ..)⟩, hm⟩

/-- An address below every listed one reads as an unlisted one. -/
theorem read_eq_zero_of_lt (m : Memory) (a : Nat) (h : ∀ c ∈ m, a < c.1) : read m a = 0 := by
  induction m with
  | nil => rfl
  | cons c m ih =>
    obtain ⟨k, v⟩ := c
    have hk : a ≠ k := Nat.ne_of_lt (h (k, v) (List.mem_cons_self ..))
    rw [read_cons, if_neg hk]
    exact ih fun c hc => h c (List.mem_cons_of_mem _ hc)

/-- A write leaves every other address alone, in any list. -/
theorem read_write_of_ne (m : Memory) (a x : Nat) (b : Byte) (hx : x ≠ a) : read (write m a b) x = read m x := by
  induction m with
  | nil =>
    unfold write
    split
    · rfl
    · simp [read_cons, hx]
  | cons c m ih =>
    obtain ⟨k, v⟩ := c
    unfold write
    split
    · split
      · rfl
      · rw [read_cons, if_neg hx]
    · split
      · next hak =>
        subst hak
        split
        · simp [read_cons, hx]
        · simp [read_cons, hx]
      · simp [read_cons, ih]

/-- In a canonical list, a read at the address written gives the byte written. -/
theorem read_write_self (m : Memory) (a : Nat) (b : Byte) (hm : wf m = true) : read (write m a b) a = b := by
  induction m with
  | nil =>
    unfold write
    split
    · next h => exact h.symm
    · simp [read_cons]
  | cons c m ih =>
    obtain ⟨k, v⟩ := c
    obtain ⟨-, hlt, hm'⟩ := (wf_cons k v m).1 hm
    unfold write
    split
    · next hak =>
      split
      · next hb =>
        rw [read_cons, if_neg (Nat.ne_of_lt hak), read_eq_zero_of_lt m a fun c hc => Nat.lt_trans hak (hlt c hc)]
        exact hb.symm
      · simp [read_cons]
    · split
      · next hak =>
        subst hak
        split
        · next hb => rw [read_eq_zero_of_lt m a hlt]; exact hb.symm
        · simp [read_cons]
      · next hne => rw [read_cons, if_neg hne, ih hm']

/-- Read after write, in a canonical list. -/
theorem read_write (m : Memory) (a x : Nat) (b : Byte) (hm : wf m = true) :
    read (write m a b) x = if x = a then b else read m x := by
  split
  · next h => subst h; exact read_write_self m x b hm
  · next h => exact read_write_of_ne m a x b h

/-- A cell after a write is the one written or one of before. -/
theorem mem_write (m : Memory) (a : Nat) (b : Byte) (c : Host.Cell) (hc : c ∈ write m a b) : c = (a, b) ∨ c ∈ m := by
  induction m with
  | nil =>
    unfold write at hc
    split at hc
    · cases hc
    · exact .inl (List.mem_singleton.1 hc)
  | cons d m ih =>
    obtain ⟨k, v⟩ := d
    unfold write at hc
    split at hc
    · split at hc
      · exact .inr hc
      · rcases List.mem_cons.1 hc with h | h
        · exact .inl h
        · exact .inr h
    · split at hc
      · split at hc
        · exact .inr (List.mem_cons_of_mem _ hc)
        · rcases List.mem_cons.1 hc with h | h
          · exact .inl h
          · exact .inr (List.mem_cons_of_mem _ h)
      · rcases List.mem_cons.1 hc with h | h
        · exact .inr (h ▸ List.mem_cons_self ..)
        · rcases ih h with h | h
          · exact .inl h
          · exact .inr (List.mem_cons_of_mem _ h)

/-- A write keeps the canonical form. -/
theorem wf_write (m : Memory) (a : Nat) (b : Byte) (hm : wf m = true) : wf (write m a b) = true := by
  induction m with
  | nil =>
    unfold write
    split
    · rfl
    · next h => exact (wf_cons a b []).2 ⟨h, by simp, rfl⟩
  | cons c m ih =>
    obtain ⟨k, v⟩ := c
    obtain ⟨hv, hlt, hm'⟩ := (wf_cons k v m).1 hm
    unfold write
    split
    · next hak =>
      split
      · exact hm
      · next hb =>
        refine (wf_cons a b _).2 ⟨hb, ?_, hm⟩
        intro c hc
        rcases List.mem_cons.1 hc with rfl | hc
        · exact hak
        · exact Nat.lt_trans hak (hlt c hc)
    · next hnlt =>
      split
      · next hak =>
        subst hak
        split
        · exact hm'
        · next hb => exact (wf_cons a b m).2 ⟨hb, hlt, hm'⟩
      · next hne =>
        refine (wf_cons k v _).2 ⟨hv, ?_, ih hm'⟩
        intro c hc
        rcases mem_write m a b c hc with rfl | hc
        · show k < a
          omega
        · exact hlt c hc

/-- Canonical lists that read alike are equal. -/
theorem ext_of_read (m m' : Memory) (hm : wf m = true) (hm' : wf m' = true) (h : ∀ a, read m a = read m' a) :
    m = m' := by
  induction m generalizing m' with
  | nil =>
    match m', hm' with
    | [], _ => rfl
    | (k, v) :: r, hm' =>
      have := h k
      rw [read_cons, if_pos rfl] at this
      exact absurd this.symm ((wf_cons k v r).1 hm').1
  | cons c m ih =>
    obtain ⟨k, v⟩ := c
    obtain ⟨hv, hlt, hw⟩ := (wf_cons k v m).1 hm
    match m', hm' with
    | [], _ =>
      have := h k
      rw [read_cons, if_pos rfl] at this
      exact absurd this hv
    | (k', v') :: r, hm' =>
      obtain ⟨hv', hlt', hw'⟩ := (wf_cons k' v' r).1 hm'
      have hkk : k = k' := by
        rcases Nat.lt_trichotomy k k' with hlt2 | rfl | hgt
        · have h1 := h k
          rw [read_cons, if_pos rfl, read_cons, if_neg (Nat.ne_of_lt hlt2),
            read_eq_zero_of_lt r k fun c hc => Nat.lt_trans hlt2 (hlt' c hc)] at h1
          exact absurd h1 hv
        · rfl
        · have h1 := h k'
          rw [read_cons, if_neg (Nat.ne_of_lt hgt), read_cons, if_pos rfl,
            read_eq_zero_of_lt m k' fun c hc => Nat.lt_trans hgt (hlt c hc)] at h1
          exact absurd h1.symm hv'
      subst hkk
      have hvv : v = v' := by simpa [read_cons] using h k
      subst hvv
      congr 1
      refine ih r hw hw' fun a => ?_
      by_cases hak : a = k
      · subst hak
        rw [read_eq_zero_of_lt m a hlt, read_eq_zero_of_lt r a hlt']
      · simpa [read_cons, hak] using h a

end Memory

/-! ### Bytes of the state -/

namespace State

theorem readByteT_writeByteT_of_ne (s : State) (a x : Nat) (b : Byte) (hx : x ≠ a) :
    (s.writeByteT a b).readByteT x = s.readByteT x := Memory.read_write_of_ne s.mem a x b hx

theorem readByteT_writeByteT (s : State) (a x : Nat) (b : Byte) (hm : Memory.wf s.mem = true) :
    (s.writeByteT a b).readByteT x = if x = a then b else s.readByteT x := Memory.read_write s.mem a x b hm

/-- What a write of bytes keeps, besides the bytes and the segments: everything. -/
theorem writeBytesT_eq (s : State) (t : Nat) (bs : List Byte) :
    s.writeBytesT t bs = { s with mem := (s.writeBytesT t bs).mem, segs := (s.writeBytesT t bs).segs } := by
  induction bs generalizing s t with
  | nil => rfl
  | cons b bs ih =>
    rw [writeBytesT, ih]
    rfl

theorem writeBytesT_wf (s : State) (t : Nat) (bs : List Byte) (hm : Memory.wf s.mem = true) :
    Memory.wf (s.writeBytesT t bs).mem = true := by
  induction bs generalizing s t with
  | nil => exact hm
  | cons b bs ih => exact ih _ _ (Memory.wf_write s.mem t b hm)

/-- A write of bytes leaves every byte outside them as it was, in any state. -/
theorem readByteT_writeBytesT_outside (s : State) (t : Nat) (bs : List Byte) (x : Nat)
    (hx : x < t ∨ t + bs.length ≤ x) : (s.writeBytesT t bs).readByteT x = s.readByteT x := by
  induction bs generalizing s t with
  | nil => rfl
  | cons b bs ih =>
    simp only [List.length_cons] at hx
    rw [writeBytesT, ih _ _ (by omega), readByteT_writeByteT_of_ne _ _ _ _ (by omega)]

/-- A write of bytes in a canonical memory: each byte stands at its address. -/
theorem readByteT_writeBytesT_inside (s : State) (t : Nat) (bs : List Byte) (k : Nat) (hk : k < bs.length)
    (hm : Memory.wf s.mem = true) : (s.writeBytesT t bs).readByteT (t + k) = bs.getD k 0 := by
  induction bs generalizing s t k with
  | nil => simp at hk
  | cons b bs ih =>
    rw [writeBytesT]
    cases k with
    | zero =>
      rw [readByteT_writeBytesT_outside _ _ _ _ (by omega), readByteT_writeByteT _ _ _ _ hm]
      simp
    | succ k =>
      have := ih (s.writeByteT t b) (t + 1) k (by simpa using hk) (Memory.wf_write s.mem t b hm)
      rw [show t + (k + 1) = t + 1 + k by omega, this]
      simp

end State

end Sys2Proof.Machine
end

