-- ==== Sys2Proof/Laws/Segments.lean ====
section
/-! SUPPORT. The segment store: which addresses are mapped, the invariants of 10_state.md R21, and the capacity. -/

namespace Sys2Proof.Machine

/-- A segment of whole chunks (10_state.md R21 items 1 and 2). -/
def Segment.chunked (g : Segment) : Prop := g.start % CHUNK = 0 ∧ g.len % CHUNK = 0 ∧ 0 < g.len

theorem segmentsWf_cons (g : Segment) (segs : List Segment) :
    segmentsWf (g :: segs) ↔ g.chunked ∧ (∀ h ∈ segs, g.stop < h.start) ∧ segmentsWf segs := by
  induction segs generalizing g with
  | nil => simp [segmentsWf, Segment.chunked]
  | cons h segs ih =>
    constructor
    · rintro ⟨hc, hlt, hw⟩
      refine ⟨hc, ?_, hw⟩
      intro x hx
      rcases List.mem_cons.1 hx with rfl | hx
      · exact hlt
      · have := (ih h).1 hw
        have h2 := this.2.1 x hx
        unfold Segment.stop at *
        omega
    · rintro ⟨hc, hlt, hw⟩
      exact ⟨hc, hlt h (List.mem_cons_self ..), hw⟩

/-- Sorted whole chunks that do not overlap, possibly adjacent: what `Coalesce` is given. -/
def sortedChunks : List Segment → Prop
  | [] => True
  | g :: segs => g.chunked ∧ (∀ h ∈ segs, g.stop ≤ h.start) ∧ sortedChunks segs

theorem sortedChunks_of_wf (segs : List Segment) (h : segmentsWf segs) : sortedChunks segs := by
  induction segs with
  | nil => trivial
  | cons g segs ih =>
    obtain ⟨hc, hlt, hw⟩ := (segmentsWf_cons g segs).1 h
    exact ⟨hc, fun x hx => Nat.le_of_lt (hlt x hx), ih hw⟩

/-! ### Which addresses are mapped -/

@[simp] theorem isMapped_nil (t : Nat) : isMapped [] t = false := rfl

theorem isMapped_cons (g : Segment) (segs : List Segment) (t : Nat) :
    isMapped (g :: segs) t = (g.covers t || isMapped segs t) := rfl

theorem covers_iff (g : Segment) (t : Nat) : g.covers t = true ↔ g.start ≤ t ∧ t < g.start + g.len := by
  rw [Segment.covers, Bool.and_eq_true, decide_eq_true_eq, decide_eq_true_eq]
  rfl

theorem isMapped_iff (segs : List Segment) (t : Nat) :
    isMapped segs t = true ↔ ∃ g ∈ segs, g.start ≤ t ∧ t < g.start + g.len := by
  simp [isMapped, covers_iff]

theorem isMapped_insertSegment (new : Segment) (segs : List Segment) (t : Nat) :
    isMapped (insertSegment new segs) t = (new.covers t || isMapped segs t) := by
  induction segs with
  | nil => rfl
  | cons g segs ih =>
    unfold insertSegment
    split
    · rfl
    · rw [isMapped_cons, ih, isMapped_cons, Bool.or_left_comm]

theorem covers_merge (g h : Segment) (hgh : g.stop = h.start) (t : Nat) :
    (Segment.mk g.start (g.len + h.len)).covers t = (g.covers t || h.covers t) := by
  rw [Bool.eq_iff_iff, Bool.or_eq_true, covers_iff, covers_iff, covers_iff]
  unfold Segment.stop at hgh
  simp only
  omega

theorem isMapped_coalesceFrom (cur : Segment) (segs : List Segment) (t : Nat) :
    isMapped (coalesceFrom cur segs) t = (cur.covers t || isMapped segs t) := by
  induction segs generalizing cur with
  | nil => rfl
  | cons g segs ih =>
    unfold coalesceFrom
    split
    · next h => rw [ih, covers_merge cur g h, isMapped_cons, Bool.or_assoc]
    · rw [isMapped_cons, ih, isMapped_cons]

theorem isMapped_coalesce (segs : List Segment) (t : Nat) : isMapped (coalesce segs) t = isMapped segs t := by
  cases segs with
  | nil => rfl
  | cons g segs => rw [coalesce, isMapped_coalesceFrom, isMapped_cons]

/-- The chunk of t covers exactly the addresses of its chunk number. -/
theorem covers_chunk (t a : Nat) : (Segment.mk (chunkStart t) CHUNK).covers a = true ↔ a / CHUNK = t / CHUNK := by
  rw [covers_iff]
  unfold chunkStart CHUNK
  simp only
  omega

/-- In a list of whole chunks, being mapped is a property of the chunk number. -/
theorem isMapped_chunk (segs : List Segment) (hw : sortedChunks segs) (a b : Nat) (hab : a / CHUNK = b / CHUNK) :
    isMapped segs a = isMapped segs b := by
  induction segs with
  | nil => rfl
  | cons g segs ih =>
    obtain ⟨⟨h1, h2, -⟩, -, hw'⟩ := hw
    rw [isMapped_cons, isMapped_cons, ih hw']
    congr 1
    rw [Bool.eq_iff_iff, covers_iff, covers_iff]
    unfold CHUNK at *
    omega

theorem isMapped_allocateAt (segs : List Segment) (t a : Nat) (hw : sortedChunks segs) :
    isMapped (allocateAt segs t) a = true ↔ isMapped segs a = true ∨ a / CHUNK = t / CHUNK := by
  unfold allocateAt
  split
  · next h =>
    constructor
    · exact .inl
    · rintro (h' | h')
      · exact h'
      · rw [isMapped_chunk segs hw a t h']; exact h
  · rw [isMapped_coalesce, isMapped_insertSegment, Bool.or_eq_true, covers_chunk]
    exact Or.comm

theorem isMapped_allocateAt_self (segs : List Segment) (t : Nat) : isMapped (allocateAt segs t) t = true := by
  unfold allocateAt
  split
  · next h => exact h
  · rw [isMapped_coalesce, isMapped_insertSegment, Bool.or_eq_true, covers_chunk]
    exact .inl rfl

/-- What was mapped stays mapped, in any list. -/
theorem isMapped_allocateAt_of_mapped (segs : List Segment) (t a : Nat) (h : isMapped segs a = true) :
    isMapped (allocateAt segs t) a = true := by
  unfold allocateAt
  split
  · exact h
  · rw [isMapped_coalesce, isMapped_insertSegment, h, Bool.or_true]

/-! ### The invariants of R21 -/

theorem mem_insertSegment (new : Segment) (segs : List Segment) (x : Segment) (hx : x ∈ insertSegment new segs) :
    x = new ∨ x ∈ segs := by
  induction segs with
  | nil => exact .inl (List.mem_singleton.1 hx)
  | cons g segs ih =>
    unfold insertSegment at hx
    split at hx
    · exact List.mem_cons.1 hx
    · rcases List.mem_cons.1 hx with h | h
      · exact .inr (h ▸ List.mem_cons_self ..)
      · rcases ih h with h | h
        · exact .inl h
        · exact .inr (List.mem_cons_of_mem _ h)

theorem sortedChunks_insertSegment (new : Segment) (segs : List Segment) (hn : new.chunked)
    (hw : sortedChunks segs) (hd : ∀ g ∈ segs, new.stop ≤ g.start ∨ g.stop ≤ new.start) :
    sortedChunks (insertSegment new segs) := by
  induction segs with
  | nil => exact ⟨hn, by simp, trivial⟩
  | cons g segs ih =>
    obtain ⟨hc, hlt, hw'⟩ := hw
    have hg := hd g (List.mem_cons_self ..)
    have hnl := hn.2.2
    have hgl := hc.2.2
    unfold insertSegment
    split
    · next hle =>
      refine ⟨hn, ?_, hc, hlt, hw'⟩
      intro x hx
      unfold Segment.stop at *
      rcases List.mem_cons.1 hx with rfl | hx
      · omega
      · have := hlt x hx
        omega
    · next hle =>
      refine ⟨hc, ?_, ih hw' fun x hx => hd x (List.mem_cons_of_mem _ hx)⟩
      intro x hx
      unfold Segment.stop at *
      rcases mem_insertSegment new segs x hx with rfl | hx
      · omega
      · exact hlt x hx

theorem coalesceFrom_wf (cur : Segment) (segs : List Segment) (hw : sortedChunks (cur :: segs)) :
    segmentsWf (coalesceFrom cur segs) ∧ ∀ x ∈ coalesceFrom cur segs, cur.start ≤ x.start := by
  induction segs generalizing cur with
  | nil =>
    refine ⟨hw.1, ?_⟩
    intro x hx
    rw [List.mem_singleton.1 hx]
  | cons g segs ih =>
    obtain ⟨hc, hlt, hcg, hltg, hw'⟩ := hw
    unfold coalesceFrom
    split
    · next h =>
      have := ih ⟨cur.start, cur.len + g.len⟩ ⟨?_, ?_, hw'⟩
      · exact this
      · obtain ⟨a1, a2, a3⟩ := hc
        obtain ⟨b1, b2, b3⟩ := hcg
        refine ⟨a1, ?_, ?_⟩ <;> simp only <;> unfold CHUNK at * <;> omega
      · intro x hx
        have := hltg x hx
        unfold Segment.stop at *
        simp only
        omega
    · next h =>
      have hle := hlt g (List.mem_cons_self ..)
      obtain ⟨hwf, hst⟩ := ih g ⟨hcg, hltg, hw'⟩
      have hgs : cur.stop < g.start := by omega
      refine ⟨(segmentsWf_cons _ _).2 ⟨hc, fun x hx => Nat.lt_of_lt_of_le hgs (hst x hx), hwf⟩, ?_⟩
      intro x hx
      rcases List.mem_cons.1 hx with rfl | hx
      · exact Nat.le_refl _
      · have := hst x hx
        unfold Segment.stop at *
        omega

theorem coalesce_wf (segs : List Segment) (hw : sortedChunks segs) : segmentsWf (coalesce segs) := by
  cases segs with
  | nil => trivial
  | cons g segs => exact (coalesceFrom_wf g segs hw).1

/-- An unmapped address lies in a chunk that overlaps no segment. -/
theorem chunk_disjoint (segs : List Segment) (t : Nat) (hw : sortedChunks segs) (ht : isMapped segs t = false) :
    ∀ g ∈ segs, (Segment.mk (chunkStart t) CHUNK).stop ≤ g.start ∨ g.stop ≤ (Segment.mk (chunkStart t) CHUNK).start := by
  induction segs with
  | nil => simp
  | cons h segs ih =>
    obtain ⟨⟨h1, h2, h3⟩, -, hw'⟩ := hw
    rw [isMapped_cons, Bool.or_eq_false_iff] at ht
    intro g hg
    rcases List.mem_cons.1 hg with rfl | hg
    · have hc : ¬(g.start ≤ t ∧ t < g.start + g.len) := by
        rw [← covers_iff]; simp [ht.1]
      unfold Segment.stop chunkStart CHUNK at *
      simp only
      omega
    · exact ih hw' ht.2 g hg

theorem chunked_chunk (t : Nat) : (Segment.mk (chunkStart t) CHUNK).chunked := by
  refine ⟨?_, ?_, ?_⟩ <;> unfold chunkStart CHUNK <;> simp only <;> omega

theorem sortedChunks_insert_chunk (segs : List Segment) (t : Nat) (hw : sortedChunks segs)
    (ht : isMapped segs t = false) : sortedChunks (insertSegment ⟨chunkStart t, CHUNK⟩ segs) :=
  sortedChunks_insertSegment _ _ (chunked_chunk t) hw (chunk_disjoint segs t hw ht)

theorem allocateAt_wf (segs : List Segment) (t : Nat) (hw : segmentsWf segs) : segmentsWf (allocateAt segs t) := by
  unfold allocateAt
  split
  · exact hw
  · next h =>
    exact coalesce_wf _ (sortedChunks_insert_chunk segs t (sortedChunks_of_wf segs hw) (by simpa using h))

/-! ### The capacity -/

theorem allocated_cons (g : Segment) (segs : List Segment) :
    allocated (g :: segs) = g.len / CHUNK + allocated segs := by simp [allocated]

theorem allocated_insertSegment (new : Segment) (segs : List Segment) :
    allocated (insertSegment new segs) = new.len / CHUNK + allocated segs := by
  induction segs with
  | nil => rfl
  | cons g segs ih =>
    unfold insertSegment
    split
    · exact allocated_cons _ _
    · rw [allocated_cons, ih, allocated_cons]; omega

theorem allocated_coalesceFrom (cur : Segment) (segs : List Segment) (hw : sortedChunks (cur :: segs)) :
    allocated (coalesceFrom cur segs) = cur.len / CHUNK + allocated segs := by
  induction segs generalizing cur with
  | nil => exact allocated_cons _ _
  | cons g segs ih =>
    obtain ⟨hc, hlt, hcg, hltg, hw'⟩ := hw
    unfold coalesceFrom
    split
    · next h =>
      rw [ih ⟨cur.start, cur.len + g.len⟩ ⟨?_, ?_, hw'⟩, allocated_cons]
      · obtain ⟨a1, a2, a3⟩ := hc
        obtain ⟨b1, b2, b3⟩ := hcg
        unfold CHUNK at *
        simp only
        omega
      · obtain ⟨a1, a2, a3⟩ := hc
        obtain ⟨b1, b2, b3⟩ := hcg
        refine ⟨a1, ?_, ?_⟩ <;> simp only <;> unfold CHUNK at * <;> omega
      · intro x hx
        have := hltg x hx
        unfold Segment.stop at *
        simp only
        omega
    · rw [allocated_cons, ih g ⟨hcg, hltg, hw'⟩, allocated_cons]

theorem allocated_allocateAt (segs : List Segment) (t : Nat) (hw : segmentsWf segs) :
    allocated (allocateAt segs t) = allocated segs + if isMapped segs t = true then 0 else 1 := by
  unfold allocateAt
  split
  · rfl
  · next h =>
    have hs := sortedChunks_insert_chunk segs t (sortedChunks_of_wf segs hw) (by simpa using h)
    have hi := allocated_insertSegment ⟨chunkStart t, CHUNK⟩ segs
    cases hl : insertSegment ⟨chunkStart t, CHUNK⟩ segs with
    | nil => rw [hl] at hi; simp [allocated, CHUNK] at hi; omega
    | cons g r =>
      rw [hl] at hs hi
      rw [coalesce, allocated_coalesceFrom g r hs, ← allocated_cons, hi]
      simp [CHUNK]; omega

/-- The chunks an access needs, as a count over the chunk numbers it touches. -/
theorem chunksNeeded_eq (segs : List Segment) (t n : Nat) :
    chunksNeeded segs t n =
      ((List.range' (t / CHUNK) ((t + n - 1) / CHUNK + 1 - t / CHUNK)).map
        fun c => if isMapped segs (CHUNK * c) = true then 0 else 1).sum := by
  unfold chunksNeeded
  generalize List.range' (t / CHUNK) ((t + n - 1) / CHUNK + 1 - t / CHUNK) = l
  induction l with
  | nil => rfl
  | cons c l ih =>
    by_cases h : isMapped segs (CHUNK * c) = true
    · simp [h, ih]
    · simp [h, ih]; omega

/-- Writing the first byte of an access takes a chunk from what the access needs, or none. -/
theorem chunksNeeded_step (segs : List Segment) (t n : Nat) (hw : segmentsWf segs) :
    chunksNeeded segs t (n + 1) + allocated segs =
      (if n = 0 then 0 else chunksNeeded (allocateAt segs t) (t + 1) n) + allocated (allocateAt segs t) := by
  have hs := sortedChunks_of_wf segs hw
  have hmap : ∀ c, isMapped (allocateAt segs t) (CHUNK * c) = true ↔ isMapped segs (CHUNK * c) = true ∨ c = t / CHUNK := by
    intro c
    rw [isMapped_allocateAt segs t _ hs, Nat.mul_div_cancel_left c (by decide : 0 < CHUNK)]
  have htt : isMapped segs (CHUNK * (t / CHUNK)) = isMapped segs t :=
    isMapped_chunk segs hs _ _ (Nat.mul_div_cancel_left _ (by decide : 0 < CHUNK))
  have htail : ∀ m, ((List.range' (t / CHUNK + 1) m).map fun c => if isMapped segs (CHUNK * c) = true then 0 else 1).sum
      = ((List.range' (t / CHUNK + 1) m).map
          fun c => if isMapped (allocateAt segs t) (CHUNK * c) = true then 0 else 1).sum := by
    intro m
    congr 1
    apply List.map_congr_left
    intro c hc
    have hc' : c ≠ t / CHUNK := by
      have := (List.mem_range'_1.1 hc).1
      omega
    have := hmap c
    by_cases h : isMapped segs (CHUNK * c) = true <;> simp [h, hc'] at this ⊢ <;> simp [this]
  have hself : isMapped (allocateAt segs t) (CHUNK * (t / CHUNK)) = true := (hmap _).2 (.inr rfl)
  rw [allocated_allocateAt segs t hw]
  rcases Nat.eq_zero_or_pos n with rfl | hn
  · rw [chunksNeeded_eq]
    have : (t + 1 - 1) / CHUNK + 1 - t / CHUNK = 1 := by simp
    simp only [Nat.zero_add, this, List.range'_one, List.map_cons, List.map_nil, List.sum_cons, List.sum_nil, htt]
    split <;> simp +arith
  · rw [if_neg (by omega), chunksNeeded_eq, chunksNeeded_eq]
    have hlast : t + (n + 1) - 1 = t + 1 + n - 1 := by omega
    rw [hlast]
    obtain ⟨m, hm⟩ : ∃ m, (t + 1 + n - 1) / CHUNK + 1 - t / CHUNK = m + 1 :=
      ⟨(t + 1 + n - 1) / CHUNK - t / CHUNK, by
        have : t / CHUNK ≤ (t + 1 + n - 1) / CHUNK := Nat.div_le_div_right (by omega)
        omega⟩
    rw [hm, List.range'_succ, List.map_cons, List.sum_cons, htt, htail m]
    rcases Nat.lt_or_ge (t / CHUNK) ((t + 1) / CHUNK) with hcross | hsame
    · have h1 : (t + 1) / CHUNK = t / CHUNK + 1 := by unfold CHUNK at *; omega
      have h2 : (t + 1 + n - 1) / CHUNK + 1 - (t + 1) / CHUNK = m := by omega
      rw [h2, h1]
      split <;> omega
    · have h1 : (t + 1) / CHUNK = t / CHUNK := by unfold CHUNK at *; omega
      rw [h1, hm, List.range'_succ, List.map_cons, List.sum_cons, if_pos hself]
      split <;> omega

end Sys2Proof.Machine
end

