-- ==== Sys2Proof/Laws/Ops.lean ====
section
/-! SUPPORT. What a command can do, once for all of them: `exec_result` says how every meaning ends; `Written` is what
the checked element writes can have done to memory. Later proofs cite these and do not unfold a meaning. -/

namespace Sys2Proof.Machine

/-! ### Checked writes of elements -/

/-- The states that checked element writes lead to from `s` (42_memory_ops.md R94, R97). -/
inductive Written (s : State) : State → Prop
  | refl : Written s s
  | step {u : State} {w : Nat} (e : Nat) (v : BitVec w) (hw : 8 ≤ w) (hu : Written s u)
      (hc : u.accessFault e (w / 8) .write = none) : Written s (u.memWrite e v)

theorem memWrite_eq (s : State) {w : Nat} (e : Nat) (v : BitVec w) :
    s.memWrite e v = { s with mem := (s.memWrite e v).mem, segs := (s.memWrite e v).segs } :=
  State.writeBytesT_eq _ _ _

/-- Element writes change the bytes and the segments, nothing else. -/
theorem Written.eq {s u : State} (h : Written s u) : u = { s with mem := u.mem, segs := u.segs } := by
  induction h with
  | refl => rfl
  | step e v hw hu hc ih =>
    rw [memWrite_eq]
    rw [ih]

theorem writeElements_written (s : State) {w : Nat} (vs : List (BitVec w)) (e : Nat) (hw : 8 ≤ w) (u : State)
    (hu : Written s u) : Written s (u.writeElements vs e).1 := by
  induction vs generalizing u e with
  | nil => exact hu
  | cons v vs ih =>
    unfold State.writeElements
    split
    · exact hu
    · next hc => exact ih _ _ (.step e v hw hu hc)

/-! ### The checks -/

@[simp] theorem admits_none (segs : List Segment) (t n : Nat) : admits none segs t n = true := rfl

@[simp] theorem admits_some (m : Nat) (segs : List Segment) (t n : Nat) :
    admits (some m) segs t n = true ↔ allocated segs + chunksNeeded segs t n ≤ m := by
  simp only [admits, decide_eq_true_eq]

theorem accessFault_none_iff (s : State) (e n : Nat) (kind : AccessKind) (hn : 0 < n) :
    s.accessFault e n kind = none ↔ s.base.toNat ≤ e ∧ e + n ≤ 2 ^ 64 ∧
      (kind = .write → admits s.params.maxChunks s.segs (s.translate e) n = true) := by
  unfold State.accessFault AW
  split
  · next h => simp; omega
  · next h =>
    split
    · next h' => simp; omega
    · next h' =>
      split
      · next h'' => simp [h''.1, h''.2]
      · next h'' =>
        simp only [true_iff]
        refine ⟨by omega, by omega, fun hk => ?_⟩
        simpa [hk] using h''

theorem accessFault_read (s : State) (e n : Nat) (hn : 0 < n) (h1 : s.base.toNat ≤ e) (h2 : e + n ≤ 2 ^ 64) :
    s.accessFault e n .read = none := (accessFault_none_iff s e n .read hn).2 ⟨h1, h2, nofun⟩

theorem accessFault_below (s : State) (e n : Nat) (kind : AccessKind) (h : e < s.base.toNat) :
    s.accessFault e n kind = some .addrBelowBase := by simp [State.accessFault, h]

theorem accessFault_above (s : State) (e n : Nat) (kind : AccessKind) (h1 : s.base.toNat ≤ e)
    (h2 : 2 ^ 64 < e + n) : s.accessFault e n kind = some .addrOverflow := by
  unfold State.accessFault AW
  rw [if_neg (by omega), if_pos (by omega)]

/-! ### How every command ends -/

/-- The ways a command ends: the fault of its payload or its rule, a failure of R102, or OK with the one write its rule
allows; a memory write may fault after some elements only in MWRV. -/
inductive ExecResult (i : Instr) (s : State) : State → Prop
  | fatal (c : Cause) : ExecResult i s (s.raiseFatal c)
  | fail (r : Reason) (hr : failReason s.params i = some r) : ExecResult i s (s.respondFail r)
  | vec (idx : Fin 16) (v : VecCell) (d : List Elem) (hi : vecIndex i = some idx) (hf : failReason s.params i = none) :
      ExecResult i s ((s.setVec idx v).respondOk d)
  | gpr (view : GprView) (idx : Fin 16) (v : Word) (hi : i = .gprset view idx) :
      ExecResult i s ((s.setGpr idx v).respondOk [])
  | fl (view : CellView) (v : Word) (hi : i = .flset view) : ExecResult i s ((s.setFl v).respondOk [])
  | ip (view : CellView) (v : Word) (hi : i = .ipset view) : ExecResult i s ((s.setIp v).respondOk [])
  | read (d : List Elem) (hf : failReason s.params i = none) : ExecResult i s (s.respondOk d)
  | write (u : State) (hi : writesMemory i = true) (hu : Written s u) : ExecResult i s (u.respondOk [])
  | writeFault (u : State) (c : Cause) (wc : Width) (count : Fin 65536) (hi : i = .mwrv wc count)
      (hu : Written s u) : ExecResult i s (u.raiseFatal c)

theorem orderSelector_none {o : SelectorOrder} {a b : Fin 512} (h : orderSelector o a b = none) :
    a.val < b.val ∧ o = .reject := by
  unfold orderSelector at h
  split at h
  · cases h
  · next hlt => cases o <;> simp_all

theorem orderSelector_some {o : SelectorOrder} {a b : Fin 512} {p : Nat × Nat} (h : orderSelector o a b = some p) :
    ¬(a.val < b.val ∧ o = .reject) := by
  rintro ⟨hlt, rfl⟩
  unfold orderSelector at h
  rw [if_neg (by omega)] at h
  cases h

theorem writeElement_result (i : Instr) (s : State) {w : Nat} (e : Nat) (v : BitVec w) (hw : 8 ≤ w)
    (hi : writesMemory i = true) : ExecResult i s (s.writeElement e v) := by
  unfold State.writeElement
  split
  · exact .fatal _
  · next h => exact .write _ hi (.step e v hw .refl h)

theorem finishRead_result (i : Instr) (s : State) {w : Nat} (r : Except Cause (BitVec w))
    (hf : failReason s.params i = none) : ExecResult i s (s.finishRead r) := by
  cases r with
  | error c => exact .fatal c
  | ok v => exact .read _ hf

/-- Every command answers a next state, in one of the ways of `ExecResult`. -/
theorem exec_result (i : Instr) (s : State) : ∃ t, exec i s = .next t ∧ ExecResult i s t := by
  cases i with
  | vsetbit win idx pos val =>
    refine ⟨_, rfl, ?_⟩
    split
    · split
      · next h => exact .fail _ (by simp [failReason, h])
      · next h => exact .vec idx _ _ rfl (by simp [failReason, h])
    · exact .fatal _
  | vgetbit win idx pos =>
    refine ⟨_, rfl, ?_⟩
    split
    · split
      · next h => exact .fail _ (by simp [failReason, h])
      · next h => exact .read _ (by simp [failReason, h])
    · exact .fatal _
  | vgetsec win idx wc =>
    refine ⟨_, rfl, ?_⟩
    split
    · exact .read _ rfl
    · exact .fatal _
  | vsetsec win idx wc count =>
    refine ⟨_, rfl, ?_⟩
    split
    · exact .fatal _
    · split
      · next h => exact .fail _ (by simp [failReason, h])
      · next h => exact .vec idx _ _ rfl (by simp only [failReason]; rw [if_neg h])
  | vgetsel win idx wc a b =>
    refine ⟨_, rfl, ?_⟩
    split
    · split
      · next h => exact .fail _ (if_pos (orderSelector_none h))
      · next h =>
        split
        · exact .fatal _
        · exact .read _ (if_neg (orderSelector_some h))
    · exact .fatal _
  | vsetsel win idx wc a b =>
    refine ⟨_, rfl, ?_⟩
    split
    · exact .fatal _
    · split
      · next h => exact .fail _ (if_pos (orderSelector_none h))
      · next h => exact .vec idx _ _ rfl (if_neg (orderSelector_some h))
  | vclear idx =>
    refine ⟨_, rfl, ?_⟩
    split
    · exact .vec idx _ _ rfl rfl
    · exact .fatal _
  | gprset view idx =>
    refine ⟨_, rfl, ?_⟩
    split
    · exact .fatal _
    · exact .gpr view idx _ rfl
  | gprget view idx =>
    refine ⟨_, rfl, ?_⟩
    split
    · exact .read _ rfl
    · exact .fatal _
  | flset view =>
    refine ⟨_, rfl, ?_⟩
    split
    · exact .fatal _
    · exact .fl view _ rfl
  | flget view =>
    refine ⟨_, rfl, ?_⟩
    split
    · exact .read _ rfl
    · exact .fatal _
  | ipset view =>
    refine ⟨_, rfl, ?_⟩
    split
    · exact .fatal _
    · exact .ip view _ rfl
  | ipget view =>
    refine ⟨_, rfl, ?_⟩
    split
    · exact .read _ rfl
    · exact .fatal _
  | mrdb =>
    refine ⟨_, rfl, ?_⟩
    split
    · exact .fatal _
    · exact finishRead_result _ _ _ rfl
  | mwrb =>
    refine ⟨_, rfl, ?_⟩
    split
    · exact .fatal _
    · exact writeElement_result _ _ _ _ (Nat.le_refl 8) rfl
  | mrd wc =>
    refine ⟨_, rfl, ?_⟩
    split
    · exact .fatal _
    · exact finishRead_result _ _ _ rfl
  | mwr wc =>
    refine ⟨_, rfl, ?_⟩
    split
    · exact .fatal _
    · exact writeElement_result _ _ _ _ (Width.eight_le wc) rfl
  | mrdv wc count =>
    refine ⟨_, rfl, ?_⟩
    split
    · exact .fatal _
    · split
      · exact .fatal _
      · exact .read _ rfl
  | mwrv wc count =>
    refine ⟨_, rfl, ?_⟩
    split
    · exact .fatal _
    · next addr vs _ =>
      have hw := writeElements_written s vs addr.toNat (Width.eight_le wc) s .refl
      split
      · next t c h => rw [h] at hw; exact .writeFault _ _ wc count rfl hw
      · next t h => rw [h] at hw; exact .write _ rfl hw

/-- The inversion of a command: if it answers t, t is one of its results. -/
theorem exec_inversion {i : Instr} {s t : State} (h : exec i s = .next t) : ExecResult i s t := by
  obtain ⟨u, hu, hr⟩ := exec_result i s
  rw [hu] at h
  cases h
  exact hr

/-! ### What holds of every result -/

/-- The request leaves the port and one response is added (30_encoding.md R48). -/
theorem ExecResult.answered {i : Instr} {s t : State} (h : ExecResult i s t) :
    ∃ resp, t.inputs = s.inputs.tail ∧ t.responses = s.responses ++ [resp]
      ∧ (resp.status = .ok ↔ resp.reason = .none) ∧ (resp.status = .fail → resp.rdata = []) := by
  have hc : ∀ c : Cause, c.reason ≠ .none := by intro c; cases c <;> nofun
  have hfail : ∀ r, failReason s.params i = some r → r ≠ .none := by
    intro r hr h0
    subst h0
    cases i <;> simp [failReason] at hr
  cases h with
  | fatal c => exact ⟨_, rfl, rfl, by simp [hc c], by simp⟩
  | fail r hr => exact ⟨_, rfl, rfl, by simp [hfail r hr], by simp⟩
  | vec idx v d hi hf => exact ⟨_, rfl, rfl, by simp, by simp⟩
  | gpr view idx v hi => exact ⟨_, rfl, rfl, by simp, by simp⟩
  | fl view v hi => exact ⟨_, rfl, rfl, by simp, by simp⟩
  | ip view v hi => exact ⟨_, rfl, rfl, by simp, by simp⟩
  | read d hf => exact ⟨_, rfl, rfl, by simp, by simp⟩
  | write u hi hu => rw [hu.eq]; exact ⟨_, rfl, rfl, by simp, by simp⟩
  | writeFault u c wc count hi hu => rw [hu.eq]; exact ⟨_, rfl, rfl, by simp [hc c], by simp⟩

/-- BASE, the parameters and the reset counter stay (10_state.md R22, R29). -/
theorem ExecResult.config {i : Instr} {s t : State} (h : ExecResult i s t) : SameConfig s t := by
  cases h with
  | write u hi hu => rw [hu.eq]; exact ⟨rfl, rfl, rfl⟩
  | writeFault u c wc count hi hu => rw [hu.eq]; exact ⟨rfl, rfl, rfl⟩
  | _ => exact ⟨rfl, rfl, rfl⟩

/-- Element writes touch no register, no status and no port. -/
theorem Written.frame {s u : State} (h : Written s u) :
    SameVec s u ∧ SameGpr s u ∧ u.fl = s.fl ∧ u.ip = s.ip ∧ SameFault s u ∧ SameConfig s u
      ∧ u.inputs = s.inputs ∧ u.responses = s.responses := by
  rw [h.eq]
  exact ⟨fun _ => rfl, fun _ => rfl, rfl, rfl, ⟨rfl, rfl⟩, ⟨rfl, rfl, rfl⟩, rfl, rfl⟩

end Sys2Proof.Machine
end

