-- ==== Sys2Proof/Laws/Step.lean ====
section
/-! SUPPORT. What a step can do, once: the moves of the host, and serving a request (60_exceptions.md R106). -/

namespace Sys2Proof.Machine

theorem port_of_request {s : State} {r : Request} {later : List HostMove} (h : s.inputs = .request r :: later) :
    s.port = r := by simp [State.port, h]

theorem step_of_request {s : State} {r : Request} {later : List HostMove} (h : s.inputs = .request r :: later) :
    step s = s.serve := by simp [step, State.serveMove, h]

theorem step_of_reset {s : State} {base : Addr} {abandoned : Option Request} {later : List HostMove}
    (h : s.inputs = .reset base abandoned :: later) : step s = .next (s.takeReset base later) := by
  simp [step, State.serveMove, h]

theorem serve_of_halted {s : State} (h : s.halted = true) : s.serve = .next s.respondHalted := by
  simp [State.serve, h]

theorem serve_of_illegal {s : State} (h : s.halted = false) (hd : decode s.port.cmd = none) :
    s.serve = .next (s.raiseFatal .illegalCommand) := by simp [State.serve, h, hd]

theorem serve_of_decode {s : State} {i : Instr} (h : s.halted = false) (hd : decode s.port.cmd = some i) :
    s.serve = exec i s := by simp [State.serve, h, hd]

/-- Serving a request: the halted answer, the illegal word, or a result of its command. -/
theorem serve_result (s : State) :
    (s.halted = true ∧ s.serve = .next s.respondHalted)
    ∨ (s.halted = false ∧ decode s.port.cmd = none ∧ s.serve = .next (s.raiseFatal .illegalCommand))
    ∨ ∃ i t, s.halted = false ∧ decode s.port.cmd = some i ∧ s.serve = .next t ∧ ExecResult i s t := by
  cases hh : s.halted with
  | true => exact .inl ⟨rfl, serve_of_halted hh⟩
  | false =>
    cases hd : decode s.port.cmd with
    | none => exact .inr (.inl ⟨rfl, rfl, serve_of_illegal hh hd⟩)
    | some i =>
      obtain ⟨t, ht, hr⟩ := exec_result i s
      exact .inr (.inr ⟨i, t, rfl, rfl, (serve_of_decode hh hd).trans ht, hr⟩)

/-- A step: the reset, nothing to do, the host's own SELECTOR_PARSE, or a request served, with the moves to come
as they are or with an encoded selector command at their head. -/
theorem step_cases (s : State) :
    (∃ base abandoned later, s.inputs = .reset base abandoned :: later ∧ step s = .next (s.takeReset base later))
    ∨ (s.inputs = [] ∧ step s = .next s)
    ∨ step s = .next (s.respondFail .selectorParse)
    ∨ ∃ r later, step s = State.serve { s with inputs := .request r :: later } := by
  cases hin : s.inputs with
  | nil => exact .inr (.inl ⟨rfl, by simp [step, State.serveMove, hin]⟩)
  | cons m later =>
    cases m with
    | request r =>
      refine .inr (.inr (.inr ⟨r, later, ?_⟩))
      rw [step_of_request hin, ← hin]
    | selector c =>
      cases he : encodeSelectorCall c with
      | none => exact .inr (.inr (.inl (by simp [step, State.serveMove, hin, State.serveSelector, he])))
      | some r =>
        exact .inr (.inr (.inr ⟨r, later, by simp [step, State.serveMove, hin, State.serveSelector, he]⟩))
    | reset base abandoned => exact .inl ⟨base, abandoned, later, rfl, step_of_reset hin⟩

/-- One more step of a run. -/
theorem run_succ {n : Nat} {s t : State} (h : step s = .next t) : run (n + 1) s = run n t := by
  rw [run, h]

end Sys2Proof.Machine
end

