-- ==== Sys2Proof/Laws/Invariant.lean ====
section
/-! SUPPORT. Writes of bytes and the segment store, the capacity they take, and the invariant they keep. -/

namespace Sys2Proof.Machine

theorem segmentsWf_writeBytesT (s : State) (t : Nat) (bs : List Byte) (hw : segmentsWf s.segs) :
    segmentsWf (s.writeBytesT t bs).segs := by
  induction bs generalizing s t with
  | nil => exact hw
  | cons b bs ih => exact ih _ _ (allocateAt_wf s.segs t hw)

/-- Exactly the chunks the bytes touch are mapped besides those that were. -/
theorem isMapped_writeBytesT (s : State) (t : Nat) (bs : List Byte) (hw : segmentsWf s.segs) (a : Nat) :
    isMapped (s.writeBytesT t bs).segs a = true ↔
      isMapped s.segs a = true ∨ ∃ k, k < bs.length ∧ a / CHUNK = (t + k) / CHUNK := by
  induction bs generalizing s t with
  | nil => simp [State.writeBytesT]
  | cons b bs ih =>
    rw [State.writeBytesT, ih (s.writeByteT t b) (t + 1) (allocateAt_wf s.segs t hw)]
    show isMapped (allocateAt s.segs t) a = true ∨ _ ↔ _
    rw [isMapped_allocateAt s.segs t a (sortedChunks_of_wf _ hw), or_assoc]
    refine or_congr_right ⟨?_, ?_⟩
    · rintro (h | ⟨k, hk, h⟩)
      · exact ⟨0, by simp, h⟩
      · exact ⟨k + 1, by simp [hk], by rw [h]; congr 1; omega⟩
    · rintro ⟨k, hk, h⟩
      cases k with
      | zero => exact .inl h
      | succ k => exact .inr ⟨k, by simpa using hk, by rw [h]; congr 1; omega⟩

/-- What an access needs is what it takes. -/
theorem allocated_writeBytesT (s : State) (t : Nat) (bs : List Byte) (hw : segmentsWf s.segs) (hb : bs ≠ []) :
    allocated (s.writeBytesT t bs).segs = allocated s.segs + chunksNeeded s.segs t bs.length := by
  induction bs generalizing s t with
  | nil => exact absurd rfl hb
  | cons b bs ih =>
    have hs := chunksNeeded_step s.segs t bs.length hw
    rw [State.writeBytesT]
    cases bs with
    | nil => simp at hs ⊢; show allocated (allocateAt s.segs t) = _; omega
    | cons b' bs =>
      rw [ih (s.writeByteT t b) (t + 1) (allocateAt_wf s.segs t hw) (by simp)]
      show allocated (allocateAt s.segs t) + chunksNeeded (allocateAt s.segs t) (t + 1) _ = _
      simp at hs ⊢
      omega

/-- A step of a longer access: the chunks of its first bytes and those of the rest make up the whole. -/
theorem chunksNeeded_writeBytesT (s : State) (t : Nat) (bs : List Byte) (m : Nat) (hw : segmentsWf s.segs)
    (hm : 0 < m) :
    allocated (s.writeBytesT t bs).segs + chunksNeeded (s.writeBytesT t bs).segs (t + bs.length) m
      = allocated s.segs + chunksNeeded s.segs t (bs.length + m) := by
  induction bs generalizing s t with
  | nil => simp [State.writeBytesT]
  | cons b bs ih =>
    have hs := chunksNeeded_step s.segs t (bs.length + m) hw
    rw [State.writeBytesT, List.length_cons, show t + (bs.length + 1) = t + 1 + bs.length by omega,
      ih (s.writeByteT t b) (t + 1) (allocateAt_wf s.segs t hw)]
    show allocated (allocateAt s.segs t) + chunksNeeded (allocateAt s.segs t) (t + 1) _ = _
    rw [if_neg (by omega)] at hs
    rw [show bs.length + 1 + m = bs.length + m + 1 by omega]
    omega

/-! ### The invariant and the writes -/

/-- The invariant speaks of the bytes, the segments, BASE and the status registers only. -/
theorem State.Inv.congr {s t : State} (h : s.Inv) (h1 : t.mem = s.mem) (h2 : t.segs = s.segs) (h3 : t.base = s.base)
    (h4 : t.halted = s.halted) (h5 : t.faultCause = s.faultCause) : t.Inv where
  memWf := by rw [h1]; exact h.memWf
  segsWf := by rw [h2]; exact h.segsWf
  cellsMapped := by intro a; unfold State.readByteT; rw [h1, h2]; exact h.cellsMapped a
  cellsInSpace := by intro a; unfold State.readByteT; rw [h1, h3]; exact h.cellsInSpace a
  faultAgrees := by unfold State.faultWf; rw [h4, h5]; exact h.faultAgrees

theorem State.Inv.raiseFatal {s : State} (h : s.Inv) (c : Cause) : (s.raiseFatal c).Inv where
  memWf := h.memWf
  segsWf := h.segsWf
  cellsMapped := h.cellsMapped
  cellsInSpace := h.cellsInSpace
  faultAgrees := by simp [State.faultWf, State.raiseFatal]

theorem State.Inv.writeByteT {s : State} (h : s.Inv) (t : Nat) (b : Byte) (ht : t + s.base.toNat ≤ 2 ^ AW - 1) :
    (s.writeByteT t b).Inv where
  memWf := Memory.wf_write s.mem t b h.memWf
  segsWf := allocateAt_wf s.segs t h.segsWf
  cellsMapped := by
    intro a ha
    rw [readByteT_writeByteT s t a b h.memWf] at ha
    split at ha
    · next he => subst he; exact isMapped_allocateAt_self _ _
    · exact isMapped_allocateAt_of_mapped _ _ _ (h.cellsMapped a ha)
  cellsInSpace := by
    intro a ha
    rw [readByteT_writeByteT s t a b h.memWf] at ha
    split at ha
    · next he => subst he; exact ht
    · exact h.cellsInSpace a ha
  faultAgrees := h.faultAgrees

theorem State.Inv.writeBytesT {s : State} (h : s.Inv) (t : Nat) (bs : List Byte)
    (ht : t + bs.length + s.base.toNat ≤ 2 ^ AW) : (s.writeBytesT t bs).Inv := by
  induction bs generalizing s t with
  | nil => exact h
  | cons b bs ih =>
    simp only [List.length_cons] at ht
    refine ih (h.writeByteT t b ?_) (t + 1) ?_
    · unfold AW at *; omega
    · show t + 1 + bs.length + s.base.toNat ≤ 2 ^ AW
      omega

theorem State.Inv.memWrite {s : State} (h : s.Inv) {w : Nat} (e : Nat) (v : BitVec w) (hw : 8 ≤ w)
    (hc : s.accessFault e (w / 8) .write = none) : (s.memWrite e v).Inv := by
  obtain ⟨h1, h2, -⟩ := (accessFault_none_iff s e (w / 8) .write (by omega)).1 hc
  refine h.writeBytesT _ _ ?_
  rw [length_splitLow]
  unfold State.translate AW
  omega

theorem Written.inv {s u : State} (hu : Written s u) (h : s.Inv) : u.Inv := by
  induction hu with
  | refl => exact h
  | step e v hw _ hc ih => exact ih.memWrite e v hw hc

end Sys2Proof.Machine
end

