-- ==== Sys2Proof/Laws/Elements.lean ====
section
/-! SUPPORT. Elements in memory: the bytes of a value read or written (20_memory.md R40, R41), and what the element loops
of MRDV and MWRV give (42_memory_ops.md R95 to R97). -/

namespace Sys2Proof.Machine

/-! ### One element -/

/-- Byte k of a value read is the byte at `t + k` (20_memory.md R40). -/
theorem extractLsb'_memRead (s : State) (wc : Width) (e k : Nat) (hk : k < wc.bytes) :
    (s.memRead wc.bits e).extractLsb' (8 * k) 8 = s.readByteT (s.translate e + k) := by
  unfold State.memRead
  rw [Nat.mul_comm, extractLsb'_joinLow _ (by decide)]
  · rw [List.getD_eq_getElem?_getD, List.getElem?_map,
      List.getElem?_range (show k < wc.bits / 8 from hk)]
    rfl
  · rw [wc.bits_eq]
    exact Nat.mul_le_mul_right 8 hk

/-- Byte k of a value written stands at `t + k` (20_memory.md R41). -/
theorem readByteT_memWrite_inside (s : State) (wc : Width) (e : Nat) (v : BitVec wc.bits)
    (hm : Memory.wf s.mem = true) (k : Nat) (hk : k < wc.bytes) :
    (s.memWrite e v).readByteT (s.translate e + k) = v.extractLsb' (8 * k) 8 := by
  unfold State.memWrite
  rw [State.readByteT_writeBytesT_inside s _ _ k (by rw [length_splitLow]; exact hk) hm,
    List.getD_eq_getElem?_getD, getElem?_splitLow, wc.bits_div, if_pos hk, Nat.mul_comm]
  rfl

theorem readByteT_memWrite_outside (s : State) (wc : Width) (e : Nat) (v : BitVec wc.bits) (a : Nat)
    (h : a < s.translate e ∨ s.translate e + wc.bytes ≤ a) : (s.memWrite e v).readByteT a = s.readByteT a :=
  State.readByteT_writeBytesT_outside s _ _ a (by rw [length_splitLow]; exact h)

/-- A state whose bytes at `t`, `t + 1`, ... are those of a value reads that value. -/
theorem memRead_eq (s : State) (wc : Width) (e : Nat) (v : BitVec wc.bits)
    (h : ∀ k, k < wc.bytes → s.readByteT (s.translate e + k) = v.extractLsb' (8 * k) 8) :
    s.memRead wc.bits e = v := by
  unfold State.memRead
  rw [show (List.range (wc.bits / 8)).map (fun k => s.readByteT (s.translate e + k)) = splitLow 8 wc.bytes v from ?_,
    joinLow_splitLow 8 wc.bytes (by decide) v wc.bits_eq]
  refine List.map_congr_left fun k hk => ?_
  rw [h k (List.mem_range.1 hk), Nat.mul_comm]

theorem memWrite_base (s : State) {w : Nat} (e : Nat) (v : BitVec w) : (s.memWrite e v).base = s.base := by
  rw [memWrite_eq]

theorem memWrite_params (s : State) {w : Nat} (e : Nat) (v : BitVec w) : (s.memWrite e v).params = s.params := by
  rw [memWrite_eq]

theorem memWrite_translate (s : State) {w : Nat} (e x : Nat) (v : BitVec w) :
    (s.memWrite e v).translate x = s.translate x := by
  unfold State.translate
  rw [memWrite_base]

theorem memWrite_wf (s : State) {w : Nat} (e : Nat) (v : BitVec w) (hm : Memory.wf s.mem = true) :
    Memory.wf (s.memWrite e v).mem = true := State.writeBytesT_wf _ _ _ hm

/-! ### Reading elements -/

/-- The checks of a vector read pass, and it gives its elements (R96). -/
theorem readElements_ok (s : State) (wc : Width) (count e : Nat)
    (h : count = 0 ∨ (s.base.toNat ≤ e ∧ e + count * wc.bytes ≤ 2 ^ 64)) :
    s.readElements wc.bits count e = .ok ((List.range count).map fun j => s.memRead wc.bits (e + j * wc.bytes)) := by
  induction count generalizing e with
  | zero => rfl
  | succ n ih =>
    obtain ⟨h1, h2⟩ : s.base.toNat ≤ e ∧ e + (n + 1) * wc.bytes ≤ 2 ^ 64 := by
      rcases h with h | h
      · cases h
      · exact h
    rw [Nat.succ_mul] at h2
    have hr := accessFault_read s e wc.bytes wc.bytes_pos h1 (by omega)
    unfold State.readElements State.readElement
    rw [wc.bits_div, hr]
    simp only
    rw [ih (e + wc.bytes) (.inr ⟨by omega, by omega⟩), List.range_succ_eq_map]
    simp only [List.map_cons, List.map_map, Nat.zero_mul, Nat.add_zero, Except.ok.injEq, List.cons.injEq, true_and]
    refine List.map_congr_left fun j _ => ?_
    simp only [Function.comp, Nat.succ_mul]
    congr 1
    omega

theorem readElements_below (s : State) (wc : Width) (count e : Nat) (hc : 0 < count) (h : e < s.base.toNat) :
    s.readElements wc.bits count e = .error .addrBelowBase := by
  match count, hc with
  | n + 1, _ => simp [State.readElements, State.readElement, accessFault_below s _ _ _ h]

theorem readElements_above (s : State) (wc : Width) (count e : Nat) (hc : 0 < count) (h1 : s.base.toNat ≤ e)
    (h2 : 2 ^ 64 < e + count * wc.bytes) : s.readElements wc.bits count e = .error .addrOverflow := by
  induction count generalizing e with
  | zero => cases hc
  | succ n ih =>
    rw [Nat.succ_mul] at h2
    unfold State.readElements State.readElement
    rw [wc.bits_div]
    by_cases hlt : 2 ^ 64 < e + wc.bytes
    · rw [accessFault_above s _ _ _ h1 hlt]
    · rw [accessFault_read s e wc.bytes wc.bytes_pos h1 (by omega)]
      simp only
      have hn : 0 < n := by
        rcases Nat.eq_zero_or_pos n with rfl | hn
        · omega
        · exact hn
      rw [ih (e + wc.bytes) hn (by omega) (by omega)]

/-! ### Writing elements -/

theorem writeElements_cons (s : State) (wc : Width) (v : BitVec wc.bits) (vs : List (BitVec wc.bits)) (e : Nat)
    (h : s.accessFault e wc.bytes .write = none) :
    s.writeElements (v :: vs) e = (s.memWrite e v).writeElements vs (e + wc.bytes) := by
  rw [State.writeElements, wc.bits_div, h]

theorem writeElements_cons_fault (s : State) (wc : Width) (v : BitVec wc.bits) (vs : List (BitVec wc.bits)) (e : Nat)
    (c : Cause) (h : s.accessFault e wc.bytes .write = some c) : s.writeElements (v :: vs) e = (s, some c) := by
  rw [State.writeElements, wc.bits_div, h]

/-- A vector write leaves every byte outside its elements as it was, in any state (R97). -/
theorem readByteT_writeElements_outside (s : State) (wc : Width) (vs : List (BitVec wc.bits)) (e a : Nat)
    (hb : s.base.toNat ≤ e) (h : a < s.translate e ∨ s.translate e + vs.length * wc.bytes ≤ a) :
    (s.writeElements vs e).1.readByteT a = s.readByteT a := by
  induction vs generalizing s e with
  | nil => rfl
  | cons v vs ih =>
    rw [List.length_cons, Nat.succ_mul] at h
    cases hc : s.accessFault e wc.bytes .write with
    | some c => rw [writeElements_cons_fault s wc v vs e c hc]
    | none =>
      rw [writeElements_cons s wc v vs e hc, ih _ _ (by rw [memWrite_base]; omega),
        readByteT_memWrite_outside s wc e v a (by omega)]
      rw [memWrite_translate]
      unfold State.translate at *
      omega

/-- A check after an element is written is the check of the longer access before it: the same address is looked at,
the same byte is the last, and the same chunks are needed in all (42_memory_ops.md R90, 20_memory.md R39). -/
theorem accessFault_memWrite (s : State) (wc : Width) (e : Nat) (v : BitVec wc.bits) (m : Nat) (hm : 0 < m)
    (hw : segmentsWf s.segs) (hc : s.accessFault e wc.bytes .write = none) :
    (s.memWrite e v).accessFault (e + wc.bytes) m .write = s.accessFault e (wc.bytes + m) .write := by
  have hpos := wc.bytes_pos
  obtain ⟨hb, hle, -⟩ := (accessFault_none_iff s e _ _ hpos).1 hc
  have htr : (s.memWrite e v).translate (e + wc.bytes) = s.translate e + wc.bytes := by
    rw [memWrite_translate]
    unfold State.translate
    omega
  have hcap := chunksNeeded_writeBytesT s (s.translate e) (splitLow 8 (wc.bits / 8) v) m hw hm
  rw [length_splitLow, wc.bits_div] at hcap
  have had : admits s.params.maxChunks (s.memWrite e v).segs (s.translate e + wc.bytes) m
      = admits s.params.maxChunks s.segs (s.translate e) (wc.bytes + m) := by
    cases s.params.maxChunks with
    | none => rfl
    | some k =>
      rw [Bool.eq_iff_iff, admits_some, admits_some]
      exact iff_of_eq (congrArg (· ≤ k) hcap)
  unfold State.accessFault
  rw [htr, memWrite_params, memWrite_base, had, show e + wc.bytes + m - 1 = e + (wc.bytes + m) - 1 by omega,
    if_neg (show ¬e + wc.bytes < s.base.toNat by omega), if_neg (show ¬e < s.base.toNat by omega)]

/-- What a vector write does on any store, from any address (R97): its first m elements pass and are stored, m being all
of them or the number before the first that fails, and nothing else is; the check of elements 0 to j is written as one
access. -/
theorem writeElements_commits (s : State) (wc : Width) (vs : List (BitVec wc.bits)) (e : Nat)
    (hm : Memory.wf s.mem = true) (hw : segmentsWf s.segs) :
    ∃ m, m ≤ vs.length ∧ (m = 0 ∨ s.accessFault e (m * wc.bytes) .write = none)
      ∧ (∀ j v, j < m → vs[j]? = some v → ∀ k, k < wc.bytes →
          (s.writeElements vs e).1.readByteT (s.translate e + j * wc.bytes + k) = v.extractLsb' (8 * k) 8)
      ∧ (∀ a, a < s.translate e ∨ s.translate e + m * wc.bytes ≤ a →
          (s.writeElements vs e).1.readByteT a = s.readByteT a)
      ∧ (∀ a, isMapped (s.writeElements vs e).1.segs a = true ↔
          isMapped s.segs a = true ∨ ∃ k, k < m * wc.bytes ∧ a / CHUNK = (s.translate e + k) / CHUNK)
      ∧ (m = vs.length → (s.writeElements vs e).2 = none)
      ∧ (m < vs.length → ∃ c, s.accessFault e ((m + 1) * wc.bytes) .write = some c
          ∧ (s.writeElements vs e).2 = some c) := by
  induction vs generalizing s e with
  | nil => exact ⟨0, Nat.le_refl 0, .inl rfl, by simp, fun _ _ => rfl, by simp [State.writeElements], fun _ => rfl, nofun⟩
  | cons w vs ih =>
    cases hc : s.accessFault e wc.bytes .write with
    | some c =>
      rw [writeElements_cons_fault s wc w vs e c hc]
      exact ⟨0, Nat.zero_le _, .inl rfl, nofun, fun _ _ => rfl, by simp, by simp, fun _ => ⟨c, by simpa using hc, rfl⟩⟩
    | none =>
      have hb := ((accessFault_none_iff s e _ _ wc.bytes_pos).1 hc).1
      have htr : s.translate (e + wc.bytes) = s.translate e + wc.bytes := by unfold State.translate; omega
      obtain ⟨m, h1, h2, h3, h4, h5, h6, h7⟩ := ih (s.memWrite e w) (e + wc.bytes) (memWrite_wf s e w hm)
        (segmentsWf_writeBytesT _ _ _ hw)
      rw [memWrite_translate, htr] at h3 h4 h5
      rw [writeElements_cons s wc w vs e hc]
      refine ⟨m + 1, Nat.succ_le_succ h1, .inr ?_, ?_, ?_, ?_, fun h => h6 (Nat.succ.inj h), fun h => ?_⟩
      · rw [Nat.succ_mul, Nat.add_comm]
        rcases Nat.eq_zero_or_pos m with rfl | h0
        · simpa using hc
        · rcases h2 with rfl | h2
          · exact absurd h0 (Nat.lt_irrefl 0)
          · rw [← accessFault_memWrite s wc e w _ (Nat.mul_pos h0 wc.bytes_pos) hw hc]
            exact h2
      · intro j v hj hv k hk
        cases j with
        | zero =>
          obtain rfl : w = v := by simpa using hv
          rw [Nat.zero_mul, Nat.add_zero, h4 _ (.inl (by omega)), readByteT_memWrite_inside s wc e w hm k hk]
        | succ j =>
          rw [← h3 j v (Nat.lt_of_succ_lt_succ hj) (by simpa using hv) k hk, Nat.succ_mul]
          congr 1
          omega
      · intro a ha
        rw [Nat.succ_mul] at ha
        rw [h4 a (by omega), readByteT_memWrite_outside s wc e w a (by omega)]
      · intro a
        have hmap := isMapped_writeBytesT s (s.translate e) (splitLow 8 (wc.bits / 8) w) hw a
        rw [length_splitLow, wc.bits_div] at hmap
        rw [h5 a, show isMapped (s.memWrite e w).segs a = true ↔ _ from hmap, or_assoc, Nat.succ_mul]
        refine or_congr_right ⟨?_, ?_⟩
        · rintro (⟨k, hk, h⟩ | ⟨k, hk, h⟩)
          · exact ⟨k, by omega, h⟩
          · exact ⟨wc.bytes + k, by omega, by rw [h, Nat.add_assoc]⟩
        · rintro ⟨k, hk, h⟩
          by_cases hlt : k < wc.bytes
          · exact .inl ⟨k, hlt, h⟩
          · exact .inr ⟨k - wc.bytes, by omega, by rw [h]; congr 1; omega⟩
      · obtain ⟨c, hf, hr⟩ := h7 (Nat.lt_of_succ_lt_succ h)
        refine ⟨c, ?_, hr⟩
        rw [accessFault_memWrite s wc e w _ (Nat.mul_pos (Nat.succ_pos m) wc.bytes_pos) hw hc] at hf
        rw [Nat.succ_mul (m + 1), Nat.add_comm]
        exact hf

/-- A vector write whose bytes pass the check as one access stores all its elements (R97). -/
theorem writeElements_fits (s : State) (wc : Width) (vs : List (BitVec wc.bits)) (e : Nat)
    (hm : Memory.wf s.mem = true) (hw : segmentsWf s.segs)
    (hc : vs = [] ∨ s.accessFault e (vs.length * wc.bytes) .write = none) :
    (∀ j v, vs[j]? = some v → ∀ k, k < wc.bytes →
        (s.writeElements vs e).1.readByteT (s.translate e + j * wc.bytes + k) = v.extractLsb' (8 * k) 8)
    ∧ (s.writeElements vs e).2 = none := by
  induction vs generalizing s e with
  | nil => exact ⟨by simp, rfl⟩
  | cons w vs ih =>
    have hpos := wc.bytes_pos
    have hc : s.accessFault e ((vs.length + 1) * wc.bytes) .write = none := by
      rcases hc with hc | hc
      · cases hc
      · exact hc
    rw [Nat.succ_mul] at hc
    obtain ⟨hb, hle, had⟩ := (accessFault_none_iff s e _ _ (by omega)).1 hc
    have had := had rfl
    have hlen : (splitLow 8 (wc.bits / 8) w).length = wc.bytes := length_splitLow ..
    have hcap := fun m (h : 0 < m) => chunksNeeded_writeBytesT s (s.translate e) (splitLow 8 (wc.bits / 8) w) m hw h
    have hall := allocated_writeBytesT s (s.translate e) (splitLow 8 (wc.bits / 8) w) hw
      (by intro h; rw [h] at hlen; simp at hlen; omega)
    rw [hlen] at hcap hall
    have hc1 : s.accessFault e wc.bytes .write = none := by
      refine (accessFault_none_iff s e _ _ hpos).2 ⟨hb, by omega, fun _ => ?_⟩
      cases hmc : s.params.maxChunks with
      | none => rfl
      | some m =>
        rw [hmc] at had
        rw [admits_some] at had ⊢
        rcases Nat.eq_zero_or_pos (vs.length * wc.bytes) with h0 | h0
        · rw [h0, Nat.zero_add] at had
          exact had
        · have := hcap _ h0
          rw [Nat.add_comm wc.bytes] at this
          omega
    have htr : s.translate (e + wc.bytes) = s.translate e + wc.bytes := by unfold State.translate; omega
    obtain ⟨h1, h2⟩ := ih (s.memWrite e w) (e + wc.bytes) (memWrite_wf s e w hm) (segmentsWf_writeBytesT _ _ _ hw) (by
      rcases Nat.eq_zero_or_pos vs.length with h0 | h0
      · exact .inl (List.eq_nil_of_length_eq_zero h0)
      · have hmul := Nat.mul_pos h0 hpos
        refine .inr ((accessFault_none_iff _ _ _ _ hmul).2 ⟨by rw [memWrite_base]; omega, by omega, fun _ => ?_⟩)
        rw [memWrite_params, memWrite_translate, htr]
        cases hmc : s.params.maxChunks with
        | none => rfl
        | some m =>
          rw [hmc] at had
          rw [admits_some] at had ⊢
          have := hcap _ hmul
          rw [Nat.add_comm wc.bytes (vs.length * wc.bytes)] at this
          exact Nat.le_trans (Nat.le_of_eq this) had)
    rw [memWrite_translate, htr] at h1
    rw [writeElements_cons s wc w vs e hc1]
    refine ⟨?_, h2⟩
    intro j v hj k hk
    cases j with
    | zero =>
      obtain rfl : w = v := by simpa using hj
      rw [Nat.zero_mul, Nat.add_zero,
        readByteT_writeElements_outside _ wc vs _ _ (by rw [memWrite_base]; omega)
          (.inl (by rw [memWrite_translate, htr]; omega)),
        readByteT_memWrite_inside s wc e w hm k hk]
    | succ j =>
      have := h1 j v (by simpa using hj) k hk
      rw [← this]
      congr 1
      rw [Nat.succ_mul]
      omega

end Sys2Proof.Machine
end

