-- ==== Sys2Proof/Laws/Encoding.lean ====
section
/-! SUPPORT. Encoded words as numbers, the codes of the operands, and the fields of a word. -/

namespace Sys2Proof

theorem field_val (c : Command) (lo len : Nat) : (field c lo len).val = c.toNat / 2 ^ lo % 2 ^ len := rfl

theorem toNat_append_add {m n : Nat} (x : BitVec m) (y : BitVec n) :
    (x ++ y).toNat = x.toNat * 2 ^ n + y.toNat := by
  rw [BitVec.toNat_append, ← Nat.shiftLeft_add_eq_or_of_lt y.isLt, Nat.shiftLeft_eq]

/-! ### Operand codes: naming the code of an operand gives the operand back -/

@[simp] theorem Window.ofCode_code (win : Window) : Window.ofCode win.code.toNat = some win := by cases win <;> rfl

@[simp] theorem Width.ofCode_code (wc : Width) : Width.ofCode wc.code.toNat = some wc := by cases wc <;> rfl

@[simp] theorem GprView.ofCode_code (v : GprView) : GprView.ofCode v.code.toNat = some v := by cases v <;> rfl

@[simp] theorem CellView.ofCode_code (v : CellView) : CellView.ofCode v.code.toNat = some v := by cases v <;> rfl

theorem Window.code_of_ofCode {n : Nat} {win : Window} (h : Window.ofCode n = some win) : n = win.code.toNat := by
  unfold Window.ofCode at h
  split at h <;> cases h <;> rfl

theorem Width.code_of_ofCode {n : Nat} {wc : Width} (h : Width.ofCode n = some wc) : n = wc.code.toNat := by
  unfold Width.ofCode at h
  split at h <;> cases h <;> rfl

theorem GprView.code_of_ofCode {n : Nat} {v : GprView} (h : GprView.ofCode n = some v) : n = v.code.toNat := by
  unfold GprView.ofCode at h
  split at h <;> cases h <;> rfl

theorem CellView.code_of_ofCode {n : Nat} {v : CellView} (h : CellView.ofCode n = some v) : n = v.code.toNat := by
  unfold CellView.ofCode at h
  split at h <;> cases h <;> rfl

/-! ### Encoded words as numbers -/

theorem toNat_encode (i : Instr) : (encode i).toNat = i.opcode.toNat * 2 ^ 27 + i.operandBits.toNat :=
  toNat_append_add i.opcode i.operandBits

theorem toNat_ofBool (b : Bool) : (BitVec.ofBool b).toNat = b.toNat := BitVec.toNat_ofBool b

/-- The 27 operand bits of each command as a number: each field at its place (30_encoding.md R50, R51, R52, R54). -/
theorem toNat_operandBits (i : Instr) :
    i.operandBits.toNat =
      match i with
      | .vsetbit win idx pos val => win.code.toNat * 2 ^ 25 + idx.val * 2 ^ 21 + pos.val * 2 ^ 9 + val.toNat * 2 ^ 8
      | .vgetbit win idx pos => win.code.toNat * 2 ^ 25 + idx.val * 2 ^ 21 + pos.val * 2 ^ 9
      | .vgetsec win idx wc => win.code.toNat * 2 ^ 25 + idx.val * 2 ^ 21 + wc.code.toNat * 2 ^ 18
      | .vsetsec win idx wc count =>
        win.code.toNat * 2 ^ 25 + idx.val * 2 ^ 21 + wc.code.toNat * 2 ^ 18 + count.val
      | .vgetsel win idx wc a b =>
        win.val * 2 ^ 25 + idx.val * 2 ^ 21 + wc.code.toNat * 2 ^ 18 + a.val * 2 ^ 9 + b.val
      | .vsetsel win idx wc a b =>
        win.val * 2 ^ 25 + idx.val * 2 ^ 21 + wc.code.toNat * 2 ^ 18 + a.val * 2 ^ 9 + b.val
      | .vclear idx => idx.val * 2 ^ 21
      | .gprset view idx => view.code.toNat * 2 ^ 24 + idx.val * 2 ^ 20
      | .gprget view idx => view.code.toNat * 2 ^ 24 + idx.val * 2 ^ 20
      | .flset view => view.code.toNat * 2 ^ 25
      | .flget view => view.code.toNat * 2 ^ 25
      | .ipset view => view.code.toNat * 2 ^ 25
      | .ipget view => view.code.toNat * 2 ^ 25
      | .mrdb => 0
      | .mwrb => 0
      | .mrd wc => wc.code.toNat * 2 ^ 24
      | .mwr wc => wc.code.toNat * 2 ^ 24
      | .mrdv wc count => wc.code.toNat * 2 ^ 24 + count.val
      | .mwrv wc count => wc.code.toNat * 2 ^ 24 + count.val := by
  cases i with
  | mrdb => rfl
  | mwrb => rfl
  | _ =>
    refine Eq.trans (toNat_append_add _ _) ?_
    simp only [toNat_append_add, toNat_ofBool, BitVec.toNat_ofFin, BitVec.toNat_ofNat, Nat.zero_mod]
    omega

end Sys2Proof
end

