-- ==== Sys2Proof/Laws/PerInstr.lean ====
section
/-! SUPPORT. Statements made for every instruction, one lemma per constructor. EncodesOpcode: bits 31:27 of the encoded
word are the opcode of 30_encoding.md R58, whatever the operands. -/

namespace Sys2Proof.Laws.EncodesOpcode

def Statement (i : Instr) : Prop := (field (encode i) 27 5).val = i.opcode.toNat

theorem opcode_above_operands (i : Instr) : Statement i := by
  have h1 := i.operandBits.isLt
  have h2 := i.opcode.isLt
  unfold Statement
  rw [field_val, toNat_encode]
  omega

theorem vsetbit (win : Window) (idx : Fin 16) (pos : Fin 512) (val : Bool) : Statement (.vsetbit win idx pos val) := opcode_above_operands _

theorem vgetbit (win : Window) (idx : Fin 16) (pos : Fin 512) : Statement (.vgetbit win idx pos) := opcode_above_operands _

theorem vgetsec (win : Window) (idx : Fin 16) (wc : Width) : Statement (.vgetsec win idx wc) := opcode_above_operands _

theorem vsetsec (win : Window) (idx : Fin 16) (wc : Width) (count : Fin 65536) : Statement (.vsetsec win idx wc count) := opcode_above_operands _

theorem vgetsel (win : Fin 4) (idx : Fin 16) (wc : Width) (a b : Fin 512) : Statement (.vgetsel win idx wc a b) := opcode_above_operands _

theorem vsetsel (win : Fin 4) (idx : Fin 16) (wc : Width) (a b : Fin 512) : Statement (.vsetsel win idx wc a b) := opcode_above_operands _

theorem vclear (idx : Fin 16) : Statement (.vclear idx) := opcode_above_operands _

theorem gprset (view : GprView) (idx : Fin 16) : Statement (.gprset view idx) := opcode_above_operands _

theorem gprget (view : GprView) (idx : Fin 16) : Statement (.gprget view idx) := opcode_above_operands _

theorem flset (view : CellView) : Statement (.flset view) := opcode_above_operands _

theorem flget (view : CellView) : Statement (.flget view) := opcode_above_operands _

theorem ipset (view : CellView) : Statement (.ipset view) := opcode_above_operands _

theorem ipget (view : CellView) : Statement (.ipget view) := opcode_above_operands _

theorem mrdb : Statement (.mrdb) := opcode_above_operands _

theorem mwrb : Statement (.mwrb) := opcode_above_operands _

theorem mrd (wc : Width) : Statement (.mrd wc) := opcode_above_operands _

theorem mwr (wc : Width) : Statement (.mwr wc) := opcode_above_operands _

theorem mrdv (wc : Width) (count : Fin 65536) : Statement (.mrdv wc count) := opcode_above_operands _

theorem mwrv (wc : Width) (count : Fin 65536) : Statement (.mwrv wc count) := opcode_above_operands _

end Sys2Proof.Laws.EncodesOpcode
end

