-- ==== Sys2Proof/Tests/Slice0.lean ====
section
/-! SUPPORT. Tests. Expected values are those of spec/95_test_vectors.md (named by row) or of the encoding tables of
spec/30_encoding.md, and each statement for the provers that has hypotheses has a witness here. -/

namespace Sys2Proof.Tests

open Sys2Proof.Machine

/-! ### A small state, a request at its port, and what a step gives -/

/-- The parameters of the vectors: unbounded store, Uniform, Swap; every cell 0 so that states are concrete. -/
def params : Params := ⟨none, .uniform, .swap, .zero⟩

/-- A running block with BASE 0, every cell 0 and memory empty. -/
def start : State := State.resetWith params 0 0

/-- The state with one request at its port. -/
def offer (s : State) (w : Command) (addr : Option Addr) (wdata : List Elem) : State :=
  s.withInputs [.request ⟨w, addr, wdata⟩]

/-- The state with a payload at its port, for a command run by `exec`. -/
def ask (s : State) (addr : Option Addr) (wdata : List Elem) : State := offer s 0 addr wdata

/-- Something of the next state. -/
def look {α : Type} (o : Outcome) (f : State → α) : Option α :=
  match o with
  | .next t => some (f t)
  | .fault _ => none
  | .refused _ => none

/-- An OK response with these elements. -/
def ok (d : List Elem) : List Response := [⟨.ok, .none, d⟩]

/-- A FAIL response. -/
def failed (r : Reason) : List Response := [⟨.fail, r, []⟩]

/-- A FATAL response. -/
def fatal (r : Reason) : List Response := [⟨.fatal, r, []⟩]

theorem ask_presents (s : State) (addr : Option Addr) (wdata : List Elem) : (ask s addr wdata).presents addr wdata :=
  ⟨rfl, rfl⟩

/-! ### Well-formedness: the register names that do not exist -/

theorem test_spl_is_not_wellFormed : (Instr.gprset .merge8Low 4).wellFormed = false := by decide

theorem test_dil_is_not_wellFormed : (Instr.gprget .merge8Low 7).wellFormed = false := by decide

theorem test_high_byte_of_4_is_not_wellFormed : (Instr.gprset .merge8High 4).wellFormed = false := by decide

theorem test_high_byte_of_15_is_not_wellFormed : (Instr.gprget .merge8High 15).wellFormed = false := by decide

/-! ### Decoding: one word of every command, field by field as 30_encoding.md R50 to R58 lay it out -/

theorem test_decode_vsetbit : decode (0b00001#5 ++ 0b01#2 ++ 0b0001#4 ++ 0b000#3 ++ 0b011111111#9 ++ 0b1#1 ++ 0b00000000#8) = some (.vsetbit .ymm 1 255 true) := by decide

theorem test_decode_vgetbit : decode (0b00010#5 ++ 0b10#2 ++ 0b0010#4 ++ 0b000#3 ++ 0b011001000#9 ++ 0b0#1 ++ 0b00000000#8) = some (.vgetbit .zmm 2 200) := by decide

theorem test_decode_vgetsec : decode (0b00011#5 ++ 0b00#2 ++ 0b1111#4 ++ 0b110#3 ++ 0b00#2 ++ 0b0000000000000000#16) = some (.vgetsec .xmm 15 .u512) := by decide

theorem test_decode_vsetsec : decode (0b00100#5 ++ 0b01#2 ++ 0b0011#4 ++ 0b011#3 ++ 0b00#2 ++ 0b0000000000000100#16) = some (.vsetsec .ymm 3 .u64 4) := by decide

theorem test_decode_vgetsel : decode (0b00101#5 ++ 0b11#2 ++ 0b0100#4 ++ 0b001#3 ++ 0b000000111#9 ++ 0b111111110#9) = some (.vgetsel 3 4 .u16 7 510) := by decide

theorem test_decode_vsetsel : decode (0b00110#5 ++ 0b00#2 ++ 0b0101#4 ++ 0b000#3 ++ 0b111111111#9 ++ 0b111111000#9) = some (.vsetsel 0 5 .u8 511 504) := by decide

theorem test_decode_vclear : decode (0b00111#5 ++ 0b00#2 ++ 0b1001#4 ++ 0b000#3 ++ 0b000000000000000000#18) = some (.vclear 9) := by decide

theorem test_decode_gprset : decode (0b01000#5 ++ 0b100#3 ++ 0b0001#4 ++ 0b00000000000000000000#20) = some (.gprset .merge8High 1) := by decide

theorem test_decode_gprget : decode (0b01001#5 ++ 0b001#3 ++ 0b1110#4 ++ 0b00000000000000000000#20) = some (.gprget .zext32 14) := by decide

theorem test_decode_flset : decode (0b01010#5 ++ 0b01#2 ++ 0b0000000000000000000000000#25) = some (.flset .v32) := by decide

theorem test_decode_flget : decode (0b01011#5 ++ 0b00#2 ++ 0b0000000000000000000000000#25) = some (.flget .v64) := by decide

theorem test_decode_ipset : decode (0b01100#5 ++ 0b10#2 ++ 0b0000000000000000000000000#25) = some (.ipset .v16) := by decide

theorem test_decode_ipget : decode (0b01101#5 ++ 0b01#2 ++ 0b0000000000000000000000000#25) = some (.ipget .v32) := by decide

theorem test_decode_mrdb : decode (0b10000#5 ++ 0b000#3 ++ 0b00000000#8 ++ 0b0000000000000000#16) = some (.mrdb) := by decide

theorem test_decode_mwrb : decode (0b10001#5 ++ 0b000#3 ++ 0b00000000#8 ++ 0b0000000000000000#16) = some (.mwrb) := by decide

theorem test_decode_mrd : decode (0b10010#5 ++ 0b100#3 ++ 0b00000000#8 ++ 0b0000000000000000#16) = some (.mrd .u128) := by decide

theorem test_decode_mwr : decode (0b10011#5 ++ 0b101#3 ++ 0b00000000#8 ++ 0b0000000000000000#16) = some (.mwr .u256) := by decide

theorem test_decode_mrdv : decode (0b10100#5 ++ 0b001#3 ++ 0b00000000#8 ++ 0b1000000000000001#16) = some (.mrdv .u16 32769) := by decide

theorem test_decode_mwrv : decode (0b10101#5 ++ 0b010#3 ++ 0b00000000#8 ++ 0b1111111111111111#16) = some (.mwrv .u32 65535) := by decide

/-- DEC1 to DEC5, DEC6, DEC7, DEC11, DEC13, DEC15, DEC17, DEC19, DEC20, DEC22, DEC24 of L2.1. -/
theorem test_decode_rejects : ([0x00000000, 0x70000000, 0x78000000, 0xB0000000, 0xF8000000, 0x0E000000, 0x08000001,
    0x20010000, 0x3A000000, 0x4B400000, 0x4D000000, 0x5E000000, 0x68000001, 0x97000000, 0xA0010000] : List Command).all
    (fun c => (decode c).isNone) = true := by decide

theorem test_decodeTableWord_vclear : decodeTableWord 32 0x39E00000 = some (.vclear 15) := by decide

/-- The offered word is the one the next step runs (here GPRGET RAX, with the payload its row asks for). -/
theorem test_withFetchWord_runs_the_word : step (start.withFetchWord 32 0x48000000)
    = exec (.gprget .full64 0) (start.withFetchWord 32 0x48000000) := by rfl

/-! ### Vector Register Bank (L2.2) -/

/-- VB1. -/
theorem test_vsetbit_top_of_the_window : look (step (offer (start) 0x0820FF00 none [])) (fun t => (t.responses, t.vecCell 1))
    = some (ok [], 1#512 <<< 127) := by decide +kernel

/-- VB2. -/
theorem test_vsetbit_past_the_window : look (step (offer (start) 0x08210100 none [])) (fun t => (t.responses, t.vecCell 1))
    = some (failed .bitposOutOfWindow, 0) := by decide +kernel

/-- VB8. -/
theorem test_vgetbit_reads : look (step (offer (start.setVec 1 (1 <<< 200)) 0x12219000 none [])) (fun t => (t.responses, t.halted))
    = some (ok [⟨1, 1⟩], false) := by decide +kernel

/-- VB9. -/
theorem test_vgetbit_past_the_window : look (step (offer (start.setVec 1 (1 <<< 200)) 0x10219000 none [])) (fun t => (t.responses, t.halted))
    = some (failed .bitposOutOfWindow, false) := by decide +kernel

/-- VS5. -/
theorem test_vgetsec_two_sections : look (step (offer (start.setVec 2 (BitVec.allOnes 512)) 0x1A500000 none [])) (fun t => (t.responses, t.halted))
    = some (ok [⟨128, BitVec.allOnes 128⟩, ⟨128, BitVec.allOnes 128⟩], false) := by decide +kernel

/-- VS2. -/
theorem test_vgetsec_wider_than_the_window : look (step (offer (start.setVec 2 (BitVec.allOnes 512)) 0x1A580000 none [])) (fun t => (t.responses, t.halted))
    = some (ok [], false) := by decide +kernel

/-- VS6. -/
theorem test_vsetsec_zero_fills_above : look (step (offer (start.setVec 3 (BitVec.allOnes 512)) 0x20700001 none [⟨128, 0x5A⟩])) (fun t => (t.responses, t.vecCell 3))
    = some (ok [], 0x5A) := by decide +kernel

/-- VS10. -/
theorem test_vsetsec_wrong_count : look (step (offer (start.setVec 3 (BitVec.allOnes 512)) 0x226C0003 none [⟨64, 0x5A⟩, ⟨64, 0x5A⟩, ⟨64, 0x5A⟩])) (fun t => (t.responses, t.vecCell 3))
    = some (failed .sectionCountMismatch, (BitVec.allOnes 512)) := by decide +kernel

/-- VL4. -/
theorem test_vgetsel_swaps : look (step (offer (start.setVec 4 0x0123456789ABCDEF) 0x28800007 none [])) (fun t => (t.responses, t.halted))
    = some (ok [⟨8, 0xEF⟩], false) := by decide +kernel

/-- VL2. -/
theorem test_vgetsel_too_narrow : look (step (offer (start.setVec 4 0x0123456789ABCDEF) 0x2897FE00 none [])) (fun t => (t.responses, (t.halted, t.faultCause)))
    = some (fatal .selectorTooNarrow, (true, 3)) := by decide +kernel

/-- VT1. -/
theorem test_vsetsel_forces_zero_past_the_value : look (step (offer (start.setVec 5 (BitVec.allOnes 512)) 0x30A3FE00 none [⟨8, 0xFF⟩])) (fun t => (t.responses, t.vecCell 5))
    = some (ok [], 0xFF) := by decide +kernel

/-- VT5, its low 16 bits. -/
theorem test_vsetsel_keeps_the_rest : look (step (offer (start.setVec 5 (BitVec.allOnes 512)) 0x30A01E04 none [⟨8, 0xAB⟩])) (fun t => (t.responses, ((t.vecCell 5).extractLsb' 0 16, (t.vecCell 5).extractLsb' 16 496)))
    = some (ok [], (0x0ABF, BitVec.allOnes 496)) := by decide +kernel

/-- VC1. -/
theorem test_vclear_one_cell : look (step (offer ((start.setVec 7 (BitVec.allOnes 512)).setVec 6 (BitVec.allOnes 512)) 0x38E00000 none [])) (fun t => (t.responses, (t.vecCell 7, t.vecCell 6)))
    = some (ok [], (0, (BitVec.allOnes 512))) := by decide +kernel

/-! ### General-purpose, Flags and Instruction-Pointer cells (L2.3) -/

/-- GW-EAX. -/
theorem test_gprset_eax_zero_extends : look (step (offer (start.setGpr 0 0x1122334455667788) 0x41000000 none [⟨64, 0xFFEEDDCCBBAA9988⟩])) (fun t => (t.responses, t.gprCell 0))
    = some (ok [], 0xBBAA9988) := by decide +kernel

/-- GW-CH. -/
theorem test_gprset_ch_merges : look (step (offer (start.setGpr 1 0x1122334455667788) 0x44100000 none [⟨64, 0xFFEEDDCCBBAA9988⟩])) (fun t => (t.responses, t.gprCell 1))
    = some (ok [], 0x1122334455668888) := by decide +kernel

/-- GR-AH. -/
theorem test_gprget_ah : look (step (offer (start.setGpr 0 0x1122334455667788) 0x4C000000 none [])) (fun t => (t.responses, t.halted))
    = some (ok [⟨64, 0x77⟩], false) := by decide +kernel

/-- FW-EFLAGS. -/
theorem test_flset_eflags_keeps_the_top : look (step (offer (start.setFl 0x1122334455667788) 0x52000000 none [⟨64, 0xFFEEDDCCBBAA9988⟩])) (fun t => (t.responses, t.fl))
    = some (ok [], 0x11223344BBAA9988) := by decide +kernel

/-- FR-FLAGS. -/
theorem test_flget_flags : look (step (offer (start.setFl 0x1122334455667788) 0x5C000000 none [])) (fun t => (t.responses, t.fl))
    = some (ok [⟨64, 0x7788⟩], 0x1122334455667788) := by decide +kernel

/-- IW-IP. -/
theorem test_ipset_ip_keeps_the_top : look (step (offer (start.setIp 0x1122334455667788) 0x64000000 none [⟨64, 0xFFEEDDCCBBAA9988⟩])) (fun t => (t.responses, t.ip))
    = some (ok [], 0x1122334455669988) := by decide +kernel

/-- IR-EIP. -/
theorem test_ipget_eip : look (step (offer (start.setIp 0x1122334455667788) 0x6A000000 none [])) (fun t => (t.responses, t.ip))
    = some (ok [⟨64, 0x55667788⟩], 0x1122334455667788) := by decide +kernel

/-! ### Memory (L2.4) -/

/-- The bytes of M17: 0xDDCCBBAA at 0x10. -/
def filled : State := start.memWrite 0x10 (0xDDCCBBAA#32)

/-- M19. -/
theorem test_mrdb_byte : look (step (offer (filled) 0x80000000 (some 0x13) [])) (fun t => (t.responses, t.segs))
    = some (ok [⟨8, 0xDD⟩], [⟨0, 512⟩]) := by decide +kernel

/-- M1. -/
theorem test_mrdb_below_base : look (step (offer (State.resetWith params 0x1000 0) 0x80000000 (some 0xFFF) [])) (fun t => (t.responses, (t.halted, t.faultCause)))
    = some (fatal .addrBelowBase, (true, 4)) := by decide +kernel

/-- M7. -/
theorem test_mwrb_zero_still_allocates : look (step (offer (start) 0x88000000 (some 5) [⟨8, 0⟩])) (fun t => (t.responses, (t.segs, t.mem)))
    = some (ok [], ([⟨0, 512⟩], [])) := by decide +kernel

/-- M8-512. -/
theorem test_mwrb_merges_three : look (step (offer ((start.writeByteT 0 1).writeByteT 1024 1) 0x88000000 (some 512) [⟨8, 1⟩])) (fun t => (t.responses, t.segs))
    = some (ok [], [⟨0, 1536⟩]) := by decide +kernel

/-- M17. -/
theorem test_mrd_little_endian : look (step (offer (filled) 0x91000000 (some 0x11) [])) (fun t => (t.responses, t.segs))
    = some (ok [⟨16, 0xCCBB⟩], [⟨0, 512⟩]) := by decide +kernel

/-- M4. -/
theorem test_mrd_past_the_top : look (step (offer (start) 0x93000000 (some 0xFFFFFFFFFFFFFFF9) [])) (fun t => (t.responses, (t.halted, t.faultCause)))
    = some (fatal .addrOverflow, (true, 5)) := by decide +kernel

/-- M10. -/
theorem test_mwr_across_chunks : look (step (offer ((State.resetWith ⟨some 2, .uniform, .swap, .zero⟩ 0 0)) 0x99000000 (some 511) [⟨16, 0xFFFF⟩])) (fun t => (t.responses, (t.segs, t.mem)))
    = some (ok [], ([⟨0, 1024⟩], [(511, 0xFF), (512, 0xFF)])) := by decide +kernel

/-- M11. -/
theorem test_mwr_out_of_chunks : look (step (offer ((State.resetWith ⟨some 1, .uniform, .swap, .zero⟩ 0 0)) 0x99000000 (some 511) [⟨16, 0xFFFF⟩])) (fun t => (t.responses, (t.segs, t.mem)))
    = some (fatal .outOfChunks, ([], [])) := by decide +kernel

/-- M18. -/
theorem test_mrdv_elements : look (step (offer (filled) 0xA0000004 (some 0x10) [])) (fun t => (t.responses, t.segs))
    = some (ok [⟨8, 0xAA⟩, ⟨8, 0xBB⟩, ⟨8, 0xCC⟩, ⟨8, 0xDD⟩], [⟨0, 512⟩]) := by decide +kernel

/-- M14. -/
theorem test_mrdv_count_zero_checks_nothing : look (step (offer (State.resetWith params 0x100 0) 0xA0000000 (some 0) [])) (fun t => (t.responses, t.halted))
    = some (ok [], false) := by decide +kernel

/-- M16. -/
theorem test_mwrv_keeps_the_elements_before_the_fault : look (step (offer (start) 0xAB000003 (some 0xFFFFFFFFFFFFFFF0) [⟨64, 1⟩, ⟨64, 2⟩, ⟨64, 3⟩])) (fun t => (t.responses, (t.readByteT 0xFFFFFFFFFFFFFFF0, t.readByteT 0xFFFFFFFFFFFFFFF8)))
    = some (fatal .addrOverflow, (1, 2)) := by decide +kernel

/-- M21. -/
theorem test_mwrv_empty : look (step (offer (start) 0xA8000000 (some 0) [])) (fun t => (t.responses, t.segs))
    = some (ok [], []) := by decide +kernel

/-! ### Faults, runs and the host (L2.1, L2.5, 30_encoding.md R64, R65) -/

/-- MAL3. -/
theorem test_malformed_payload : look (step (offer (start) 0x200C0002 none [⟨64, 1⟩, ⟨64, 2⟩, ⟨64, 3⟩])) (fun t => (t.responses, (t.halted, t.faultCause, t.vecCell 0)))
    = some (fatal .malformedPayload, (true, 2, 0)) := by decide +kernel

/-- H3. -/
theorem test_halted_does_not_decode : look (step (offer ({ start with halted := true, faultCause := 3 }) 0x00000000 none [])) (fun t => (t.responses, (t.halted, t.faultCause)))
    = some ([⟨.fatal, .halted, [⟨8, 3⟩]⟩], (true, 3)) := by decide +kernel

/-- R108: a reset takes a halted block out of its fault and samples BASE. -/
theorem test_reset_of_a_halted_block : look
    (step (({ start with halted := true, faultCause := 3 } : State).withInputs [.reset 0x40 none]))
    (fun t => (t.halted, t.faultCause, t.base)) = some (false, 0, 0x40) := by decide +kernel

theorem test_selector_max : parseSelector ['[', 'M', 'A', 'X', ':', '0', '7', ']'] = some (511, 7) := by decide

theorem test_selector_512_does_not_parse : parseSelector ['[', '5', '1', '2', ':', '0', ']'] = none := by decide

/-- P1 step 2. -/
theorem test_assemble_gprset_al : assemble "GPRSET AL, 0x11".toList = .request ⟨0x43000000, none, [⟨64, 0x11⟩]⟩ := by
  decide +kernel

/-- P3 step 5. -/
theorem test_assemble_mwrv : assemble ("MWRV.U8 0x10401, ".toList ++ [listOpen] ++ "0x55, 0x66".toList ++ [listClose])
    = .request ⟨0xA8000002, some 0x10401, [⟨8, 0x55⟩, ⟨8, 0x66⟩]⟩ := by decide +kernel

/-! ### Witnesses: for every statement with hypotheses, a state and operands that meet them, clause by clause -/

theorem start_inv : start.Inv where
  memWf := rfl
  segsWf := trivial
  cellsMapped := fun _ h => absurd rfl h
  cellsInSpace := fun _ h => absurd rfl h
  faultAgrees := rfl

/-- A block that holds one byte. -/
def held : State := start.writeByteT 5 0xAB

theorem held_inv : held.Inv := start_inv.writeByteT 5 0xAB (by decide)

/-- A halted block. -/
def stopped : State := { start with halted := true, faultCause := 4 }

/-- A block whose store takes two chunks, BASE 0x1000 and a reversed selector refused. -/
def bounded : State := State.resetWith ⟨some 2, .raxOnly, .reject, .zero⟩ 0x1000 0

theorem witness_DecodeOfEncodeIsTheCommand :
    (Instr.gprset .merge8High 3).wellFormed = true ∧ (Instr.gprget .merge8Low 8).wellFormed = true := by decide

theorem witness_DecodedWordIsTheEncodingOfItsCommand : decode 0x39E00000 = some (.vclear 15) := by decide

theorem witness_DecodeFollowsTheOpcodeTable :
    decode 0x43800000 = some (.gprset .merge8Low 8)
    ∧ ∃ row ∈ opcodeTable, row.mnemonic = "GPRSET" ∧ row.hits 0x43800000 = true := by decide

theorem witness_StepRunsTheDecodedCommand :
    (offer start 0x48000000 none []).inputs = [.request ⟨0x48000000, none, []⟩]
    ∧ (offer start 0x48000000 none []).halted = false ∧ decode 0x48000000 = some (.gprget .full64 0) :=
  ⟨rfl, rfl, by decide⟩

theorem witness_IllegalWordHaltsTheBlock :
    (offer start 0 none []).inputs = [.request ⟨0, none, []⟩] ∧ (offer start 0 none []).halted = false
    ∧ decode 0 = none := ⟨rfl, rfl, by decide⟩

theorem witness_MalformedPayloadIsFatal :
    payloadMatches (.mrd .u32) (ask start none []).port = false
    ∧ payloadMatches (.gprset .full64 0) (ask start none [⟨32, 0⟩]).port = false
    ∧ payloadMatches (.vclear 0) (ask start (some 0) []).port = false := by decide

theorem witness_HaltedBlockAnswersItsCause :
    (offer stopped 0 none []).inputs = [.request ⟨0, none, []⟩] ∧ (offer stopped 0 none []).halted = true :=
  ⟨rfl, rfl⟩

theorem witness_FatalCommandRecordsItsCauseOnly :
    (∃ t, exec .mrdb (ask bounded (some 0xFFF) []) = .next t
      ∧ t.responses = (ask bounded (some 0xFFF) []).responses ++ [⟨.fatal, .addrBelowBase, []⟩])
    ∧ (∃ t, exec (.mwrv .u8 1) (ask bounded (some 0xFFF) [⟨8, 1⟩]) = .next t
      ∧ t.responses = (ask bounded (some 0xFFF) [⟨8, 1⟩]).responses ++ [⟨.fatal, .addrBelowBase, []⟩])
    ∧ ∀ wc count, Instr.mrdb ≠ .mwrv wc count :=
  ⟨⟨_, rfl, by decide +kernel⟩, ⟨_, rfl, by decide +kernel⟩, nofun⟩

theorem witness_FailHasItsConditionAndChangesNothing :
    payloadMatches (.vsetbit .xmm 0 128 true) (ask start none []).port = true
    ∧ failReason start.params (.vsetbit .xmm 0 128 true) = some .bitposOutOfWindow
    ∧ failReason start.params (.vsetbit .xmm 0 127 true) = none
    ∧ payloadMatches (.vgetsel 0 0 .u8 0 7) (ask bounded none []).port = true
    ∧ failReason bounded.params (.vgetsel 0 0 .u8 0 7) = some .selectorReversed
    ∧ failReason start.params (.vgetsel 0 0 .u8 0 7) = none
    ∧ encodeSelectorCall (.get 0 0 .u8 ['[', '5', '1', '2', ':', '0', ']']) = none := by decide

theorem witness_EveryRequestGetsOneResponse :
    (offer stopped 0 none []).inputs = [.request ⟨0, none, []⟩]
    ∧ (offer start 0x48000000 none []).inputs = [.request ⟨0x48000000, none, []⟩] := ⟨rfl, rfl⟩

theorem witness_OnlyResetLeavesTheFault :
    (offer stopped 0x48000000 none []).halted = true
    ∧ ∀ base abandoned later, (offer stopped 0x48000000 none []).inputs ≠ .reset base abandoned :: later :=
  ⟨rfl, nofun⟩

theorem witness_ResetEmptiesMemoryAndClearsTheFault :
    (stopped.withInputs [.reset 0x40 (some ⟨0x48000000, none, []⟩)]).inputs
      = [.reset 0x40 (some ⟨0x48000000, none, []⟩)] := rfl

theorem witness_ResetSamplesBaseAndDrawsTheCells :
    (stopped.withInputs [.reset 0x40 none]).inputs = [.reset 0x40 none]
    ∧ (stopped.withInputs [.reset 0x40 none]).params.regReset = .zero
    ∧ (({ stopped with params := ⟨none, .uniform, .swap, .arbitrary⟩ } : State).withInputs
        [.reset 0x40 none]).params.regReset = .arbitrary := ⟨rfl, rfl, rfl⟩

theorem witness_NoCommandChangesTheConfiguration :
    (∃ t, step (offer bounded 0x48000000 none []) = .next t)
    ∧ ∀ base abandoned later, (offer bounded 0x48000000 none []).inputs ≠ .reset base abandoned :: later :=
  ⟨⟨_, rfl⟩, nofun⟩

theorem witness_IdleBlockKeepsItsState : held.inputs = [] := rfl

theorem witness_RunAnswersEveryRequest : start.halted = false := rfl

theorem witness_EveryStepKeepsTheStateWellFormed :
    held.Inv ∧ ∃ t, step held = .next t := ⟨held_inv, _, rfl⟩

/-- The other case: a step that allocates. -/
theorem witness_EveryStepKeepsTheStateWellFormed_store :
    (offer held 0x88000000 (some 0x200) [⟨8, 1⟩]).Inv
    ∧ ∃ t, step (offer held 0x88000000 (some 0x200) [⟨8, 1⟩]) = .next t ∧ t.segs = [⟨0, 1024⟩] :=
  ⟨held_inv.congr rfl rfl rfl rfl rfl, _, rfl, by decide +kernel⟩

theorem bounded_inv : bounded.Inv where
  memWf := rfl
  segsWf := trivial
  cellsMapped := fun _ h => absurd rfl h
  cellsInSpace := fun _ h => absurd rfl h
  faultAgrees := rfl

theorem witness_EveryStepStaysWithinMaxChunks :
    (offer bounded 0x88000000 (some 0x1000) [⟨8, 1⟩]).Inv
    ∧ (offer bounded 0x88000000 (some 0x1000) [⟨8, 1⟩]).withinCapacity
    ∧ ∃ t, step (offer bounded 0x88000000 (some 0x1000) [⟨8, 1⟩]) = .next t ∧ allocated t.segs = 1 :=
  ⟨bounded_inv.congr rfl rfl rfl rfl rfl, Nat.zero_le 2, _, rfl, by decide +kernel⟩

theorem witness_VsetbitWritesOneBitOfTheWindow :
    (ask start none []).presents none [] ∧ (127 : Fin 512).val < Window.xmm.bits
    ∧ Window.xmm.bits ≤ (128 : Fin 512).val ∧ (511 : Fin 512).val < Window.zmm.bits := by
  refine ⟨ask_presents .., ?_⟩; decide

theorem witness_VgetbitReadsTheBit :
    (ask start none []).presents none [] ∧ (255 : Fin 512).val < Window.ymm.bits
    ∧ Window.ymm.bits ≤ (256 : Fin 512).val := by
  refine ⟨ask_presents .., ?_⟩; decide

theorem witness_VgetsecReadsTheSections : (ask start none []).presents none [] := ask_presents ..

theorem witness_VsetsecWritesTheSectionsAndClearsAbove :
    (ask start none (elems [0x5A#128])).presents none (elems [0x5A#128])
    ∧ [0x5A#128].length = (1 : Fin 65536).val ∧ (1 : Fin 65536).val * Width.u128.bits = Window.xmm.bits
    ∧ (1 : Fin 65536).val * Width.u128.bits ≠ Window.ymm.bits := by
  refine ⟨ask_presents .., ?_⟩; decide

theorem witness_VgetselReadsTheRange :
    (ask start none []).presents none [] ∧ (ask bounded none []).presents none []
    ∧ (0 : Fin 512).val ≤ (7 : Fin 512).val ∧ max 7 0 - min 7 0 + 1 ≤ Width.u8.bits
    ∧ Width.u8.bits < max 8 0 - min 8 0 + 1 ∧ (ask start none []).params.selectorOrder = .swap
    ∧ (0 : Fin 512).val < (511 : Fin 512).val ∧ (ask bounded none []).params.selectorOrder = .reject := by
  refine ⟨ask_presents .., ask_presents .., ?_⟩; decide

theorem witness_VsetselWritesTheRange :
    (ask start none [⟨8, 0xFF⟩]).presents none [⟨8, 0xFF⟩] ∧ (ask bounded none [⟨8, 0xFF⟩]).presents none [⟨8, 0xFF⟩]
    ∧ (ask start none [⟨8, 0xFF⟩]).params.selectorOrder = .swap
    ∧ (504 : Fin 512).val ≤ (511 : Fin 512).val ∧ (0 : Fin 512).val < (1 : Fin 512).val
    ∧ (ask bounded none [⟨8, 0xFF⟩]).params.selectorOrder = .reject := by
  refine ⟨ask_presents .., ask_presents .., ?_⟩; decide

theorem witness_VclearZeroesItsCell : (ask start none []).presents none [] := ask_presents ..

theorem witness_VectorCellsAreIndependent :
    vecIndex (.vclear 15) = some 15 ∧ (ask start none []).port = (ask held none []).port
    ∧ (ask start none []).params = (ask held none []).params
    ∧ (ask start none []).vecCell 15 = (ask held none []).vecCell 15
    ∧ (∃ t, exec (.vclear 15) (ask start none []) = .next t)
    ∧ ∃ t, exec (.vclear 15) (ask held none []) = .next t :=
  ⟨rfl, rfl, rfl, rfl, ⟨_, rfl⟩, _, rfl⟩

theorem witness_OnlyVectorCommandsTouchVectorCells :
    (∃ t, exec (.vclear 0) (ask start none []) = .next t) ∧ (vecIndex (.vclear 0)).isSome = true
    ∧ (∃ t, exec .mrdb (ask start (some 0) []) = .next t) ∧ vecIndex .mrdb = none :=
  ⟨⟨_, rfl⟩, rfl, ⟨_, rfl⟩, rfl⟩

theorem witness_SectionsRoundTrip :
    (ask start none (elems [0x5A#128])).presents none (elems [0x5A#128])
    ∧ [0x5A#128].length = (1 : Fin 65536).val ∧ (1 : Fin 65536).val * Width.u128.bits = Window.xmm.bits
    ∧ ∃ t, exec (.vsetsec .xmm 3 .u128 1) (ask start none (elems [0x5A#128])) = .next t
      ∧ (t.withInputs [.request ⟨0, none, []⟩]).presents none [] :=
  ⟨ask_presents .., rfl, rfl, _, rfl, rfl, rfl⟩

theorem witness_SelectorRoundTrip :
    (ask start none [⟨8, 0xFF⟩]).presents none [⟨8, 0xFF⟩] ∧ (504 : Fin 512).val ≤ (511 : Fin 512).val
    ∧ (511 : Fin 512).val - (504 : Fin 512).val + 1 ≤ Width.u8.bits
    ∧ ∃ t, exec (.vsetsel 0 3 .u8 511 504) (ask start none [⟨8, 0xFF⟩]) = .next t
      ∧ (t.withInputs [.request ⟨0, none, []⟩]).presents none [] :=
  ⟨ask_presents .., by decide, by decide, _, rfl, rfl, rfl⟩

theorem witness_SwappedSelectorsAgree : (ask start none []).params.selectorOrder = .swap := rfl

theorem witness_WindowsAliasTheCell :
    (127 : Fin 512).val < Window.xmm.bits ∧ Window.xmm.bits ≤ Window.zmm.bits := by decide

theorem witness_GprsetWritesItsView : isGprName .merge8High 3 = true ∧ isGprName .merge8Low 8 = true
    ∧ (ask start none [⟨64, 0xFF⟩]).presents none [⟨64, 0xFF⟩]
    ∧ (ask bounded none [⟨64, 0xFF⟩]).presents none [⟨64, 0xFF⟩]
    ∧ (ask bounded none [⟨64, 0xFF⟩]).params.aliasPolicy = .raxOnly :=
  ⟨rfl, rfl, ask_presents .., ask_presents .., rfl⟩

theorem witness_GprgetReadsItsView : isGprName .merge8High 3 = true ∧ isGprName .merge8Low 8 = true
    ∧ (ask start none []).presents none []
    ∧ (ask bounded none []).presents none [] ∧ (ask bounded none []).params.aliasPolicy = .raxOnly :=
  ⟨rfl, rfl, ask_presents .., ask_presents .., rfl⟩

theorem witness_OnlyGprsetTouchesItsCell :
    (∃ t, exec (.gprset .merge8High 3) (ask start none [⟨64, 1⟩]) = .next t)
    ∧ (∃ t, exec (.vclear 0) (ask start none []) = .next t) ∧ ∀ view idx, Instr.vclear 0 ≠ .gprset view idx :=
  ⟨⟨_, rfl⟩, ⟨_, rfl⟩, nofun⟩

theorem witness_FlagsCellFollowsItsViews :
    (ask start none [⟨64, 0xFF⟩]).presents none [⟨64, 0xFF⟩] ∧ (ask start none []).presents none [] :=
  ⟨ask_presents .., ask_presents ..⟩

theorem witness_InstructionPointerFollowsItsViews :
    (ask start none [⟨64, 0xFF⟩]).presents none [⟨64, 0xFF⟩] ∧ (ask start none []).presents none [] :=
  ⟨ask_presents .., ask_presents ..⟩

theorem witness_OnlyFlsetAndIpsetTouchFlagsAndIp :
    (∃ t, exec (.vclear 0) (ask start none []) = .next t)
    ∧ (∀ view, Instr.vclear 0 ≠ .flset view) ∧ (∀ view, Instr.vclear 0 ≠ .ipset view)
    ∧ (∃ t, step (offer start 0x48000000 none []) = .next t)
    ∧ (∀ base abandoned later, (offer start 0x48000000 none []).inputs ≠ .reset base abandoned :: later)
    ∧ ∀ view, decode (offer start 0x48000000 none []).port.cmd ≠ some (.ipset view) :=
  ⟨⟨_, rfl⟩, nofun, nofun, ⟨_, rfl⟩, nofun, by intro v; cases v <;> decide⟩

theorem witness_AccessChecksInOrder :
    0xFFF < bounded.base.toNat ∧ bounded.base.toNat ≤ 0x1000 ∧ 2 ^ 64 < 0xFFFFFFFFFFFFFFFF + 2
    ∧ 0xFFFFFFFFFFFFFFFE + 2 ≤ 2 ^ 64 ∧ bounded.params.maxChunks = some 2 ∧ start.params.maxChunks = none
    ∧ allocated bounded.segs + chunksNeeded bounded.segs (0x11FF - bounded.base.toNat) 2 = 2
    ∧ 2 < allocated bounded.segs + chunksNeeded bounded.segs (0x11FF - bounded.base.toNat) 514 := by
  decide +kernel

theorem witness_MemoryReadsAreLittleEndian :
    (ask bounded (some 0xFFFFFFFFFFFFFFFF) []).presents (some 0xFFFFFFFFFFFFFFFF) []
    ∧ (ask bounded (some 0xFFF) []).presents (some 0xFFF) []
    ∧ (0xFFF : Addr).toNat < (ask bounded (some 0xFFF) []).base.toNat
    ∧ bounded.base.toNat ≤ (0xFFFFFFFFFFFFFFFF : Addr).toNat
    ∧ (0xFFFFFFFFFFFFFFFF : Addr).toNat + Width.u8.bytes ≤ 2 ^ 64
    ∧ 2 ^ 64 < (0xFFFFFFFFFFFFFFFF : Addr).toNat + Width.u16.bytes := by
  refine ⟨ask_presents .., ask_presents .., ?_⟩; decide +kernel

theorem witness_MwrStoresItsBytesOnly :
    Memory.wf (ask bounded (some 0x11FF) [⟨16, 0xFFFF⟩]).mem = true
    ∧ segmentsWf (ask bounded (some 0x11FF) [⟨16, 0xFFFF⟩]).segs
    ∧ (ask bounded (some 0x11FF) [⟨16, 0xFFFF⟩]).presents (some 0x11FF) [⟨16, 0xFFFF⟩]
    ∧ (ask bounded (some 0x11FF) [⟨16, 0xFFFF⟩]).accessFault (0x11FF : Addr).toNat Width.u16.bytes .write = none
    ∧ (ask bounded (some 0xFFF) [⟨16, 0xFFFF⟩]).accessFault (0xFFF : Addr).toNat Width.u16.bytes .write
        = some .addrBelowBase := by
  refine ⟨rfl, trivial, ask_presents .., ?_⟩; decide +kernel

theorem witness_MwrbStoresItsByteOnly :
    Memory.wf (ask bounded (some 0x1000) [⟨8, 0⟩]).mem = true ∧ segmentsWf (ask bounded (some 0x1000) [⟨8, 0⟩]).segs
    ∧ (ask bounded (some 0x1000) [⟨8, 0⟩]).presents (some 0x1000) [⟨8, 0⟩]
    ∧ (ask bounded (some 0x1000) [⟨8, 0⟩]).accessFault (0x1000 : Addr).toNat 1 .write = none
    ∧ (ask bounded (some 0xFFF) [⟨8, 0⟩]).accessFault (0xFFF : Addr).toNat 1 .write = some .addrBelowBase := by
  refine ⟨rfl, trivial, ask_presents .., ?_⟩; decide +kernel

theorem witness_MrdvReadsItsElements :
    (ask bounded (some 0xFFFFFFFFFFFFFFF0) []).presents (some 0xFFFFFFFFFFFFFFF0) []
    ∧ bounded.base.toNat ≤ (0xFFFFFFFFFFFFFFF0 : Addr).toNat
    ∧ (0xFFFFFFFFFFFFFFF0 : Addr).toNat + (2 : Fin 65536).val * Width.u64.bytes ≤ 2 ^ 64
    ∧ 2 ^ 64 < (0xFFFFFFFFFFFFFFF0 : Addr).toNat + (3 : Fin 65536).val * Width.u64.bytes
    ∧ (ask bounded (some 0xFFF) []).presents (some 0xFFF) [] ∧ (0xFFF : Addr).toNat < bounded.base.toNat := by
  refine ⟨ask_presents .., ?_, ?_, ?_, ask_presents .., ?_⟩ <;> decide +kernel

/-- The elements run past the top: m is 2 of 3. -/
theorem witness_MwrvCommitsTheElementsBeforeAFault :
    Memory.wf (ask start (some 0xFFFFFFFFFFFFFFF0) (elems [1#64, 2#64, 3#64])).mem = true
    ∧ segmentsWf (ask start (some 0xFFFFFFFFFFFFFFF0) (elems [1#64, 2#64, 3#64])).segs
    ∧ (ask start (some 0xFFFFFFFFFFFFFFF0) (elems [1#64, 2#64, 3#64])).presents (some 0xFFFFFFFFFFFFFFF0)
        (elems [1#64, 2#64, 3#64])
    ∧ [1#64, 2#64, 3#64].length = (3 : Fin 65536).val
    ∧ start.accessFault (0xFFFFFFFFFFFFFFF0 : Addr).toNat (2 * Width.u64.bytes) .write = none
    ∧ start.accessFault (0xFFFFFFFFFFFFFFF0 : Addr).toNat (3 * Width.u64.bytes) .write = some .addrOverflow := by
  refine ⟨rfl, trivial, ask_presents .., rfl, ?_⟩; decide +kernel

/-- The other cases: a chunk too many after the second element, a first element below BASE, and all of them. -/
theorem witness_MwrvCommitsTheElementsBeforeAFault_bounded :
    (ask bounded (some 0x13FE) (elems [1#8, 2#8, 3#8])).presents (some 0x13FE) (elems [1#8, 2#8, 3#8])
    ∧ (bounded.writeByteT 0 1).accessFault (0x13FE : Addr).toNat (2 * Width.u8.bytes) .write = none
    ∧ (bounded.writeByteT 0 1).accessFault (0x13FE : Addr).toNat (3 * Width.u8.bytes) .write = some .outOfChunks
    ∧ bounded.accessFault (0xFFF : Addr).toNat (1 * Width.u8.bytes) .write = some .addrBelowBase
    ∧ bounded.accessFault (0x13FE : Addr).toNat (3 * Width.u8.bytes) .write = none := by
  refine ⟨ask_presents .., ?_⟩; decide +kernel

theorem witness_MwrvStoresAllThatFits :
    Memory.wf (ask bounded (some 0x11FF) (elems [1#8, 2#8])).mem = true
    ∧ segmentsWf (ask bounded (some 0x11FF) (elems [1#8, 2#8])).segs
    ∧ (ask bounded (some 0x11FF) (elems [1#8, 2#8])).presents (some 0x11FF) (elems [1#8, 2#8])
    ∧ [1#8, 2#8].length = (2 : Fin 65536).val
    ∧ (ask bounded (some 0x11FF) (elems [1#8, 2#8])).accessFault (0x11FF : Addr).toNat (2 * Width.u8.bytes) .write = none
    ∧ (ask bounded (some 0x11FF) (elems ([] : List (BitVec 8)))).presents (some 0x11FF) (elems ([] : List (BitVec 8))) := by
  refine ⟨rfl, trivial, ask_presents .., rfl, ?_, ask_presents ..⟩; decide +kernel

/-- The second element runs past the top, and begins below it. -/
theorem witness_MwrvIsItsElementwiseMwrs :
    bounded.halted = false ∧ [1#16, 2#16].length = (2 : Fin 65536).val
    ∧ ∀ j, j < (2 : Fin 65536).val → (0xFFFFFFFFFFFFFFFD : Addr).toNat + j * Width.u16.bytes < 2 ^ 64 := by
  decide +kernel

theorem witness_MemoryRoundTrip :
    Memory.wf (ask bounded (some 0x11FF) [⟨16, 0xFFFF⟩]).mem = true
    ∧ (ask bounded (some 0x11FF) [⟨16, 0xFFFF⟩]).presents (some 0x11FF) [⟨16, 0xFFFF⟩]
    ∧ (ask bounded (some 0x11FF) [⟨16, 0xFFFF⟩]).accessFault (0x11FF : Addr).toNat Width.u16.bytes .write = none
    ∧ ∃ t, exec (.mwr .u16) (ask bounded (some 0x11FF) [⟨16, 0xFFFF⟩]) = .next t
      ∧ (t.withInputs [.request ⟨0, some 0x11FF, []⟩]).presents (some 0x11FF) [] :=
  ⟨rfl, ask_presents .., by decide +kernel, _, rfl, rfl, rfl⟩

theorem witness_OnlyMemoryWritesTouchMemory :
    (∃ t, exec .mrdb (ask start (some 0) []) = .next t) ∧ writesMemory .mrdb = false
    ∧ isMemoryCommand .mrdb = true
    ∧ (∃ t, exec .mwrb (ask start (some 0) [⟨8, 1⟩]) = .next t) ∧ isMemoryCommand .mwrb = true :=
  ⟨⟨_, rfl⟩, rfl, rfl, ⟨_, rfl⟩, rfl⟩

theorem witness_InspectionFollowsTheSegmentStore : held.Inv := held_inv

theorem witness_SegmentsAreTheMaximalRuns :
    segmentsWf [⟨512, 512⟩, ⟨1536, 1024⟩] ∧ (⟨512, 512⟩ : Segment) ∈ [(⟨512, 512⟩ : Segment), ⟨1536, 1024⟩] := by
  refine ⟨?_, by decide⟩
  unfold segmentsWf segmentsWf
  decide

theorem witness_AllocationTakesOneChunk :
    segmentsWf held.segs ∧ isMapped held.segs 511 = true ∧ isMapped held.segs 512 = false :=
  ⟨held_inv.segsWf, by decide +kernel, by decide +kernel⟩

theorem witness_AdjacentChunksCoalesce : start.segs = [] := rfl

theorem witness_SelectorStringsParse :
    decimalValue [5, 1, 1] < 512 ∧ decimalValue [0, 0, 7] < 512 ∧ 512 ≤ decimalValue [5, 1, 2] := by decide

theorem witness_SelectorCommandRunsItsEncoding :
    start.halted = false ∧ parseSelector ['[', '7', ':', '0', ']'] = some (7, 0)
    ∧ (start.withInputs [.selector (.get 0 0 .u8 ['[', '7', ':', '0', ']'])]).inputs
      = [.selector (.get 0 0 .u8 ['[', '7', ':', '0', ']'])] := ⟨rfl, by decide, rfl⟩

theorem witness_RegisterNamesAssemble :
    gprName .merge8High 3 = some "BH" ∧ gprName .zext32 15 = some "R15D" ∧ gprName .merge8Low 4 = none := by
  decide +kernel

end Sys2Proof.Tests
end

/-! PROOFS. What a command and a step keep, read off the inversions of Laws/Ops and Laws/Step once per part of the
state: `ExecResult` says how a command ends, `ServeResult` how a request is served, `StepResult` how a move of the host
is answered. -/

namespace Sys2Proof.Machine

/-! ### What a command keeps, whatever its response -/

theorem vecIndex_eq_none_of_writesMemory {i : Instr} (h : writesMemory i = true) : vecIndex i = none := by
  cases i with
  | mwrb => rfl
  | mwr wc => rfl
  | mwrv wc count => rfl
  | _ => cases h

namespace ExecResult

variable {i : Instr} {s t : State}

/-- A vector cell that the command does not name stays. -/
theorem vecCell_of_vecIndex_ne (h : ExecResult i s t) {j : Fin 16} (hj : vecIndex i ≠ some j) :
    t.vecCell j = s.vecCell j := by
  cases h with
  | vec idx v d hi hf =>
    have hne : j ≠ idx := fun e => hj (e ▸ hi)
    exact State.setVec_vecCell_of_ne s idx j v hne
  | write u he hu => rw [hu.eq]; rfl
  | writeFault u c wc count he hu => rw [hu.eq]; rfl
  | _ => rfl

theorem sameVec (h : ExecResult i s t) (hi : vecIndex i = none) : SameVec s t :=
  fun j => h.vecCell_of_vecIndex_ne (by simp [hi])

theorem sameGpr (h : ExecResult i s t) (hi : ∀ view idx, i ≠ .gprset view idx) : SameGpr s t := by
  cases h with
  | gpr view idx v he => exact absurd he (hi view idx)
  | write u he hu => rw [hu.eq]; exact fun _ => rfl
  | writeFault u c wc count he hu => rw [hu.eq]; exact fun _ => rfl
  | _ => exact fun _ => rfl

theorem sameFl (h : ExecResult i s t) (hi : ∀ view, i ≠ .flset view) : t.fl = s.fl := by
  cases h with
  | fl view v he => exact absurd he (hi view)
  | write u he hu => rw [hu.eq]; rfl
  | writeFault u c wc count he hu => rw [hu.eq]; rfl
  | _ => rfl

theorem sameIp (h : ExecResult i s t) (hi : ∀ view, i ≠ .ipset view) : t.ip = s.ip := by
  cases h with
  | ip view v he => exact absurd he (hi view)
  | write u he hu => rw [hu.eq]; rfl
  | writeFault u c wc count he hu => rw [hu.eq]; rfl
  | _ => rfl

theorem sameMemory (h : ExecResult i s t) (hi : writesMemory i = false) : SameMemory s t := by
  cases h with
  | write u he hu => simp [he] at hi
  | writeFault u c wc count he hu => subst he; cases hi
  | _ => exact ⟨fun _ => rfl, rfl⟩

theorem inv (h : ExecResult i s t) (hs : s.Inv) : t.Inv := by
  cases h with
  | fatal c => exact hs.raiseFatal c
  | write u he hu => exact (hu.inv hs).congr rfl rfl rfl rfl rfl
  | writeFault u c wc count he hu => exact (hu.inv hs).raiseFatal c
  | _ => exact hs.congr rfl rfl rfl rfl rfl

end ExecResult

/-! ### Serving a request, and a step -/

/-- The ways a request is served (60_exceptions.md R106). -/
inductive ServeResult (s : State) : State → Prop
  | halted (hh : s.halted = true) : ServeResult s s.respondHalted
  | illegal (hh : s.halted = false) (hd : decode s.port.cmd = none) : ServeResult s (s.raiseFatal .illegalCommand)
  | command {t : State} (i : Instr) (hh : s.halted = false) (hd : decode s.port.cmd = some i)
      (hr : ExecResult i s t) : ServeResult s t

/-- The ways a step answers the host's next move (70_reset_and_hazards.md R124). -/
inductive StepResult (s : State) : State → Prop
  | reset (base : Addr) (abandoned : Option Request) (later : List HostMove)
      (hin : s.inputs = .reset base abandoned :: later) : StepResult s (s.takeReset base later)
  | idle (hin : s.inputs = []) : StepResult s s
  | selectorParse (c : SelectorCall) (later : List HostMove) (hin : s.inputs = .selector c :: later)
      (he : encodeSelectorCall c = none) : StepResult s (s.respondFail .selectorParse)
  | request {t : State} (r : Request) (later : List HostMove) (hin : s.inputs = .request r :: later)
      (hr : ServeResult s t) : StepResult s t
  | selector {t : State} (c : SelectorCall) (later : List HostMove) (r : Request)
      (hin : s.inputs = .selector c :: later) (he : encodeSelectorCall c = some r)
      (hr : ServeResult (s.withInputs (.request r :: later)) t) : StepResult s t

theorem serve_inversion {s t : State} (h : s.serve = .next t) : ServeResult s t := by
  obtain ⟨hh, hs⟩ | ⟨hh, hd, hs⟩ | ⟨i, u, hh, hd, hs, hr⟩ := serve_result s
  all_goals
    rw [hs] at h
    cases h
  · exact .halted hh
  · exact .illegal hh hd
  · exact .command i hh hd hr

theorem step_inversion {s t : State} (h : step s = .next t) : StepResult s t := by
  cases hin : s.inputs with
  | nil =>
    simp only [step, State.serveMove, hin] at h
    cases h
    exact .idle hin
  | cons m later =>
    simp only [step, State.serveMove, hin] at h
    cases m with
    | request r => exact .request r later hin (serve_inversion h)
    | selector c =>
      cases he : encodeSelectorCall c with
      | none =>
        simp only [State.serveSelector, he] at h
        cases h
        exact .selectorParse c later hin he
      | some r =>
        simp only [State.serveSelector, he] at h
        exact .selector c later r hin he (serve_inversion h)
    | reset base abandoned =>
      cases h
      exact .reset base abandoned later hin

namespace ServeResult

variable {s t : State}

theorem config (h : ServeResult s t) : SameConfig s t := by
  cases h with
  | halted hh => exact ⟨rfl, rfl, rfl⟩
  | illegal hh hd => exact ⟨rfl, rfl, rfl⟩
  | command i hh hd hr => exact hr.config

theorem sameIp (h : ServeResult s t) (hi : ∀ view, decode s.port.cmd ≠ some (.ipset view)) : t.ip = s.ip := by
  cases h with
  | halted hh => rfl
  | illegal hh hd => rfl
  | command i hh hd hr => exact hr.sameIp fun view e => hi view (e ▸ hd)

theorem inv (h : ServeResult s t) (hs : s.Inv) : t.Inv := by
  cases h with
  | halted hh => exact hs.congr rfl rfl rfl rfl rfl
  | illegal hh hd => exact hs.raiseFatal _
  | command i hh hd hr => exact hr.inv hs

end ServeResult

/-! ### The state after a reset -/

namespace State

@[simp] theorem resetWith_vecCell (p : Params) (base : Addr) (k : Nat) (i : Fin 16) :
    (resetWith p base k).vecCell i = resetCell p.regReset (Config.vecDraw k i) := by
  simp [resetWith, vecCell]

@[simp] theorem resetWith_gprCell (p : Params) (base : Addr) (k : Nat) (i : Fin 16) :
    (resetWith p base k).gprCell i = resetCell p.regReset (Config.gprDraw k i) := by
  simp [resetWith, gprCell]

theorem resetWith_inv (p : Params) (base : Addr) (k : Nat) : (resetWith p base k).Inv where
  memWf := rfl
  segsWf := trivial
  cellsMapped := fun _ h => absurd rfl h
  cellsInSpace := fun _ h => absurd rfl h
  faultAgrees := rfl

theorem resetWith_withinCapacity (p : Params) (base : Addr) (k : Nat) : (resetWith p base k).withinCapacity := by
  unfold withinCapacity
  split
  · trivial
  · exact Nat.zero_le _

@[simp] theorem takeReset_vecCell (s : State) (base : Addr) (later : List HostMove) (i : Fin 16) :
    (s.takeReset base later).vecCell i = resetCell s.params.regReset (Config.vecDraw s.resets i) :=
  resetWith_vecCell s.params base s.resets i

@[simp] theorem takeReset_gprCell (s : State) (base : Addr) (later : List HostMove) (i : Fin 16) :
    (s.takeReset base later).gprCell i = resetCell s.params.regReset (Config.gprDraw s.resets i) :=
  resetWith_gprCell s.params base s.resets i

@[simp] theorem takeReset_fl (s : State) (base : Addr) (later : List HostMove) :
    (s.takeReset base later).fl = resetCell s.params.regReset (Config.flDraw s.resets) := rfl

@[simp] theorem takeReset_ip (s : State) (base : Addr) (later : List HostMove) :
    (s.takeReset base later).ip = resetCell s.params.regReset (Config.ipDraw s.resets) := rfl

theorem takeReset_inv (s : State) (base : Addr) (later : List HostMove) : (s.takeReset base later).Inv :=
  (resetWith_inv s.params base s.resets).congr rfl rfl rfl rfl rfl

end State

/-! ### The obligations on every step -/

/-- Settles O21: each way a step answers keeps the invariant; the byte writes of a command are `Written.inv`. -/
theorem everyStepKeepsTheStateWellFormed : Obligations.EveryStepKeepsTheStateWellFormed := by
  intro s t hs h
  cases step_inversion h with
  | reset base abandoned later hin => exact s.takeReset_inv base later
  | idle hin => exact hs
  | selectorParse c later hin he => exact hs.congr rfl rfl rfl rfl rfl
  | request r later hin hr => exact hr.inv hs
  | selector c later r hin he hr => exact hr.inv (hs.congr rfl rfl rfl rfl rfl)

/-- Settles O16: serving a request keeps the configuration, and no other move but a reset writes it. -/
theorem noCommandChangesTheConfiguration : Obligations.NoCommandChangesTheConfiguration := by
  intro s t h hne
  cases step_inversion h with
  | reset base abandoned later hin => exact absurd hin (hne base abandoned later)
  | idle hin => exact ⟨rfl, rfl, rfl⟩
  | selectorParse c later hin he => exact ⟨rfl, rfl, rfl⟩
  | request r later hin hr => exact hr.config
  | selector c later r hin he hr => exact hr.config

/-- The request the host's encoder makes of a selector call is no IPSET (30_encoding.md R64). -/
theorem decode_encodeSelectorCall_ne_ipset {c : SelectorCall} {r : Request} (h : encodeSelectorCall c = some r)
    (view : CellView) : decode r.cmd ≠ some (.ipset view) := by
  intro hd
  cases c with
  | get win idx wc text =>
    obtain ⟨p, -, rfl⟩ := Option.map_eq_some_iff.1 h
    have hop : (field (encode (.vgetsel win idx wc p.1 p.2)) 27 5).val = 0x05 :=
      Laws.EncodesOpcode.vgetsel win idx wc p.1 p.2
    simp [decode, hop, decodeVgetsel] at hd
  | set win idx wc text value =>
    obtain ⟨p, -, rfl⟩ := Option.map_eq_some_iff.1 h
    have hop : (field (encode (.vsetsel win idx wc p.1 p.2)) 27 5).val = 0x06 :=
      Laws.EncodesOpcode.vsetsel win idx wc p.1 p.2
    simp [decode, hop, decodeVsetsel] at hd

/-- Settles O42, by the frames of FL and IP over the results of a command, and of IP over those of a step. -/
theorem onlyFlsetAndIpsetTouchFlagsAndIp : Obligations.OnlyFlsetAndIpsetTouchFlagsAndIp := by
  refine ⟨fun i s t h => ⟨(exec_inversion h).sameFl, (exec_inversion h).sameIp⟩, ?_⟩
  intro s t h hne hip
  cases step_inversion h with
  | reset base abandoned later hin => exact absurd hin (hne base abandoned later)
  | idle hin => rfl
  | selectorParse c later hin he => rfl
  | request r later hin hr => exact hr.sameIp hip
  | selector c later r hin he hr => exact hr.sameIp (decode_encodeSelectorCall_ne_ipset he)

/-- Settles O31, by the frames of every part of the state over the results of a command. -/
theorem onlyVectorCommandsTouchVectorCells : Obligations.OnlyVectorCommandsTouchVectorCells := by
  intro i s t h
  have hr := exec_inversion h
  refine ⟨fun hv => ⟨hr.sameGpr ?_, hr.sameFl ?_, hr.sameIp ?_, hr.sameMemory ?_, hr.config⟩, hr.sameVec⟩
  · rintro view idx rfl; cases hv
  · rintro view rfl; cases hv
  · rintro view rfl; cases hv
  · cases hw : writesMemory i with
    | false => rfl
    | true => simp [vecIndex_eq_none_of_writesMemory hw] at hv

/-! ### The obligations on a reset -/

/-- Settles O14: the state after the reset is written out by `step_of_reset`. -/
theorem resetEmptiesMemoryAndClearsTheFault : Obligations.ResetEmptiesMemoryAndClearsTheFault := by
  intro s base abandoned later hin
  exact ⟨_, step_of_reset hin, rfl, fun _ => rfl, rfl, rfl⟩

/-- Settles O15, by what each register cell holds after a reset. -/
theorem resetSamplesBaseAndDrawsTheCells : Obligations.ResetSamplesBaseAndDrawsTheCells := by
  intro s base abandoned later hin
  refine ⟨_, step_of_reset hin, rfl, rfl, rfl, rfl, fun hz => ?_, fun ha => ?_, rfl⟩
  · simp [hz, resetCell]
  · simp [ha, resetCell]

/-- Settles O19, field by field. -/
theorem resetStateIsTheSpecs : Obligations.ResetStateIsTheSpecs :=
  ⟨rfl, fun _ => rfl, rfl, rfl, rfl, rfl, State.resetWith_vecCell Config.params Config.base 0,
    State.resetWith_gprCell Config.params Config.base 0, rfl, rfl⟩

/-- Settles O20: memory is empty and no fault is recorded after any reset. -/
theorem resetStateMeetsTheInvariant : Obligations.ResetStateMeetsTheInvariant :=
  ⟨State.resetWith_inv .., State.resetWith_withinCapacity .., fun p base k =>
    ⟨State.resetWith_inv p base k, State.resetWith_withinCapacity p base k⟩⟩

end Sys2Proof.Machine

/-! PROOFS. Vector commands side by side (10_state.md R13): on two states that agree on the request, the parameters and
the named cell, a vector command does the same thing to both. -/

namespace Sys2Proof.Machine

/-- What a vector command that names cell `idx` does to two states: the same response, and where it writes, the same
value to cell `idx`. -/
inductive SameVectorEffect (idx : Fin 16) (s s' : State) : State → State → Prop
  | fatal (c : Cause) : SameVectorEffect idx s s' (s.raiseFatal c) (s'.raiseFatal c)
  | fail (r : Reason) : SameVectorEffect idx s s' (s.respondFail r) (s'.respondFail r)
  | read (d : List Elem) : SameVectorEffect idx s s' (s.respondOk d) (s'.respondOk d)
  | write (v : VecCell) : SameVectorEffect idx s s' ((s.setVec idx v).respondOk []) ((s'.setVec idx v).respondOk [])

theorem SameVectorEffect.vecCell_eq {idx : Fin 16} {s s' t t' : State} (h : SameVectorEffect idx s s' t t')
    (hcell : s.vecCell idx = s'.vecCell idx) : t.vecCell idx = t'.vecCell idx := by
  cases h with
  | write v => exact (State.setVec_vecCell_self s idx v).trans (State.setVec_vecCell_self s' idx v).symm
  | _ => exact hcell

theorem SameVectorEffect.sameResponse {idx : Fin 16} {s s' t t' : State} (h : SameVectorEffect idx s s' t t') :
    ∃ resp, t.responses = s.responses ++ [resp] ∧ t'.responses = s'.responses ++ [resp] := by
  cases h <;> exact ⟨_, rfl, rfl⟩

theorem exec_sameVectorEffect {i : Instr} {idx : Fin 16} {s s' t t' : State} (hi : vecIndex i = some idx)
    (hport : s.port = s'.port) (hparams : s.params = s'.params) (hcell : s.vecCell idx = s'.vecCell idx)
    (ht : exec i s = .next t) (ht' : exec i s' = .next t') : SameVectorEffect idx s s' t t' := by
  cases i with
  | vsetbit win j pos val =>
    cases hi; cases ht; cases ht'
    rw [hport, hcell]
    split
    · split
      · exact .fail _
      · exact .write _
    · exact .fatal _
  | vgetbit win j pos =>
    cases hi; cases ht; cases ht'
    rw [hport, hcell]
    split
    · split
      · exact .fail _
      · exact .read _
    · exact .fatal _
  | vgetsec win j wc =>
    cases hi; cases ht; cases ht'
    rw [hport, hcell]
    split
    · exact .read _
    · exact .fatal _
  | vsetsec win j wc count =>
    cases hi; cases ht; cases ht'
    rw [hport]
    split
    · exact .fatal _
    · split
      · exact .fail _
      · exact .write _
  | vgetsel win j wc a b =>
    cases hi; cases ht; cases ht'
    rw [hport, hparams, hcell]
    split
    · split
      · exact .fail _
      · split
        · exact .fatal _
        · exact .read _
    · exact .fatal _
  | vsetsel win j wc a b =>
    cases hi; cases ht; cases ht'
    rw [hport, hparams, hcell]
    split
    · exact .fatal _
    · split
      · exact .fail _
      · exact .write _
  | vclear j =>
    cases hi; cases ht; cases ht'
    rw [hport]
    split
    · exact .write _
    · exact .fatal _
  | _ => cases hi

/-- Settles O30: one effect on both states, and the frame of the other cells. -/
theorem vectorCellsAreIndependent : Obligations.VectorCellsAreIndependent := by
  intro i idx s s' t t' hi hport hparams hcell ht ht'
  have heffect := exec_sameVectorEffect hi hport hparams hcell ht ht'
  refine ⟨heffect.vecCell_eq hcell, heffect.sameResponse, fun j hj => ?_⟩
  exact (exec_inversion ht).vecCell_of_vecIndex_ne (by simp [hi, hj.symm])

end Sys2Proof.Machine

/-! PROOFS. Assembling a line of a register name (30_encoding.md R65, R66): the line is cut at its space and its comma,
because a name holds no separator, and the name finds its (view, index) pair again. -/

namespace Sys2Proof.Machine

/-! ### Cutting a line -/

/-- The characters that end an operand or group a list (30_encoding.md R65). -/
def separators : List Char := [' ', ',', listOpen, listClose]

/-- A text that stands as one operand: not empty and without separators. -/
def BareText (text : List Char) : Prop := text ≠ [] ∧ ∀ c ∈ text, c ∉ separators

theorem BareText.ne_space {text : List Char} (h : BareText text) {c : Char} (hc : c ∈ text) : c ≠ ' ' := by
  rintro rfl
  exact h.2 _ hc (by decide)

theorem skipSpaces_eq_self {text : List Char} (h : ∀ c ∈ text.head?, c ≠ ' ') : skipSpaces text = text := by
  cases text with
  | nil => rfl
  | cons c cs => exact if_neg (h c rfl)

theorem trimSpaces_eq_self {text : List Char} (hhead : ∀ c ∈ text.head?, c ≠ ' ')
    (hlast : ∀ c ∈ text.getLast?, c ≠ ' ') : trimSpaces text = text := by
  unfold trimSpaces
  rw [skipSpaces_eq_self hhead, skipSpaces_eq_self (by simpa using hlast), List.reverse_reverse]

theorem BareText.trimSpaces_space_cons {text : List Char} (h : BareText text) : trimSpaces (' ' :: text) = text :=
  trimSpaces_eq_self (fun _ hc => h.ne_space (List.mem_of_mem_head? hc))
    (fun _ hc => h.ne_space (List.mem_of_getLast? hc))

theorem breakAt_of_forall_not {p : Char → Bool} {text : List Char} (h : ∀ c ∈ text, p c = false) :
    breakAt p text = (text, []) := by
  induction text with
  | nil => rfl
  | cons c cs ih =>
    obtain ⟨hc, hcs⟩ := List.forall_mem_cons.1 h
    simp [breakAt, hc, ih hcs]

theorem breakAt_append_cons {p : Char → Bool} {text rest : List Char} {d : Char} (h : ∀ c ∈ text, p c = false)
    (hd : p d = true) : breakAt p (text ++ d :: rest) = (text, d :: rest) := by
  induction text with
  | nil => simp [breakAt, hd]
  | cons c cs ih =>
    obtain ⟨hc, hcs⟩ := List.forall_mem_cons.1 h
    simp [breakAt, hc, ih hcs]

theorem splitOperands_ne_nil (inList : Bool) (text : List Char) : splitOperands inList text ≠ [] := by
  cases text with
  | nil => nofun
  | cons c cs =>
    simp only [splitOperands]
    split
    · nofun
    · split <;> nofun

/-- A character that neither cuts nor opens a list goes to the first operand. -/
theorem splitOperands_cons {c : Char} (cs : List Char) (h1 : c ≠ ',') (h2 : c ≠ listOpen) (h3 : c ≠ listClose) :
    splitOperands false (c :: cs) = (splitOperands false cs).modifyHead (c :: ·) := by
  cases hs : splitOperands false cs with
  | nil => exact absurd hs (splitOperands_ne_nil false cs)
  | cons p ps => simp [splitOperands, h1, h2, h3, hs]

theorem splitOperands_append {text rest : List Char} (h : ∀ c ∈ text, c ∉ separators) :
    splitOperands false (text ++ rest) = (splitOperands false rest).modifyHead (text ++ ·) := by
  induction text with
  | nil => exact (congrFun List.modifyHead_id _).symm
  | cons c cs ih =>
    obtain ⟨hc, hcs⟩ := List.forall_mem_cons.1 h
    simp only [separators, List.mem_cons, List.not_mem_nil, or_false, not_or] at hc
    obtain ⟨-, hcomma, hopen, hclose⟩ := hc
    rw [List.cons_append, splitOperands_cons _ hcomma hopen hclose, ih hcs, List.modifyHead_modifyHead]
    rfl

theorem BareText.splitOperands_eq {text : List Char} (h : BareText text) : splitOperands false text = [text] := by
  simpa [splitOperands] using splitOperands_append (rest := []) h.2

/-- A line `<mnemonic> <operands>` of a scalar command: its operands are cut from what stands after the space. -/
theorem assemble_scalar_line {mnemonic : String} {rest : List Char} {r : Request} (hm : mnemonic.toList ≠ [])
    (hfree : ∀ c ∈ mnemonic.toList, c ≠ ' ' ∧ c ≠ '.') (hrest : rest ≠ []) (hlast : ∀ c ∈ rest.getLast?, c ≠ ' ')
    (hvector : ∀ ops, asmPlainVector mnemonic ops = .badLine)
    (hscalar : asmScalar mnemonic ((splitOperands false (' ' :: rest)).map trimSpaces) = .request r) :
    assemble (mnemonic.toList ++ ' ' :: rest) = .request r := by
  have htrim : trimSpaces (mnemonic.toList ++ ' ' :: rest) = mnemonic.toList ++ ' ' :: rest := by
    refine trimSpaces_eq_self (fun c hc => ?_) (fun c hc => hlast c ?_)
    · rw [List.head?_append_of_ne_nil _ hm] at hc
      exact (hfree c (List.mem_of_mem_head? hc)).1
    · rwa [List.getLast?_append_of_ne_nil _ (List.cons_ne_nil _ _), List.getLast?_cons_of_ne_nil hrest] at hc
  have hspace : breakAt (fun c => decide (c = ' ')) (mnemonic.toList ++ ' ' :: rest)
      = (mnemonic.toList, ' ' :: rest) :=
    breakAt_append_cons (fun c hc => by simp [(hfree c hc).1]) rfl
  have hdot : breakAt (fun c => decide (c = '.')) mnemonic.toList = (mnemonic.toList, []) :=
    breakAt_of_forall_not fun c hc => by simp [(hfree c hc).2]
  simp only [assemble, htrim, hspace, hdot, String.ofList_toList, hvector, hscalar]

/-! ### The register names of 10_state.md R17 -/

/-- The (view, index) pairs, in the order in which a name is looked up. -/
def gprPairs : List (GprView × Fin 16) := allGprViews.flatMap fun view => allIndices.map fun idx => (view, idx)

theorem mem_gprPairs (p : GprView × Fin 16) : p ∈ gprPairs := by
  obtain ⟨view, idx⟩ := p
  cases view <;> simp [gprPairs, allGprViews, allIndices]

theorem gprName_injOn_gprPairs : ∀ p ∈ gprPairs, ∀ q ∈ gprPairs,
    (gprName p.1 p.2).isSome = true → gprName p.1 p.2 = gprName q.1 q.2 → p = q := by decide +kernel

/-- No two pairs have one name. -/
theorem pair_eq_of_gprName {p q : GprView × Fin 16} {name : String} (hp : gprName p.1 p.2 = some name)
    (hq : gprName q.1 q.2 = some name) : p = q :=
  gprName_injOn_gprPairs p (mem_gprPairs p) q (mem_gprPairs q) (by simp [hp]) (hp.trans hq.symm)

/-- Looking up a register name gives its pair back: some pair is found, and no other one has that name. -/
theorem gprOfName_of_gprName {view : GprView} {idx : Fin 16} {name : String} (h : gprName view idx = some name) :
    gprOfName name.toList = some (view, idx) := by
  have hfound : (gprOfName name.toList).isSome = true :=
    List.find?_isSome.2 ⟨(view, idx), mem_gprPairs (view, idx), by simp [h]⟩
  obtain ⟨q, hq⟩ := Option.isSome_iff_exists.1 hfound
  have hname : (gprName q.1 q.2).map String.toList = some name.toList := by
    simpa only [decide_eq_true_eq] using List.find?_some hq
  obtain ⟨name', hname', heq⟩ := Option.map_eq_some_iff.1 hname
  rw [String.toList_inj.1 heq] at hname'
  rw [hq, pair_eq_of_gprName (p := (view, idx)) h hname']

theorem gprName_separatorFree : ∀ p ∈ gprPairs, ∀ name ∈ gprName p.1 p.2,
    (!name.toList.isEmpty && name.toList.all fun c => !separators.contains c) = true := by decide +kernel

section

variable {view : GprView} {idx : Fin 16} {name : String}

theorem bareText_of_gprName (h : gprName view idx = some name) : BareText name.toList := by
  simpa [BareText] using gprName_separatorFree (view, idx) (mem_gprPairs (view, idx)) name h

theorem assemble_gprget (h : gprName view idx = some name) :
    assemble ("GPRGET ".toList ++ name.toList) = .request ⟨encode (.gprget view idx), none, []⟩ := by
  have hbare := bareText_of_gprName h
  have hline : "GPRGET ".toList = "GPRGET".toList ++ [' '] := by decide
  have hops : (splitOperands false (' ' :: name.toList)).map trimSpaces = [name.toList] := by
    rw [splitOperands_cons _ (by decide) (by decide) (by decide), hbare.splitOperands_eq]
    simp [hbare.trimSpaces_space_cons]
  rw [hline, List.append_assoc, List.singleton_append]
  refine assemble_scalar_line (by decide) (by simp) hbare.1
    (fun c hc => hbare.ne_space (List.mem_of_getLast? hc)) (by simp [asmPlainVector]) ?_
  simp [hops, asmScalar, asmRequest, gprOfName_of_gprName h]

theorem assemble_gprset (h : gprName view idx = some name) :
    assemble ("GPRSET ".toList ++ name.toList ++ ", 0x7F".toList)
      = .request ⟨encode (.gprset view idx), none, [⟨64, 0x7F⟩]⟩ := by
  have hbare := bareText_of_gprName h
  have hline : "GPRSET ".toList = "GPRSET".toList ++ [' '] := by decide
  have hops : (splitOperands false (' ' :: (name.toList ++ ", 0x7F".toList))).map trimSpaces
      = [name.toList, "0x7F".toList] := by
    have hcut : splitOperands false ", 0x7F".toList = [[], " 0x7F".toList] := by decide
    have htrim : trimSpaces " 0x7F".toList = "0x7F".toList := by decide
    rw [splitOperands_cons _ (by decide) (by decide) (by decide), splitOperands_append hbare.2, hcut]
    simp only [List.modifyHead_cons, List.append_nil, List.map_cons, List.map_nil, htrim,
      hbare.trimSpaces_space_cons]
  have hvalue : parseValue 64 "0x7F".toList = some 0x7F := by decide
  rw [hline, List.append_assoc, List.append_assoc, List.singleton_append]
  refine assemble_scalar_line (by decide) (by simp) (by simp) (by simp) (by simp [asmPlainVector]) ?_
  rw [hops]
  simp only [asmScalar, hvalue, gprOfName_of_gprName h]
  rfl

end

/-- Settles O60, by the two lines' cuts and the names' uniqueness. -/
theorem registerNamesAssemble : Obligations.RegisterNamesAssemble := by
  refine ⟨fun view idx name h => ⟨assemble_gprget h, assemble_gprset h⟩, ?_⟩
  intro view view' idx idx' name h h'
  exact Prod.mk.inj (pair_eq_of_gprName (p := (view, idx)) (q := (view', idx')) h h')

end Sys2Proof.Machine

/-! PROOFS. The memory commands (20_memory.md, 42_memory_ops.md): the capacity every step keeps (R39), the segment list
as the maximal runs of mapped addresses (R42), the inspection view as the store of R36 to R38, and what a read and a
write of one element do. -/

namespace Sys2Proof.Machine

/-! ### The capacity (R39) -/

/-- The capacity speaks of the parameters and the segments only. -/
theorem State.withinCapacity.congr {s t : State} (h : s.withinCapacity) (hp : t.params = s.params)
    (hg : t.segs = s.segs) : t.withinCapacity := by
  unfold State.withinCapacity
  rw [hp, hg]
  exact h

theorem State.withinCapacity_of_some {s : State} {m : Nat} (hp : s.params.maxChunks = some m)
    (hm : allocated s.segs ≤ m) : s.withinCapacity := by
  simpa [State.withinCapacity, hp] using hm

/-- A write that passed its check takes what the check counted, which the capacity admits. -/
theorem withinCapacity_memWrite {s : State} {w : Nat} (e : Nat) (v : BitVec w) (hw : 8 ≤ w)
    (hsegs : segmentsWf s.segs) (hc : s.accessFault e (w / 8) .write = none) :
    (s.memWrite e v).withinCapacity := by
  obtain ⟨-, -, hadmits⟩ := (accessFault_none_iff s e (w / 8) .write (by omega)).1 hc
  have hlen : (splitLow 8 (w / 8) v).length = w / 8 := length_splitLow ..
  have htaken : allocated (s.memWrite e v).segs = allocated s.segs + chunksNeeded s.segs (s.translate e) (w / 8) := by
    have hne : splitLow 8 (w / 8) v ≠ [] := List.ne_nil_of_length_pos (by omega)
    have := allocated_writeBytesT s (s.translate e) _ hsegs hne
    rwa [hlen] at this
  cases hmax : s.params.maxChunks with
  | none => simp [State.withinCapacity, memWrite_params, hmax]
  | some m =>
    refine State.withinCapacity_of_some (by rw [memWrite_params, hmax]) ?_
    rw [htaken, ← admits_some, ← hmax]
    exact hadmits rfl

theorem Written.withinCapacity {s u : State} (hu : Written s u) (hi : s.Inv) (hs : s.withinCapacity) :
    u.withinCapacity := by
  cases hu with
  | refl => exact hs
  | step e v hw hu hc => exact withinCapacity_memWrite e v hw (hu.inv hi).segsWf hc

theorem ExecResult.withinCapacity {i : Instr} {s t : State} (h : ExecResult i s t) (hi : s.Inv)
    (hs : s.withinCapacity) : t.withinCapacity := by
  cases h with
  | write u he hu => exact (hu.withinCapacity hi hs).congr rfl rfl
  | writeFault u c wc count he hu => exact (hu.withinCapacity hi hs).congr rfl rfl
  | _ => exact hs.congr rfl rfl

theorem ServeResult.withinCapacity {s t : State} (h : ServeResult s t) (hi : s.Inv) (hs : s.withinCapacity) :
    t.withinCapacity := by
  cases h with
  | halted hh => exact hs.congr rfl rfl
  | illegal hh hd => exact hs.congr rfl rfl
  | command i hh hd hr => exact hr.withinCapacity hi hs

/-- Settles O22: only checked element writes allocate, and `withinCapacity_memWrite` bounds each of them. -/
theorem everyStepStaysWithinMaxChunks : Obligations.EveryStepStaysWithinMaxChunks := by
  intro s t hi hs h
  cases step_inversion h with
  | reset base abandoned later hin => exact (State.resetWith_withinCapacity s.params base s.resets).congr rfl rfl
  | idle hin => exact hs
  | selectorParse c later hin he => exact hs.congr rfl rfl
  | request r later hin hr => exact hr.withinCapacity hi hs
  | selector c later r hin he hr => exact hr.withinCapacity (hi.congr rfl rfl rfl rfl rfl) (hs.congr rfl rfl)

/-! ### The segment list (R37, R38, R42) -/

/-- Settles O56, by the laws of `allocateAt`. -/
theorem allocationTakesOneChunk : Obligations.AllocationTakesOneChunk := by
  intro segs t hw
  exact ⟨allocateAt_wf segs t hw, fun a => isMapped_allocateAt segs t a (sortedChunks_of_wf segs hw),
    allocated_allocateAt segs t hw⟩

/-- The list is sorted by start. -/
theorem pairwise_start_of_segmentsWf {segs : List Segment} (hw : segmentsWf segs) :
    segs.Pairwise fun g h => g.start < h.start := by
  induction segs with
  | nil => exact .nil
  | cons g segs ih =>
    obtain ⟨-, hgap, hw⟩ := (segmentsWf_cons g segs).1 hw
    exact .cons (fun h hh => Nat.lt_of_le_of_lt (Nat.le_add_right ..) (hgap h hh)) (ih hw)

theorem chunked_of_mem {segs : List Segment} (hw : segmentsWf segs) {g : Segment} (hg : g ∈ segs) : g.chunked := by
  induction segs with
  | nil => cases hg
  | cons f segs ih =>
    obtain ⟨hc, -, hw⟩ := (segmentsWf_cons f segs).1 hw
    rcases List.mem_cons.1 hg with rfl | hg
    · exact hc
    · exact ih hw hg

/-- Two segments of the list are one, or a gap lies between them (10_state.md R21 items 3 and 4). -/
theorem eq_or_gap_of_mem {segs : List Segment} (hw : segmentsWf segs) {g h : Segment} (hg : g ∈ segs)
    (hh : h ∈ segs) : g = h ∨ g.stop < h.start ∨ h.stop < g.start := by
  induction segs with
  | nil => cases hg
  | cons f segs ih =>
    obtain ⟨-, hgap, hw⟩ := (segmentsWf_cons f segs).1 hw
    rcases List.mem_cons.1 hg with rfl | hg' <;> rcases List.mem_cons.1 hh with rfl | hh'
    · exact .inl rfl
    · exact .inr (.inl (hgap h hh'))
    · exact .inr (.inr (hgap g hg'))
    · exact ih hw hg' hh'

section MaximalRuns

variable {segs : List Segment} {g : Segment}

theorem isMapped_of_mem (hg : g ∈ segs) {a : Nat} (h1 : g.start ≤ a) (h2 : a < g.stop) : isMapped segs a = true :=
  (isMapped_iff segs a).2 ⟨g, hg, h1, h2⟩

theorem isMapped_stop (hw : segmentsWf segs) (hg : g ∈ segs) : isMapped segs g.stop = false := by
  rw [Bool.eq_false_iff, Ne, isMapped_iff]
  rintro ⟨h, hh, h1, h2⟩
  rcases eq_or_gap_of_mem hw hg hh with rfl | hgap | hgap <;> unfold Segment.stop at * <;> omega

theorem isMapped_before_start (hw : segmentsWf segs) (hg : g ∈ segs) (hpos : 0 < g.start) :
    isMapped segs (g.start - 1) = false := by
  rw [Bool.eq_false_iff, Ne, isMapped_iff]
  rintro ⟨h, hh, h1, h2⟩
  have hlen := (chunked_of_mem hw hg).2.2
  rcases eq_or_gap_of_mem hw hg hh with rfl | hgap | hgap <;> unfold Segment.stop at * <;> omega

/-- A maximal run of the mapped addresses of one list is a segment of every list that maps the same addresses: the
segment there that covers its start can begin and end nowhere else. -/
theorem mem_of_same_mapped {segs' : List Segment} (hw : segmentsWf segs) (hw' : segmentsWf segs')
    (hsame : ∀ a, isMapped segs a = isMapped segs' a) (hg : g ∈ segs) : g ∈ segs' := by
  have hlen := (chunked_of_mem hw hg).2.2
  have hstart : isMapped segs' g.start = true := by
    rw [← hsame]
    exact isMapped_of_mem hg (Nat.le_refl _) (Nat.lt_add_of_pos_right hlen)
  obtain ⟨h, hh, hle, hlt⟩ := (isMapped_iff segs' g.start).1 hstart
  have hstarts : h.start = g.start := by
    by_contra hne
    have hmapped := isMapped_of_mem hh (a := g.start - 1) (by omega) (by unfold Segment.stop; omega)
    rw [← hsame, isMapped_before_start hw hg (by omega)] at hmapped
    cases hmapped
  have hstops : h.stop = g.stop := by
    rcases Nat.lt_trichotomy h.stop g.stop with hs | hs | hs
    · have hmapped := isMapped_of_mem hg (a := h.stop) (by unfold Segment.stop; omega) hs
      rw [hsame, isMapped_stop hw' hh] at hmapped
      cases hmapped
    · exact hs
    · have hmapped := isMapped_of_mem hh (a := g.stop) (by unfold Segment.stop; omega) hs
      rw [← hsame, isMapped_stop hw hg] at hmapped
      cases hmapped
  have heq : h = g := by
    cases h; cases g
    simp only [Segment.stop, Segment.mk.injEq] at *
    omega
  exact heq ▸ hh

end MaximalRuns

/-- Settles O55: two lists that map the same addresses have the same segments, each in the order of the starts. -/
theorem segmentsAreTheMaximalRuns : Obligations.SegmentsAreTheMaximalRuns := by
  refine ⟨fun segs hw g hg => ⟨fun a => isMapped_of_mem hg, isMapped_stop hw hg, isMapped_before_start hw hg⟩, ?_⟩
  intro segs segs' hw hw' hsame
  have hirrefl : Std.Irrefl fun g h : Segment => g.start < h.start := ⟨fun g => Nat.lt_irrefl g.start⟩
  have hantisymm : Std.Antisymm fun g h : Segment => g.start < h.start :=
    ⟨fun _ _ hlt hgt => absurd hgt (Nat.lt_asymm hlt)⟩
  exact List.Subset.antisymm_of_pairwise (pairwise_start_of_segmentsWf hw) (pairwise_start_of_segmentsWf hw')
    (fun g => mem_of_same_mapped hw hw' hsame) (fun g => mem_of_same_mapped hw' hw fun a => (hsame a).symm)

/-! ### The inspection view (R36 to R38) -/

/-- A segment with its data, the bytes given by `read`. -/
def Segment.withData (read : Nat → Byte) (g : Segment) : DataSegment :=
  ⟨g.start, (List.range g.len).map fun k => read (g.start + k)⟩

theorem inspect_eq (s : State) : s.inspect = s.segs.map (Segment.withData s.readByteT) := rfl

section WithData

variable (read : Nat → Byte) (g : Segment) (t : Nat) (b : Byte)

@[simp] theorem withData_start : (g.withData read).start = g.start := rfl

@[simp] theorem length_withData_data : (g.withData read).data.length = g.len := by simp [Segment.withData]

@[simp] theorem covers_withData : (g.withData read).covers t = g.covers t := by
  rw [DataSegment.covers, length_withData_data]
  rfl

@[simp] theorem any_covers_withData (segs : List Segment) :
    ((segs.map (Segment.withData read)).any fun d => d.covers t) = isMapped segs t := by
  simp [isMapped, Function.comp_def]

theorem withData_data_getD (h : g.covers t = true) : (g.withData read).data.getD (t - g.start) 0 = read t := by
  obtain ⟨hle, hlt⟩ := (covers_iff g t).1 h
  rw [List.getD_eq_getElem _ _ (by simp; omega)]
  simp [Segment.withData, Nat.add_sub_cancel' hle]

/-- Reading through the segments (R36): the byte inside one of them, else 0. -/
theorem storeRead_withData (segs : List Segment) :
    storeRead (segs.map (Segment.withData read)) t = if isMapped segs t = true then read t else 0 := by
  induction segs with
  | nil => rfl
  | cons g segs ih =>
    cases h : g.covers t with
    | true => simpa [storeRead, isMapped_cons, h] using withData_data_getD read g t h
    | false => simpa [storeRead, isMapped_cons, h] using ih

/-- Setting a byte changes the data of the segment that covers it, at its place (R37). -/
theorem withData_update_of_covers (h : g.covers t = true) :
    g.withData (Function.update read t b) = ⟨g.start, (g.withData read).data.set (t - g.start) b⟩ := by
  obtain ⟨hle, -⟩ := (covers_iff g t).1 h
  simp only [Segment.withData, DataSegment.mk.injEq, true_and]
  refine List.ext_getElem (by simp) fun k hk _ => ?_
  have hplace : g.start + k = t ↔ t - g.start = k := by omega
  simp [List.getElem_set, Function.update_apply, hplace]

theorem withData_congr {read read' : Nat → Byte} (h : ∀ a, g.covers a = true → read a = read' a) :
    g.withData read = g.withData read' := by
  simp only [Segment.withData, DataSegment.mk.injEq, true_and]
  refine List.map_congr_left fun k hk => h _ ((covers_iff g _).2 ?_)
  have := List.mem_range.1 hk
  omega

theorem withData_update_of_not_covers (h : g.covers t = false) :
    g.withData (Function.update read t b) = g.withData read := by
  refine withData_congr g fun a ha => ?_
  have hne : a ≠ t := by
    rintro rfl
    simp [h] at ha
  rw [Function.update_apply, if_neg hne]

/-- Merged segments have their data one after the other (R38). -/
theorem withData_merge {g h : Segment} (hgh : g.stop = h.start) :
    (Segment.mk g.start (g.len + h.len)).withData read
      = ⟨g.start, (g.withData read).data ++ (h.withData read).data⟩ := by
  unfold Segment.stop at hgh
  simp [Segment.withData, List.range_add, Function.comp_def, ← hgh, Nat.add_assoc]

theorem map_withData_insertSegment (segs : List Segment) :
    (insertSegment g segs).map (Segment.withData read)
      = storeInsert (g.withData read) (segs.map (Segment.withData read)) := by
  induction segs with
  | nil => rfl
  | cons f segs ih =>
    by_cases h : g.start ≤ f.start
    · simp [insertSegment, storeInsert, h]
    · simp [insertSegment, storeInsert, h, ih]

theorem map_withData_coalesceFrom (segs : List Segment) :
    (coalesceFrom g segs).map (Segment.withData read)
      = storeCoalesceFrom (g.withData read) (segs.map (Segment.withData read)) := by
  induction segs generalizing g with
  | nil => rfl
  | cons f segs ih =>
    by_cases h : g.stop = f.start
    · have h' : g.start + g.len = f.start := h
      simp [coalesceFrom, storeCoalesceFrom, h, h', ih, withData_merge read h]
    · have h' : ¬g.start + g.len = f.start := h
      simp [coalesceFrom, storeCoalesceFrom, h, h', ih]

theorem map_withData_coalesce (segs : List Segment) :
    (coalesce segs).map (Segment.withData read) = storeCoalesce (segs.map (Segment.withData read)) := by
  cases segs with
  | nil => rfl
  | cons g segs => exact map_withData_coalesceFrom read g segs

end WithData

theorem readByteT_writeByteT_eq_update (s : State) (t : Nat) (b : Byte) (hm : Memory.wf s.mem = true) :
    (s.writeByteT t b).readByteT = Function.update s.readByteT t b := by
  funext a
  rw [State.readByteT_writeByteT s t a b hm, Function.update_apply]

theorem readByteT_of_not_mapped {s : State} (hi : s.Inv) {a : Nat} (h : isMapped s.segs a = false) :
    s.readByteT a = 0 := by
  by_contra hne
  simp [hi.cellsMapped a hne] at h

/-- The chunk of an unmapped address, after the write of a byte: zeros but for that byte (R37). -/
theorem withData_chunk_update {s : State} (hi : s.Inv) {t : Nat} (b : Byte) (h : isMapped s.segs t = false) :
    (Segment.mk (chunkStart t) CHUNK).withData (Function.update s.readByteT t b)
      = ⟨chunkStart t, (List.replicate CHUNK (0 : Byte)).set (t % CHUNK) b⟩ := by
  have hzero : ∀ a, (Segment.mk (chunkStart t) CHUNK).covers a = true → s.readByteT a = 0 := fun a ha =>
    readByteT_of_not_mapped hi <| by
      rw [isMapped_chunk s.segs (sortedChunks_of_wf s.segs hi.segsWf) a t ((covers_chunk t a).1 ha), h]
  have hplace : t - chunkStart t = t % CHUNK := Nat.sub_sub_self (Nat.mod_le t CHUNK)
  rw [withData_update_of_covers _ _ t b ((covers_chunk t t).2 rfl), withData_congr _ hzero, hplace]
  simp [Segment.withData, List.map_const']

/-- A byte write through the inspection view is the write of R37. -/
theorem inspect_writeByteT {s : State} (hi : s.Inv) (t : Nat) (b : Byte) :
    (s.writeByteT t b).inspect = storeWrite s.inspect t b := by
  rw [inspect_eq, inspect_eq, readByteT_writeByteT_eq_update s t b hi.memWf, State.writeByteT_segs, allocateAt,
    storeWrite, any_covers_withData]
  cases h : isMapped s.segs t with
  | true =>
    rw [if_pos rfl, if_pos rfl, List.map_map]
    refine List.map_congr_left fun g _ => ?_
    cases hg : g.covers t with
    | true => simp [hg, withData_update_of_covers s.readByteT g t b hg]
    | false => simp [hg, withData_update_of_not_covers s.readByteT g t b hg]
  | false =>
    have hold : s.segs.map (Segment.withData (Function.update s.readByteT t b))
        = s.segs.map (Segment.withData s.readByteT) :=
      List.map_congr_left fun g hg =>
        withData_update_of_not_covers s.readByteT g t b (by simpa using List.any_eq_false.1 h g hg)
    rw [if_neg Bool.false_ne_true, if_neg Bool.false_ne_true, map_withData_coalesce, map_withData_insertSegment,
      withData_chunk_update hi b h, hold]

/-- Settles O54: the view of the bytes under the segment list commutes with every operation of R36 to R38. -/
theorem inspectionFollowsTheSegmentStore : Obligations.InspectionFollowsTheSegmentStore := by
  intro s t b hi
  refine ⟨?_, inspect_writeByteT hi t b⟩
  rw [inspect_eq, storeRead_withData]
  cases h : isMapped s.segs t with
  | true => rfl
  | false => exact readByteT_of_not_mapped hi h

/-! ### The memory commands of one element (42_memory_ops.md R91 to R94, R98) -/

theorem exec_mrdb_eq_mrd (s : State) : exec .mrdb s = exec (.mrd .u8) s := rfl

theorem exec_mwrb_eq_mwr (s : State) : exec .mwrb s = exec (.mwr .u8) s := by
  have hbits : addrValueOperand Width.u8.bits s.port = addrValueOperand 8 s.port := rfl
  simp only [exec, execMwrb, execMwr, hbits]
  cases addrValueOperand 8 s.port with
  | none => rfl
  | some p => rfl

theorem exec_mrd_of_presents {s : State} {addr : Addr} (wc : Width) (h : s.presents (some addr) []) :
    exec (.mrd wc) s = .next (s.finishRead (s.readElement wc.bits addr.toNat)) := by
  simp [exec, execMrd, addrOperand_of_presents h]

theorem exec_mwr_of_presents {s : State} {addr : Addr} {wc : Width} {v : BitVec wc.bits}
    (h : s.presents (some addr) [⟨wc.bits, v⟩]) : exec (.mwr wc) s = .next (s.writeElement addr.toNat v) := by
  simp [exec, execMwr, addrValueOperand_of_presents h]

section Read

variable {s : State} {addr : Addr} (wc : Width)

theorem exec_mrd_ok (h : s.presents (some addr) []) (hbase : s.base.toNat ≤ addr.toNat)
    (htop : addr.toNat + wc.bytes ≤ 2 ^ 64) :
    exec (.mrd wc) s = .next (s.onlyAnswers .ok .none [⟨wc.bits, s.memRead wc.bits addr.toNat⟩]) := by
  rw [exec_mrd_of_presents wc h, State.readElement, wc.bits_div, accessFault_read s _ _ wc.bytes_pos hbase htop]
  rfl

theorem exec_mrd_fault {cause : Cause} (h : s.presents (some addr) [])
    (hc : s.accessFault addr.toNat wc.bytes .read = some cause) :
    exec (.mrd wc) s = .next (s.faultedBy cause) := by
  rw [exec_mrd_of_presents wc h, State.readElement, wc.bits_div, hc]
  rfl

end Read

/-- Settles O44, by the bytes of a value read and the checks in their order; MRDB is MRD of one byte. -/
theorem memoryReadsAreLittleEndian : Obligations.MemoryReadsAreLittleEndian := by
  intro s addr h
  refine ⟨fun wc => ⟨fun hbase htop => ?_, fun hlow => ?_, fun hbase htop => ?_⟩, fun hbase => ?_, fun hlow => ?_⟩
  · exact ⟨_, exec_mrd_ok wc h hbase htop, fun k hk => extractLsb'_memRead s wc addr.toNat k hk⟩
  · exact exec_mrd_fault wc h (accessFault_below s _ _ _ hlow)
  · exact exec_mrd_fault wc h (accessFault_above s _ _ _ hbase htop)
  · have hvalue : s.memRead Width.u8.bits addr.toNat = s.readByteT (addr.toNat - s.base.toNat) := by
      refine memRead_eq s .u8 addr.toNat _ fun k hk => ?_
      obtain rfl : k = 0 := Nat.lt_one_iff.1 hk
      exact BitVec.extractLsb'_eq_self.symm
    rw [exec_mrdb_eq_mrd, exec_mrd_ok .u8 h hbase addr.isLt, hvalue]
    rfl
  · rw [exec_mrdb_eq_mrd]
    exact exec_mrd_fault .u8 h (accessFault_below s _ _ _ hlow)

section Write

variable {s : State} {wc : Width}

/-- Exactly the chunks of the element are mapped besides those that were (R37). -/
theorem isMapped_memWrite (e : Nat) (v : BitVec wc.bits) (hw : segmentsWf s.segs) (a : Nat) :
    isMapped (s.memWrite e v).segs a = true ↔
      isMapped s.segs a = true ∨ ∃ k, k < wc.bytes ∧ a / CHUNK = (s.translate e + k) / CHUNK := by
  have h := isMapped_writeBytesT s (s.translate e) (splitLow 8 (wc.bits / 8) v) hw a
  rwa [length_splitLow, wc.bits_div] at h

theorem exec_mwr_ok {addr : Addr} {v : BitVec wc.bits} (h : s.presents (some addr) [⟨wc.bits, v⟩])
    (hc : s.accessFault addr.toNat wc.bytes .write = none) :
    exec (.mwr wc) s = .next ((s.memWrite addr.toNat v).onlyAnswers .ok .none []) := by
  rw [exec_mwr_of_presents h, State.writeElement, wc.bits_div, hc]
  rfl

theorem exec_mwr_fault {addr : Addr} {v : BitVec wc.bits} {cause : Cause}
    (h : s.presents (some addr) [⟨wc.bits, v⟩])
    (hc : s.accessFault addr.toNat wc.bytes .write = some cause) :
    exec (.mwr wc) s = .next (s.faultedBy cause) := by
  rw [exec_mwr_of_presents h, State.writeElement, wc.bits_div, hc]
  rfl

theorem written_memWrite (e : Nat) (v : BitVec wc.bits) (hc : s.accessFault e wc.bytes .write = none) :
    Written s (s.memWrite e v) := .step e v wc.eight_le .refl hc

end Write

/-- Settles O45, by the bytes and the chunks of an element written and the frame of `Written`. -/
theorem mwrStoresItsBytesOnly : Obligations.MwrStoresItsBytesOnly := by
  intro s addr wc v hm hw h
  refine ⟨fun hc => ?_, fun cause hc => exec_mwr_fault h hc⟩
  obtain ⟨hvec, hgpr, hfl, hip, hfault, hconfig, hinputs, hresponses⟩ := (written_memWrite addr.toNat v hc).frame
  refine ⟨_, exec_mwr_ok h hc, ⟨congrArg List.tail hinputs, congrArg (· ++ _) hresponses⟩,
    readByteT_memWrite_inside s wc addr.toNat v hm, readByteT_memWrite_outside s wc addr.toNat v,
    isMapped_memWrite addr.toNat v hw, hvec, hgpr, hfl, hip, hfault, hconfig⟩

/-- Settles O46: MWRB is MWR of one byte. -/
theorem mwrbStoresItsByteOnly : Obligations.MwrbStoresItsByteOnly := by
  intro s addr b hm hw h
  rw [exec_mwrb_eq_mwr]
  obtain ⟨hok, hfault⟩ := mwrStoresItsBytesOnly s addr .u8 b hm hw h
  refine ⟨fun hc => ?_, hfault⟩
  obtain ⟨t, hexec, hanswered, hinside, houtside, hmapped, hframe⟩ := hok hc
  have hone : ∀ k, k < Width.u8.bytes ↔ k = 0 := fun k => Nat.lt_one_iff
  refine ⟨t, hexec, hanswered, fun a => ?_, fun a => ?_, hframe⟩
  · split
    · next ha =>
      rw [ha]
      exact (hinside 0 ((hone 0).2 rfl)).trans BitVec.extractLsb'_eq_self
    · next ha =>
      have hbytes : Width.u8.bytes = 1 := rfl
      exact houtside a (by omega)
  · simpa [hone] using hmapped a

end Sys2Proof.Machine

/-! PROOFS. Decoder and encoder (30_encoding.md R50 to R61): both say where the opcode and the operands of a command stand
in its word, so a word decodes to a command exactly where it is the command's encoding. -/

namespace Sys2Proof

/-! ### Where the operands of a command stand in a word -/

theorem Window.ofCode_eq_some_iff {n : Nat} {win : Window} : Window.ofCode n = some win ↔ n = win.code.toNat :=
  ⟨Window.code_of_ofCode, fun h => h ▸ Window.ofCode_code win⟩

theorem Width.ofCode_eq_some_iff {n : Nat} {wc : Width} : Width.ofCode n = some wc ↔ n = wc.code.toNat :=
  ⟨Width.code_of_ofCode, fun h => h ▸ Width.ofCode_code wc⟩

theorem GprView.ofCode_eq_some_iff {n : Nat} {v : GprView} : GprView.ofCode n = some v ↔ n = v.code.toNat :=
  ⟨GprView.code_of_ofCode, fun h => h ▸ GprView.ofCode_code v⟩

theorem CellView.ofCode_eq_some_iff {n : Nat} {v : CellView} : CellView.ofCode n = some v ↔ n = v.code.toNat :=
  ⟨CellView.code_of_ofCode, fun h => h ▸ CellView.ofCode_code v⟩

theorem decide_field_bit_eq {c : Command} {lo : Nat} {b : Bool} :
    decide ((field c lo 1).val = 1) = b ↔ (field c lo 1).val = b.toNat := by
  have hlt : (field c lo 1).val < 2 := (field c lo 1).isLt
  cases b with
  | false => simp; omega
  | true => simp

/-- The operands of `i` stand in the fields below the opcode of `c`, and the bits its format does not use are 0
(30_encoding.md R50 to R54, R60). -/
def Instr.OperandsStandIn (c : Command) : Instr → Prop
  | .vsetbit win idx pos val =>
    (field c 25 2).val = win.code.toNat ∧ field c 21 4 = idx ∧ (field c 18 3).val = 0 ∧ field c 9 9 = pos
      ∧ (field c 8 1).val = val.toNat ∧ (field c 0 8).val = 0
  | .vgetbit win idx pos =>
    (field c 25 2).val = win.code.toNat ∧ field c 21 4 = idx ∧ (field c 18 3).val = 0 ∧ field c 9 9 = pos
      ∧ (field c 0 9).val = 0
  | .vgetsec win idx wc =>
    (field c 25 2).val = win.code.toNat ∧ field c 21 4 = idx ∧ (field c 18 3).val = wc.code.toNat
      ∧ (field c 0 18).val = 0
  | .vsetsec win idx wc count =>
    (field c 25 2).val = win.code.toNat ∧ field c 21 4 = idx ∧ (field c 18 3).val = wc.code.toNat
      ∧ (field c 16 2).val = 0 ∧ field c 0 16 = count
  | .vgetsel win idx wc a b =>
    field c 25 2 = win ∧ field c 21 4 = idx ∧ (field c 18 3).val = wc.code.toNat ∧ field c 9 9 = a
      ∧ field c 0 9 = b
  | .vsetsel win idx wc a b =>
    field c 25 2 = win ∧ field c 21 4 = idx ∧ (field c 18 3).val = wc.code.toNat ∧ field c 9 9 = a
      ∧ field c 0 9 = b
  | .vclear idx => (field c 25 2).val = 0 ∧ field c 21 4 = idx ∧ (field c 0 21).val = 0
  | .gprset view idx => (field c 24 3).val = view.code.toNat ∧ field c 20 4 = idx ∧ (field c 0 20).val = 0
  | .gprget view idx => (field c 24 3).val = view.code.toNat ∧ field c 20 4 = idx ∧ (field c 0 20).val = 0
  | .flset view => (field c 25 2).val = view.code.toNat ∧ (field c 0 25).val = 0
  | .flget view => (field c 25 2).val = view.code.toNat ∧ (field c 0 25).val = 0
  | .ipset view => (field c 25 2).val = view.code.toNat ∧ (field c 0 25).val = 0
  | .ipget view => (field c 25 2).val = view.code.toNat ∧ (field c 0 25).val = 0
  | .mrdb => (field c 0 27).val = 0
  | .mwrb => (field c 0 27).val = 0
  | .mrd wc => (field c 24 3).val = wc.code.toNat ∧ (field c 0 24).val = 0
  | .mwr wc => (field c 24 3).val = wc.code.toNat ∧ (field c 0 24).val = 0
  | .mrdv wc count => (field c 24 3).val = wc.code.toNat ∧ (field c 16 8).val = 0 ∧ field c 0 16 = count
  | .mwrv wc count => (field c 24 3).val = wc.code.toNat ∧ (field c 16 8).val = 0 ∧ field c 0 16 = count

theorem eq_operandBits_iff {c : Command} {i : Instr} :
    c.toNat % 2 ^ 27 = i.operandBits.toNat ↔ i.OperandsStandIn c := by
  rw [toNat_operandBits]
  cases i with
  | vsetbit win idx pos val =>
    have hwin := win.code.isLt
    have hval := val.toNat_lt
    simp only [Instr.OperandsStandIn, Fin.ext_iff, field_val]
    omega
  | vgetbit win idx pos =>
    have hwin := win.code.isLt
    simp only [Instr.OperandsStandIn, Fin.ext_iff, field_val]
    omega
  | vgetsec win idx wc | vsetsec win idx wc count =>
    have hwin := win.code.isLt
    have hwc := wc.code.isLt
    simp only [Instr.OperandsStandIn, Fin.ext_iff, field_val]
    omega
  | vgetsel win idx wc a b | vsetsel win idx wc a b | mrd wc | mwr wc | mrdv wc count | mwrv wc count =>
    have hwc := wc.code.isLt
    simp only [Instr.OperandsStandIn, Fin.ext_iff, field_val]
    omega
  | gprset view idx | gprget view idx | flset view | flget view | ipset view | ipget view =>
    have hview := view.code.isLt
    simp only [Instr.OperandsStandIn, Fin.ext_iff, field_val]
    omega
  | vclear | mrdb | mwrb =>
    simp only [Instr.OperandsStandIn, Fin.ext_iff, field_val]
    omega

/-- A word is the encoding of `i` exactly where its opcode and its operands stand at their places. -/
theorem encode_eq_iff {c : Command} {i : Instr} :
    encode i = c ↔ (field c 27 5).val = i.opcode.toNat ∧ i.OperandsStandIn c := by
  have hc := c.isLt
  have hi := i.operandBits.isLt
  rw [← eq_operandBits_iff, field_val, ← BitVec.toNat_inj, toNat_encode]
  omega

/-! ### What each part of the decoder reads -/

section

variable {c : Command} {i : Instr}

theorem decodeVsetbit_eq_some_iff : decodeVsetbit c = some i ↔
    ∃ win idx pos val, i = .vsetbit win idx pos val ∧ i.OperandsStandIn c := by
  simp only [decodeVsetbit, Option.ite_none_right_eq_some, Option.map_eq_some_iff, Window.ofCode_eq_some_iff]
  constructor
  · rintro ⟨⟨hwc, hz⟩, win, hwin, rfl⟩
    exact ⟨win, _, _, _, rfl, hwin, rfl, hwc, rfl, decide_field_bit_eq.1 rfl, hz⟩
  · rintro ⟨win, idx, pos, val, rfl, hwin, rfl, hwc, rfl, hval, hz⟩
    exact ⟨⟨hwc, hz⟩, win, hwin, by rw [decide_field_bit_eq.2 hval]⟩

theorem decodeVgetbit_eq_some_iff : decodeVgetbit c = some i ↔
    ∃ win idx pos, i = .vgetbit win idx pos ∧ i.OperandsStandIn c := by
  simp only [decodeVgetbit, Option.ite_none_right_eq_some, Option.map_eq_some_iff, Window.ofCode_eq_some_iff]
  constructor
  · rintro ⟨⟨hwc, hz⟩, win, hwin, rfl⟩
    exact ⟨win, _, _, rfl, hwin, rfl, hwc, rfl, hz⟩
  · rintro ⟨win, idx, pos, rfl, hwin, rfl, hwc, rfl, hz⟩
    exact ⟨⟨hwc, hz⟩, win, hwin, rfl⟩

theorem decodeVgetsec_eq_some_iff : decodeVgetsec c = some i ↔
    ∃ win idx wc, i = .vgetsec win idx wc ∧ i.OperandsStandIn c := by
  simp only [decodeVgetsec, Option.ite_none_right_eq_some, Option.bind_eq_some_iff, Option.map_eq_some_iff,
    Window.ofCode_eq_some_iff, Width.ofCode_eq_some_iff]
  constructor
  · rintro ⟨hz, win, hwin, wc, hwc, rfl⟩
    exact ⟨win, _, wc, rfl, hwin, rfl, hwc, hz⟩
  · rintro ⟨win, idx, wc, rfl, hwin, rfl, hwc, hz⟩
    exact ⟨hz, win, hwin, wc, hwc, rfl⟩

theorem decodeVsetsec_eq_some_iff : decodeVsetsec c = some i ↔
    ∃ win idx wc count, i = .vsetsec win idx wc count ∧ i.OperandsStandIn c := by
  simp only [decodeVsetsec, Option.ite_none_right_eq_some, Option.bind_eq_some_iff, Option.map_eq_some_iff,
    Window.ofCode_eq_some_iff, Width.ofCode_eq_some_iff]
  constructor
  · rintro ⟨hz, win, hwin, wc, hwc, rfl⟩
    exact ⟨win, _, wc, _, rfl, hwin, rfl, hwc, hz, rfl⟩
  · rintro ⟨win, idx, wc, count, rfl, hwin, rfl, hwc, hz, rfl⟩
    exact ⟨hz, win, hwin, wc, hwc, rfl⟩

theorem decodeVgetsel_eq_some_iff : decodeVgetsel c = some i ↔
    ∃ win idx wc a b, i = .vgetsel win idx wc a b ∧ i.OperandsStandIn c := by
  simp only [decodeVgetsel, Option.map_eq_some_iff, Width.ofCode_eq_some_iff]
  constructor
  · rintro ⟨wc, hwc, rfl⟩
    exact ⟨_, _, wc, _, _, rfl, rfl, rfl, hwc, rfl, rfl⟩
  · rintro ⟨win, idx, wc, a, b, rfl, rfl, rfl, hwc, rfl, rfl⟩
    exact ⟨wc, hwc, rfl⟩

theorem decodeVsetsel_eq_some_iff : decodeVsetsel c = some i ↔
    ∃ win idx wc a b, i = .vsetsel win idx wc a b ∧ i.OperandsStandIn c := by
  simp only [decodeVsetsel, Option.map_eq_some_iff, Width.ofCode_eq_some_iff]
  constructor
  · rintro ⟨wc, hwc, rfl⟩
    exact ⟨_, _, wc, _, _, rfl, rfl, rfl, hwc, rfl, rfl⟩
  · rintro ⟨win, idx, wc, a, b, rfl, rfl, rfl, hwc, rfl, rfl⟩
    exact ⟨wc, hwc, rfl⟩

theorem decodeVclear_eq_some_iff : decodeVclear c = some i ↔ ∃ idx, i = .vclear idx ∧ i.OperandsStandIn c := by
  simp only [decodeVclear, Option.ite_none_right_eq_some, Option.some.injEq]
  constructor
  · rintro ⟨⟨hwin, hz⟩, rfl⟩
    exact ⟨_, rfl, hwin, rfl, hz⟩
  · rintro ⟨idx, rfl, hwin, rfl, hz⟩
    exact ⟨⟨hwin, hz⟩, rfl⟩

theorem decodeGprName_eq_some_iff {view : GprView} {idx : Fin 16} : decodeGprName c = some (view, idx) ↔
    isGprName view idx = true ∧ (field c 24 3).val = view.code.toNat ∧ field c 20 4 = idx
      ∧ (field c 0 20).val = 0 := by
  simp only [decodeGprName, Option.ite_none_right_eq_some, Option.bind_eq_some_iff, GprView.ofCode_eq_some_iff,
    Option.some.injEq, Prod.mk.injEq]
  constructor
  · rintro ⟨hz, v, hv, hname, rfl, rfl⟩
    exact ⟨hname, hv, rfl, hz⟩
  · rintro ⟨hname, hv, rfl, hz⟩
    exact ⟨hz, view, hv, hname, rfl, rfl⟩

theorem decodeCellView_eq_some_iff {view : CellView} : decodeCellView c = some view ↔
    (field c 25 2).val = view.code.toNat ∧ (field c 0 25).val = 0 := by
  rw [decodeCellView, Option.ite_none_right_eq_some, CellView.ofCode_eq_some_iff, and_comm]

theorem decodeWidth_eq_some_iff {wc : Width} : decodeWidth c = some wc ↔ (field c 24 3).val = wc.code.toNat :=
  Width.ofCode_eq_some_iff

/-- What the decoder reads has a register name that exists, and its opcode and operands stand in the word. -/
theorem fields_of_decode_eq_some (h : decode c = some i) :
    i.wellFormed = true ∧ (field c 27 5).val = i.opcode.toNat ∧ i.OperandsStandIn c := by
  unfold decode at h
  split at h
  case h_1 hop =>
    obtain ⟨win, idx, pos, val, rfl, hc⟩ := decodeVsetbit_eq_some_iff.1 h
    exact ⟨rfl, hop, hc⟩
  case h_2 hop =>
    obtain ⟨win, idx, pos, rfl, hc⟩ := decodeVgetbit_eq_some_iff.1 h
    exact ⟨rfl, hop, hc⟩
  case h_3 hop =>
    obtain ⟨win, idx, wc, rfl, hc⟩ := decodeVgetsec_eq_some_iff.1 h
    exact ⟨rfl, hop, hc⟩
  case h_4 hop =>
    obtain ⟨win, idx, wc, count, rfl, hc⟩ := decodeVsetsec_eq_some_iff.1 h
    exact ⟨rfl, hop, hc⟩
  case h_5 hop =>
    obtain ⟨win, idx, wc, a, b, rfl, hc⟩ := decodeVgetsel_eq_some_iff.1 h
    exact ⟨rfl, hop, hc⟩
  case h_6 hop =>
    obtain ⟨win, idx, wc, a, b, rfl, hc⟩ := decodeVsetsel_eq_some_iff.1 h
    exact ⟨rfl, hop, hc⟩
  case h_7 hop =>
    obtain ⟨idx, rfl, hc⟩ := decodeVclear_eq_some_iff.1 h
    exact ⟨rfl, hop, hc⟩
  case h_8 hop | h_9 hop => -- GPRSET, GPRGET
    obtain ⟨⟨view, idx⟩, hn, rfl⟩ := Option.map_eq_some_iff.1 h
    obtain ⟨hname, hc⟩ := decodeGprName_eq_some_iff.1 hn
    exact ⟨hname, hop, hc⟩
  case h_10 hop | h_11 hop | h_12 hop | h_13 hop => -- FLSET, FLGET, IPSET, IPGET
    obtain ⟨view, hc, rfl⟩ := Option.map_eq_some_iff.1 h
    exact ⟨rfl, hop, decodeCellView_eq_some_iff.1 hc⟩
  case h_14 hop | h_15 hop => -- MRDB, MWRB
    obtain ⟨hz, hi⟩ := Option.ite_none_right_eq_some.1 h
    cases hi
    exact ⟨rfl, hop, hz⟩
  case h_16 hop | h_17 hop => -- MRD, MWR
    obtain ⟨hz, hi⟩ := Option.ite_none_right_eq_some.1 h
    obtain ⟨wc, hwc, rfl⟩ := Option.map_eq_some_iff.1 hi
    exact ⟨rfl, hop, decodeWidth_eq_some_iff.1 hwc, hz⟩
  case h_18 hop | h_19 hop => -- MRDV, MWRV
    obtain ⟨hz, hi⟩ := Option.ite_none_right_eq_some.1 h
    obtain ⟨wc, hwc, rfl⟩ := Option.map_eq_some_iff.1 hi
    exact ⟨rfl, hop, decodeWidth_eq_some_iff.1 hwc, hz, rfl⟩
  case h_20 => cases h

theorem decode_eq_some_of_fields (hwf : i.wellFormed = true) (hop : (field c 27 5).val = i.opcode.toNat)
    (hc : i.OperandsStandIn c) : decode c = some i := by
  simp only [decode, hop]
  cases i with
  | vsetbit win idx pos val => exact decodeVsetbit_eq_some_iff.2 ⟨win, idx, pos, val, rfl, hc⟩
  | vgetbit win idx pos => exact decodeVgetbit_eq_some_iff.2 ⟨win, idx, pos, rfl, hc⟩
  | vgetsec win idx wc => exact decodeVgetsec_eq_some_iff.2 ⟨win, idx, wc, rfl, hc⟩
  | vsetsec win idx wc count => exact decodeVsetsec_eq_some_iff.2 ⟨win, idx, wc, count, rfl, hc⟩
  | vgetsel win idx wc a b => exact decodeVgetsel_eq_some_iff.2 ⟨win, idx, wc, a, b, rfl, hc⟩
  | vsetsel win idx wc a b => exact decodeVsetsel_eq_some_iff.2 ⟨win, idx, wc, a, b, rfl, hc⟩
  | vclear idx => exact decodeVclear_eq_some_iff.2 ⟨idx, rfl, hc⟩
  | gprset view idx | gprget view idx =>
    exact Option.map_eq_some_iff.2 ⟨(view, idx), decodeGprName_eq_some_iff.2 ⟨hwf, hc⟩, rfl⟩
  | flset view | flget view | ipset view | ipget view =>
    exact Option.map_eq_some_iff.2 ⟨view, decodeCellView_eq_some_iff.2 hc, rfl⟩
  | mrdb | mwrb => exact if_pos hc
  | mrd wc | mwr wc =>
    obtain ⟨hwc, hz⟩ := hc
    exact Option.ite_none_right_eq_some.2
      ⟨hz, Option.map_eq_some_iff.2 ⟨wc, decodeWidth_eq_some_iff.2 hwc, rfl⟩⟩
  | mrdv wc count | mwrv wc count =>
    obtain ⟨hwc, hz, rfl⟩ := hc
    exact Option.ite_none_right_eq_some.2
      ⟨hz, Option.map_eq_some_iff.2 ⟨wc, decodeWidth_eq_some_iff.2 hwc, rfl⟩⟩

/-- The decoder reads `i` exactly from the encoding of `i`, where the register name of `i` exists. -/
theorem decode_eq_some_iff : decode c = some i ↔ i.wellFormed = true ∧ encode i = c := by
  rw [encode_eq_iff]
  exact ⟨fields_of_decode_eq_some, fun ⟨hwf, hop, hc⟩ => decode_eq_some_of_fields hwf hop hc⟩

end

/-- Settles O1, by `decode_eq_some_iff` from right to left. -/
theorem decodeOfEncodeIsTheCommand : Obligations.DecodeOfEncodeIsTheCommand :=
  fun _ hwf => decode_eq_some_iff.2 ⟨hwf, rfl⟩

/-- Settles O2, by `decode_eq_some_iff` from left to right. -/
theorem decodedWordIsTheEncodingOfItsCommand : Obligations.DecodedWordIsTheEncodingOfItsCommand :=
  fun _ _ => decode_eq_some_iff.1

end Sys2Proof

/-! PROOFS. The opcode table (30_encoding.md R58, R60, R61, R63): a row's mask is a list of fields, so matching a row is a
statement about fields, as decoding is. -/

namespace Sys2Proof

/-! ### The rows of the opcode table -/

/-- The bits of the field of `len` bits at `lo`. -/
def fieldMask (lo len : Nat) : Command := (BitVec.allOnes len).setWidth 32 <<< lo

/-- The fields that must be zero under an opcode, as (lowest bit, length) (30_encoding.md R60); none where the opcode is
reserved (R61 item 1). -/
def mustBeZero : Nat → Option (List (Nat × Nat))
  | 0x01 => some [(18, 3), (0, 8)]
  | 0x02 => some [(18, 3), (0, 9)]
  | 0x03 => some [(0, 18)]
  | 0x04 => some [(16, 2)]
  | 0x05 => some []
  | 0x06 => some []
  | 0x07 => some [(25, 2), (0, 21)]
  | 0x08 => some [(0, 20)]
  | 0x09 => some [(0, 20)]
  | 0x0A => some [(0, 25)]
  | 0x0B => some [(0, 25)]
  | 0x0C => some [(0, 25)]
  | 0x0D => some [(0, 25)]
  | 0x10 => some [(0, 27)]
  | 0x11 => some [(0, 27)]
  | 0x12 => some [(0, 24)]
  | 0x13 => some [(0, 24)]
  | 0x14 => some [(16, 8)]
  | 0x15 => some [(16, 8)]
  | _ => none

/-- The bits of all the fields of a list. -/
def fieldsMask : List (Nat × Nat) → Command
  | [] => 0
  | f :: fs => fieldMask f.1 f.2 ||| fieldsMask fs

/-- Two words agree under a mask exactly where they agree on every bit of the mask. -/
theorem and_eq_and_iff {c p m : Command} :
    c &&& m = p &&& m ↔ ∀ j, m.getLsbD j = true → c.getLsbD j = p.getLsbD j := by
  constructor
  · intro h j hj
    simpa [hj] using congrArg (BitVec.getLsbD · j) h
  · intro h
    refine BitVec.eq_of_getLsbD_eq fun j _ => ?_
    cases hj : m.getLsbD j with
    | false => simp [hj]
    | true => simp [hj, h j hj]

theorem getLsbD_fieldMask {lo len j : Nat} :
    (fieldMask lo len).getLsbD j = true ↔ j < 32 ∧ lo ≤ j ∧ j < lo + len := by
  simp [fieldMask]
  omega

theorem val_field_eq_iff {c p : Command} {lo len : Nat} :
    (field c lo len).val = (field p lo len).val ↔ c &&& fieldMask lo len = p &&& fieldMask lo len := by
  have hbits (x : Command) : (field x lo len).val = (x.extractLsb' lo len).toNat := by
    rw [BitVec.extractLsb'_toNat, field_val, Nat.shiftRight_eq_div_pow]
  simp only [hbits, BitVec.toNat_inj, and_eq_and_iff, getLsbD_fieldMask]
  constructor
  · rintro h j ⟨-, hlo, hlen⟩
    have hj : j - lo < len := by omega
    simpa [hj, Nat.add_sub_cancel' hlo] using congrArg (BitVec.getLsbD · (j - lo)) h
  · intro h
    refine BitVec.eq_of_getLsbD_eq fun j hj => ?_
    simp only [BitVec.getLsbD_extractLsb', hj, decide_true, Bool.true_and]
    by_cases h32 : lo + j < 32
    · exact h _ ⟨h32, by omega, by omega⟩
    · simp [BitVec.getLsbD_of_ge _ _ (Nat.le_of_not_lt h32)]

theorem fields_eq_iff {c p : Command} {fs : List (Nat × Nat)} :
    c &&& fieldsMask fs = p &&& fieldsMask fs ↔ ∀ f ∈ fs, (field c f.1 f.2).val = (field p f.1 f.2).val := by
  induction fs with
  | nil => simp [fieldsMask]
  | cons f fs ih =>
    rw [List.forall_mem_cons, ← ih, val_field_eq_iff]
    simp only [and_eq_and_iff, fieldsMask, BitVec.getLsbD_or, Bool.or_eq_true, or_imp, forall_and]

/-- The opcode of a row (30_encoding.md R58). -/
def OpcodeRow.opcode (row : OpcodeRow) : Nat := (field row.pattern 27 5).val

/-- A row's mask covers the opcode and the fields that must be zero, and its pattern is the opcode over zeros. -/
theorem opcodeTable_masks : ∀ row ∈ opcodeTable, ∃ zeros ∈ mustBeZero row.opcode,
    row.mask = fieldsMask ((27, 5) :: zeros) ∧ row.pattern &&& row.mask = row.pattern
      ∧ ∀ f ∈ zeros, (field row.pattern f.1 f.2).val = 0 := by decide

theorem opcodeTable_covers : ∀ op < 32, (mustBeZero op).isSome = true → ∃ row ∈ opcodeTable, row.opcode = op := by
  decide

theorem opcode_injOn_opcodeTable :
    ∀ row ∈ opcodeTable, ∀ row' ∈ opcodeTable, row.opcode = row'.opcode → row = row' := by decide

theorem mnemonic_eq_of_opcode {row : OpcodeRow} (hrow : row ∈ opcodeTable) {i : Instr}
    (hop : row.opcode = i.opcode.toNat) : row.mnemonic = i.mnemonic := by
  have hnames : ∀ row' ∈ opcodeTable, row'.opcode = i.opcode.toNat → row'.mnemonic = i.mnemonic := by
    cases i <;> simp only [Instr.opcode, Instr.mnemonic] <;> decide
  exact hnames row hrow hop

/-- The word's opcode is not reserved and its must-be-zero fields are 0 (30_encoding.md R60, R61 item 1). -/
def ZerosStand (c : Command) : Prop :=
  ∃ zeros ∈ mustBeZero (field c 27 5).val, ∀ f ∈ zeros, (field c f.1 f.2).val = 0

theorem row_hits_iff {row : OpcodeRow} (hrow : row ∈ opcodeTable) (c : Command) :
    row.hits c = true ↔ (field c 27 5).val = row.opcode ∧ ZerosStand c := by
  obtain ⟨zeros, hzeros, hmask, hpattern, hzero⟩ := opcodeTable_masks row hrow
  have hhits : row.hits c = true ↔ c &&& row.mask = row.pattern &&& row.mask := by
    rw [hpattern, OpcodeRow.hits, decide_eq_true_iff]
  rw [hhits, hmask, fields_eq_iff, List.forall_mem_cons]
  refine and_congr_right fun hop => ?_
  have hz : mustBeZero (field c 27 5).val = some zeros := hop ▸ hzeros
  constructor
  · intro h
    exact ⟨zeros, hz, fun f hf => (h f hf).trans (hzero f hf)⟩
  · rintro ⟨zeros', hz', h⟩ f hf
    obtain rfl : zeros = zeros' := Option.some.inj (hz.symm.trans hz')
    exact (h f hf).trans (hzero f hf).symm

theorem exists_row_hits_iff (c : Command) : (∃ row ∈ opcodeTable, row.hits c = true) ↔ ZerosStand c := by
  constructor
  · rintro ⟨row, hrow, h⟩
    exact ((row_hits_iff hrow c).1 h).2
  · intro h
    have ⟨zeros, hz, _⟩ := h
    obtain ⟨row, hrow, hop⟩ := opcodeTable_covers _ (field c 27 5).isLt (Option.isSome_of_mem hz)
    exact ⟨row, hrow, (row_hits_iff hrow c).2 ⟨hop.symm, h⟩⟩

theorem Window.isSome_ofCode {n : Nat} (h : n < 4) : (Window.ofCode n).isSome = decide (n ≠ 3) := by
  decide +revert

theorem Width.isSome_ofCode {n : Nat} (h : n < 8) : (Width.ofCode n).isSome = decide (n ≠ 7) := by
  decide +revert

theorem CellView.isSome_ofCode {n : Nat} (h : n < 4) : (CellView.ofCode n).isSome = decide (n ≠ 3) := by
  decide +revert

theorem zerosStand_iff {c : Command} {zeros : List (Nat × Nat)} (h : mustBeZero (field c 27 5).val = some zeros) :
    ZerosStand c ↔ ∀ f ∈ zeros, (field c f.1 f.2).val = 0 := by
  simp [ZerosStand, h]

theorem isSome_ite_none_iff {α : Type} {p : Prop} [Decidable p] {o : Option α} :
    (if p then o else none).isSome = true ↔ p ∧ o.isSome = true := by
  by_cases h : p <;> simp [h]

theorem isSome_bind_map {α β γ : Type} {f : α → β → γ} {o : Option α} {o' : Option β} :
    (o.bind fun a => o'.map (f a)).isSome = (o.isSome && o'.isSome) := by
  cases o <;> simp

/-- The pairs that R61 item 4 of 30_encoding.md reserves are those that are no register name. -/
theorem isSome_bind_isGprName_iff : ∀ v < 8, ∀ idx : Fin 16,
    ((GprView.ofCode v).bind fun view => if isGprName view idx then some (view, idx) else none).isSome = true
      ↔ (decide (5 ≤ v) || (decide (v = 3) && decide (4 ≤ idx.val ∧ idx.val ≤ 7))
        || (decide (v = 4) && decide (4 ≤ idx.val))) = false := by decide

theorem isSome_decode_iff (c : Command) :
    (decode c).isSome = true ↔ ZerosStand c ∧ reservedValue c = false := by
  have hwin : (field c 25 2).val < 4 := (field c 25 2).isLt
  have hwc : (field c 18 3).val < 8 := (field c 18 3).isLt
  have hcode : (field c 24 3).val < 8 := (field c 24 3).isLt
  unfold decode
  split
  case h_1 hop =>
    rw [zerosStand_iff (congrArg mustBeZero hop)]
    simp [reservedValue, hop, decodeVsetbit, isSome_ite_none_iff, Window.isSome_ofCode hwin]
  case h_2 hop =>
    rw [zerosStand_iff (congrArg mustBeZero hop)]
    simp [reservedValue, hop, decodeVgetbit, isSome_ite_none_iff, Window.isSome_ofCode hwin]
  case h_3 hop =>
    rw [zerosStand_iff (congrArg mustBeZero hop)]
    simp [reservedValue, hop, decodeVgetsec, isSome_ite_none_iff, isSome_bind_map, Window.isSome_ofCode hwin,
      Width.isSome_ofCode hwc]
  case h_4 hop =>
    rw [zerosStand_iff (congrArg mustBeZero hop)]
    simp [reservedValue, hop, decodeVsetsec, isSome_ite_none_iff, isSome_bind_map, Window.isSome_ofCode hwin,
      Width.isSome_ofCode hwc]
  case h_5 hop =>
    rw [zerosStand_iff (congrArg mustBeZero hop)]
    simp [reservedValue, hop, decodeVgetsel, Width.isSome_ofCode hwc]
  case h_6 hop =>
    rw [zerosStand_iff (congrArg mustBeZero hop)]
    simp [reservedValue, hop, decodeVsetsel, Width.isSome_ofCode hwc]
  case h_7 hop =>
    rw [zerosStand_iff (congrArg mustBeZero hop)]
    simp [reservedValue, hop, decodeVclear, isSome_ite_none_iff]
  case h_8 hop | h_9 hop => -- GPRSET, GPRGET
    rw [zerosStand_iff (congrArg mustBeZero hop)]
    simp [reservedValue, hop, decodeGprName, isSome_ite_none_iff, isSome_bind_isGprName_iff _ hcode]
  case h_10 hop | h_11 hop | h_12 hop | h_13 hop => -- FLSET, FLGET, IPSET, IPGET
    rw [zerosStand_iff (congrArg mustBeZero hop)]
    simp [reservedValue, hop, decodeCellView, isSome_ite_none_iff, CellView.isSome_ofCode hwin]
  case h_14 hop | h_15 hop => -- MRDB, MWRB
    rw [zerosStand_iff (congrArg mustBeZero hop)]
    simp [reservedValue, hop, isSome_ite_none_iff]
  case h_16 hop | h_17 hop | h_18 hop | h_19 hop => -- MRD, MWR, MRDV, MWRV
    rw [zerosStand_iff (congrArg mustBeZero hop)]
    simp [reservedValue, hop, decodeWidth, isSome_ite_none_iff, Width.isSome_ofCode hcode]
  case h_20 =>
    have hreserved : mustBeZero (field c 27 5).val = none := by simp_all [mustBeZero]
    simp [ZerosStand, hreserved]

/-- Settles O3: both sides say that the must-be-zero fields are 0 and no reserved value stands; a row is known by its
opcode. -/
theorem decodeFollowsTheOpcodeTable : Obligations.DecodeFollowsTheOpcodeTable := by
  intro c
  refine ⟨?_, fun i hd => ?_, fun row hrow row' hrow' h h' => ?_⟩
  · rw [isSome_decode_iff, ← exists_row_hits_iff]
    simp only [← and_assoc, exists_and_right]
  · obtain ⟨hzeros, -⟩ := (isSome_decode_iff c).1 (Option.isSome_of_mem hd)
    obtain ⟨row, hrow, hhits⟩ := (exists_row_hits_iff c).2 hzeros
    obtain ⟨hop, -⟩ := (row_hits_iff hrow c).1 hhits
    obtain ⟨-, hop', -⟩ := fields_of_decode_eq_some hd
    exact ⟨row, hrow, mnemonic_eq_of_opcode hrow (hop.symm.trans hop'), hhits⟩
  · obtain ⟨hop, -⟩ := (row_hits_iff hrow c).1 h
    obtain ⟨hop', -⟩ := (row_hits_iff hrow' c).1 h'
    exact opcode_injOn_opcodeTable row hrow row' hrow' (hop.symm.trans hop')

end Sys2Proof

/-! PROOFS. Malformed payloads, the answer to a request, and the host's selector strings (30_encoding.md R48, R62, R64). -/

namespace Sys2Proof.Machine

/-! ### A malformed payload (30_encoding.md R62) -/

section

variable {i : Instr} {w count : Nat} {r : Request}

theorem noOperand_eq_false (hs : payloadShape i = ⟨false, 0, 0⟩) (h : payloadMatches i r = false) :
    noOperand r = false := payloadMatches_none hs r ▸ h

theorem listOperand_eq_none (hs : payloadShape i = ⟨false, count, w⟩) (h : payloadMatches i r = false) :
    listOperand w count r = none := by
  rwa [payloadMatches_list hs, Option.isSome_eq_false_iff, Option.isNone_iff_eq_none] at h

theorem valueOperand_eq_none (hs : payloadShape i = ⟨false, 1, w⟩) (h : payloadMatches i r = false) :
    valueOperand w r = none := by
  rwa [payloadMatches_value hs, Option.isSome_eq_false_iff, Option.isNone_iff_eq_none] at h

theorem addrOperand_eq_none (hs : payloadShape i = ⟨true, 0, 0⟩) (h : payloadMatches i r = false) :
    addrOperand r = none := by
  rwa [payloadMatches_addr hs, Option.isSome_eq_false_iff, Option.isNone_iff_eq_none] at h

theorem addrListOperand_eq_none (hs : payloadShape i = ⟨true, count, w⟩) (h : payloadMatches i r = false) :
    addrListOperand w count r = none := by
  rwa [payloadMatches_addrList hs, Option.isSome_eq_false_iff, Option.isNone_iff_eq_none] at h

theorem addrValueOperand_eq_none (hs : payloadShape i = ⟨true, 1, w⟩) (h : payloadMatches i r = false) :
    addrValueOperand w r = none := by
  rwa [payloadMatches_addrValue hs, Option.isSome_eq_false_iff, Option.isNone_iff_eq_none] at h

end

/-- Settles O8: where the operand form of a command's row finds no operand, its meaning is the fault. -/
theorem malformedPayloadIsFatal : Obligations.MalformedPayloadIsFatal := by
  intro i s h
  rw [← State.raiseFatal_eq]
  cases i with
  | vsetbit win idx pos val => simp [exec, execVsetbit, noOperand_eq_false rfl h]
  | vgetbit win idx pos => simp [exec, execVgetbit, noOperand_eq_false rfl h]
  | vgetsec win idx wc => simp [exec, execVgetsec, noOperand_eq_false rfl h]
  | vsetsec win idx wc count => simp [exec, execVsetsec, listOperand_eq_none rfl h]
  | vgetsel win idx wc a b => simp [exec, execVgetsel, noOperand_eq_false rfl h]
  | vsetsel win idx wc a b => simp [exec, execVsetsel, valueOperand_eq_none rfl h]
  | vclear idx => simp [exec, execVclear, noOperand_eq_false rfl h]
  | gprset view idx => simp [exec, execGprset, valueOperand_eq_none rfl h]
  | gprget view idx => simp [exec, execGprget, noOperand_eq_false rfl h]
  | flset view => simp [exec, execFlset, valueOperand_eq_none rfl h]
  | flget view => simp [exec, execFlget, noOperand_eq_false rfl h]
  | ipset view => simp [exec, execIpset, valueOperand_eq_none rfl h]
  | ipget view => simp [exec, execIpget, noOperand_eq_false rfl h]
  | mrdb => simp [exec, execMrdb, addrOperand_eq_none rfl h]
  | mwrb => simp [exec, execMwrb, addrValueOperand_eq_none rfl h]
  | mrd wc => simp [exec, execMrd, addrOperand_eq_none rfl h]
  | mwr wc => simp [exec, execMwr, addrValueOperand_eq_none rfl h]
  | mrdv wc count => simp [exec, execMrdv, addrOperand_eq_none rfl h]
  | mwrv wc count => simp [exec, execMwrv, addrListOperand_eq_none rfl h]

/-! ### The answer to a request (30_encoding.md R48) -/

/-- Settles O12, by the three ways a request is served. -/
theorem everyRequestGetsOneResponse : Obligations.EveryRequestGetsOneResponse := by
  intro s r later hin
  have hlater : s.inputs.tail = later := by rw [hin, List.tail_cons]
  rw [step_of_request hin, ← hlater]
  obtain ⟨-, hs⟩ | ⟨-, -, hs⟩ | ⟨i, t, -, -, hs, hr⟩ := serve_result s
  · exact ⟨_, _, hs, rfl, rfl, by simp, by simp⟩
  · exact ⟨_, _, hs, rfl, rfl, by simp [Cause.reason], by simp⟩
  · obtain ⟨resp, hinputs, hresp, hok, hfail⟩ := hr.answered
    exact ⟨t, resp, hs, hinputs, hresp, hok, hfail⟩

/-! ### Selector strings (30_encoding.md R64) -/

/-- The character of a decimal digit. -/
def digitChar (d : Fin 10) : Char := Char.ofNat ('0'.toNat + d.val)

theorem digitChars_cons (d : Fin 10) (ds : List (Fin 10)) : digitChars (d :: ds) = digitChar d :: digitChars ds := rfl

theorem digitValue_digitChar : ∀ d : Fin 10, digitValue (digitChar d) = some d.val := by decide

theorem digitChar_ne_M : ∀ d : Fin 10, digitChar d ≠ 'M' := by decide

theorem readDigits_digitChars (acc : Nat) (ds : List (Fin 10)) {c : Char} (hc : digitValue c = none) (cs : List Char) :
    readDigits acc (digitChars ds ++ c :: cs) = (ds.foldl (fun acc d => 10 * acc + d.val) acc, c :: cs) := by
  induction ds generalizing acc with
  | nil => simp [digitChars, readDigits, hc]
  | cons d ds ih => simp [digitChars_cons, readDigits, digitValue_digitChar, ih]

theorem parseBound_digit_cons (d : Fin 10) (cs : List Char) : parseBound (digitChar d :: cs) =
    if h : (readDigits d.val cs).1 < 512 then some (⟨(readDigits d.val cs).1, h⟩, (readDigits d.val cs).2)
    else none := by
  rw [parseBound]
  · simp only [digitValue_digitChar]
  · exact fun _ h => absurd h (digitChar_ne_M d)

theorem parseBound_digitChars {ds : List (Fin 10)} (hds : ds ≠ []) {c : Char} (hc : digitValue c = none)
    (cs : List Char) : parseBound (digitChars ds ++ c :: cs) =
      if h : decimalValue ds < 512 then some (⟨decimalValue ds, h⟩, c :: cs) else none := by
  cases ds with
  | nil => exact absurd rfl hds
  | cons d ds =>
    rw [digitChars_cons, List.cons_append, parseBound_digit_cons]
    simp [readDigits_digitChars _ _ hc, decimalValue]

theorem parseBound_max (cs : List Char) : parseBound ('M' :: 'A' :: 'X' :: cs) = some (511, cs) := rfl

section

variable {cs cs' : List Char} {a b : Fin 512}

theorem parseSelector_of_parseBound (h : parseBound cs = some (a, ':' :: cs')) (h' : parseBound cs' = some (b, [']'])) :
    parseSelector ('[' :: cs) = some (a, b) := by
  simp [parseSelector, h, h']

theorem parseSelector_eq_none_of_first (h : parseBound cs = none) : parseSelector ('[' :: cs) = none := by
  simp [parseSelector, h]

theorem parseSelector_eq_none_of_second (h : parseBound cs = some (a, ':' :: cs')) (h' : parseBound cs' = none) :
    parseSelector ('[' :: cs) = none := by
  simp [parseSelector, h, h']

end

/-- Settles O58: each bound is read up to the separator after it. -/
theorem selectorStringsParse : Obligations.SelectorStringsParse := by
  intro ds es hds hes
  have hfirst := parseBound_digitChars hds (c := ':') (by decide) (digitChars es ++ [']'])
  have hsecond := parseBound_digitChars hes (c := ']') (by decide) []
  simp only [List.cons_append, List.append_assoc, List.nil_append]
  refine ⟨fun ha hb => ?_, fun hlarge => ?_, fun hb => ?_⟩
  · rw [dif_pos ha] at hfirst
    rw [dif_pos hb] at hsecond
    exact parseSelector_of_parseBound hfirst hsecond
  · by_cases ha : decimalValue ds < 512
    · rw [dif_pos ha] at hfirst
      rw [dif_neg (by omega)] at hsecond
      exact parseSelector_eq_none_of_second hfirst hsecond
    · rw [dif_neg ha] at hfirst
      exact parseSelector_eq_none_of_first hfirst
  · rw [dif_pos hb] at hsecond
    exact parseSelector_of_parseBound (parseBound_max _) hsecond

/-! ### Selector commands (30_encoding.md R64) -/

/-- A selector command whose string parses is served as the request its encoder makes. -/
theorem step_of_selector {s : State} {call : SelectorCall} {i : Instr} {wdata : List Elem} {later : List HostMove}
    (hin : s.inputs = .selector call :: later) (hs : s.halted = false) (hwf : i.wellFormed = true)
    (he : encodeSelectorCall call = some ⟨encode i, none, wdata⟩) :
    step s = exec i (s.withInputs (.request ⟨encode i, none, wdata⟩ :: later)) := by
  have hserve : step s = (s.withInputs (.request ⟨encode i, none, wdata⟩ :: later)).serve := by
    simp [step, State.serveMove, hin, State.serveSelector, he, State.withInputs]
  rw [hserve]
  exact serve_of_decode hs (decode_eq_some_iff.2 ⟨hwf, rfl⟩)

/-- Settles O59: the encoder makes the encoding of the command with the parsed bounds, which decodes to it (O1). -/
theorem selectorCommandRunsItsEncoding : Obligations.SelectorCommandRunsItsEncoding := by
  intro s win idx wc text value a b later hs hparse
  refine ⟨fun hin => step_of_selector hin hs rfl ?_, fun hin => step_of_selector hin hs rfl ?_⟩
  · simp [encodeSelectorCall, hparse]
  · simp [encodeSelectorCall, hparse]

/-- Settles O4: each word decodes as its row says, by running the decoder. -/
theorem wordsOfTheSpecDecode : Obligations.WordsOfTheSpecDecode := by
  unfold Obligations.WordsOfTheSpecDecode
  decide

end Sys2Proof.Machine

/-! PROOFS. The vector commands (40_vector.md): each answers with one written cell or with data read from its cell, and
the bits of both follow from the operations that split, join and replace bit ranges. -/

namespace Sys2Proof.Machine

/-! ### What a written vector cell leaves unchanged -/

/-- Every other vector cell and the rest of the state are as before (10_state.md R13, R15). -/
def OnlyVecCellChanges (idx : Fin 16) (s t : State) : Prop :=
  (∀ j, j ≠ idx → t.vecCell j = s.vecCell j)
    ∧ SameGpr s t ∧ t.fl = s.fl ∧ t.ip = s.ip ∧ SameMemory s t ∧ SameFault s t ∧ SameConfig s t

theorem onlyVecCellChanges_setVec_respondOk (s : State) (idx : Fin 16) (v : VecCell) (d : List Elem) :
    OnlyVecCellChanges idx s ((s.setVec idx v).respondOk d) :=
  ⟨fun j hj => State.setVec_vecCell_of_ne s idx j v hj, fun _ => rfl, rfl, rfl, ⟨fun _ => rfl, rfl⟩, ⟨rfl, rfl⟩,
    rfl, rfl, rfl⟩

@[simp] theorem State.setVec_respondOk_vecCell_self (s : State) (idx : Fin 16) (v : VecCell) (d : List Elem) :
    ((s.setVec idx v).respondOk d).vecCell idx = v := State.setVec_vecCell_self s idx v

theorem answered_setVec_respondOk (s : State) (idx : Fin 16) (v : VecCell) (d : List Elem) :
    Answered s ((s.setVec idx v).respondOk d) .ok .none d := ⟨rfl, rfl⟩

/-! ### Single bits -/

theorem extractLsb'_one_eq_ofBool {n : Nat} (v : BitVec n) (k : Nat) :
    v.extractLsb' k 1 = BitVec.ofBool (v.getLsbD k) := by
  apply BitVec.eq_of_getLsbD_eq
  intro j hj
  obtain rfl : j = 0 := Nat.lt_one_iff.1 hj
  simp

theorem getLsbD_replaceBits_ofBool (v : VecCell) (pos : Nat) (val : Bool) (k : Nat) (hk : k < 512) :
    (replaceBits v pos 1 ((BitVec.ofBool val).setWidth 512)).getLsbD k = if k = pos then val else v.getLsbD k := by
  rw [getLsbD_replaceBits _ _ _ _ _ hk]
  by_cases h : k = pos
  · simp [h]
  · have hout : ¬(pos ≤ k ∧ k < pos + 1) := by omega
    rw [if_neg hout, if_neg h]

/-- A bit past the width of a value reads as 0. -/
theorem decide_lt_and_getLsbD {w : Nat} (v : BitVec w) (k : Nat) : (decide (k < w) && v.getLsbD k) = v.getLsbD k := by
  by_cases hk : k < w
  · simp [hk]
  · simp [BitVec.getLsbD_of_ge v k (Nat.le_of_not_lt hk)]

/-! ### Sections joined into a cell -/

theorem getLsbD_joinLow_of_getElem? {w n : Nat} {xs : List (BitVec w)} {k : Nat} {x : BitVec w}
    (hx : xs[k]? = some x) (hn : xs.length * w ≤ n) {j : Nat} (hj : j < w) :
    (joinLow n xs).getLsbD (k * w + j) = x.getLsbD j := by
  obtain ⟨hk, -⟩ := List.getElem?_eq_some_iff.1 hx
  have hsection : (joinLow n xs).extractLsb' (k * w) w = x := by
    rw [extractLsb'_joinLow n (Nat.zero_lt_of_lt hj) xs k ((Nat.mul_le_mul_right w hk).trans hn)]
    simp [List.getD_eq_getElem?_getD, hx]
  rw [← hsection, BitVec.getLsbD_extractLsb']
  simp [hj]

theorem getLsbD_joinLow_of_le {w : Nat} (n : Nat) (hw : 0 < w) {xs : List (BitVec w)} {i : Nat}
    (h : xs.length * w ≤ i) : (joinLow n xs).getLsbD i = false := by
  by_cases hi : i < n
  · have hk : xs.length ≤ i / w := (Nat.le_div_iff_mul_le hw).2 h
    rw [getLsbD_joinLow n hw xs i hi, List.getD_eq_getElem?_getD, List.getElem?_eq_none hk]
    simp
  · exact BitVec.getLsbD_of_ge _ _ (Nat.le_of_not_lt hi)

/-! ### Selectors (R74) -/

theorem orderSelector_eq_max_min {o : SelectorOrder} {a b : Fin 512} (h : b.val ≤ a.val ∨ o = .swap) :
    orderSelector o a b = some (max a.val b.val, min a.val b.val) := by
  unfold orderSelector
  split
  · next hle => rw [max_eq_left hle, min_eq_right hle]
  · next hlt =>
    have hle : a.val ≤ b.val := Nat.le_of_not_le hlt
    obtain rfl := h.resolve_left hlt
    rw [max_eq_right hle, min_eq_left hle]

theorem orderSelector_reject {a b : Fin 512} (h : a.val < b.val) : orderSelector .reject a b = none := by
  rw [orderSelector, if_neg (Nat.not_le.2 h)]

theorem orderSelector_swap_comm (a b : Fin 512) : orderSelector .swap a b = orderSelector .swap b a := by
  rw [orderSelector_eq_max_min (.inr rfl), orderSelector_eq_max_min (.inr rfl), max_comm, min_comm]

/-! ### What each command answers -/

section

variable {s : State} (idx : Fin 16)

section Bit

variable {win : Window} {pos : Fin 512} (val : Bool)

theorem exec_vsetbit_ok (h : s.presents none []) (hpos : pos.val < win.bits) :
    exec (.vsetbit win idx pos val) s = .next
      ((s.setVec idx (replaceBits (s.vecCell idx) pos.val 1 ((BitVec.ofBool val).setWidth 512))).respondOk []) := by
  simp [exec, execVsetbit, noOperand_of_presents h, hpos]

theorem exec_vsetbit_fail (h : s.presents none []) (hpos : win.bits ≤ pos.val) :
    exec (.vsetbit win idx pos val) s = .next (s.onlyAnswers .fail .bitposOutOfWindow []) := by
  simp [exec, execVsetbit, noOperand_of_presents h, hpos, State.respondFail_eq]

theorem exec_vgetbit_ok (h : s.presents none []) (hpos : pos.val < win.bits) :
    exec (.vgetbit win idx pos) s =
      .next (s.onlyAnswers .ok .none [⟨1, BitVec.ofBool ((s.vecCell idx).getLsbD pos.val)⟩]) := by
  simp [exec, execVgetbit, noOperand_of_presents h, hpos, State.respondOk_eq, extractLsb'_one_eq_ofBool]

theorem exec_vgetbit_fail (h : s.presents none []) (hpos : win.bits ≤ pos.val) :
    exec (.vgetbit win idx pos) s = .next (s.onlyAnswers .fail .bitposOutOfWindow []) := by
  simp [exec, execVgetbit, noOperand_of_presents h, hpos, State.respondFail_eq]

end Bit

section Sections

variable {win : Window} {wc : Width} {count : Fin 65536} {xs : List (BitVec wc.bits)}

theorem exec_vgetsec_ok (win : Window) (wc : Width) (h : s.presents none []) :
    exec (.vgetsec win idx wc) s =
      .next (s.onlyAnswers .ok .none (elems (splitLow wc.bits (win.bits / wc.bits) (s.vecCell idx)))) := by
  simp [exec, execVgetsec, noOperand_of_presents h, State.respondOk_eq, elems]

theorem exec_vsetsec_ok (h : s.presents none (elems xs)) (hl : xs.length = count.val)
    (hw : count.val * wc.bits = win.bits) :
    exec (.vsetsec win idx wc count) s = .next ((s.setVec idx (joinLow 512 xs)).respondOk []) := by
  simp [exec, execVsetsec, listOperand_of_presents h hl, hw]

theorem exec_vsetsec_fail (h : s.presents none (elems xs)) (hl : xs.length = count.val)
    (hw : count.val * wc.bits ≠ win.bits) :
    exec (.vsetsec win idx wc count) s = .next (s.onlyAnswers .fail .sectionCountMismatch []) := by
  simp [exec, execVsetsec, listOperand_of_presents h hl, hw, State.respondFail_eq]

end Sections

section Range

variable (win : Fin 4) {wc : Width} {a b : Fin 512} {hi lo : Nat} {v : BitVec wc.bits}

theorem exec_vgetsel_ok (h : s.presents none []) (ho : orderSelector s.params.selectorOrder a b = some (hi, lo))
    (hw : hi - lo + 1 ≤ wc.bits) :
    exec (.vgetsel win idx wc a b) s = .next (s.onlyAnswers .ok .none
      [⟨wc.bits, ((s.vecCell idx).extractLsb' lo (hi - lo + 1)).setWidth wc.bits⟩]) := by
  simp [exec, execVgetsel, noOperand_of_presents h, ho, Nat.not_lt.2 hw, State.respondOk_eq]

theorem exec_vgetsel_tooNarrow (h : s.presents none [])
    (ho : orderSelector s.params.selectorOrder a b = some (hi, lo)) (hw : wc.bits < hi - lo + 1) :
    exec (.vgetsel win idx wc a b) s = .next (s.faultedBy .selectorTooNarrow) := by
  simp [exec, execVgetsel, noOperand_of_presents h, ho, hw, State.raiseFatal_eq]

theorem exec_vgetsel_reversed (h : s.presents none []) (ho : orderSelector s.params.selectorOrder a b = none) :
    exec (.vgetsel win idx wc a b) s = .next (s.onlyAnswers .fail .selectorReversed []) := by
  simp [exec, execVgetsel, noOperand_of_presents h, ho, State.respondFail_eq]

theorem exec_vsetsel_ok (h : s.presents none [⟨wc.bits, v⟩])
    (ho : orderSelector s.params.selectorOrder a b = some (hi, lo)) :
    exec (.vsetsel win idx wc a b) s = .next
      ((s.setVec idx (replaceBits (s.vecCell idx) lo (hi - lo + 1) (v.setWidth 512))).respondOk []) := by
  simp [exec, execVsetsel, valueOperand_of_presents h, ho]

theorem exec_vsetsel_reversed (h : s.presents none [⟨wc.bits, v⟩])
    (ho : orderSelector s.params.selectorOrder a b = none) :
    exec (.vsetsel win idx wc a b) s = .next (s.onlyAnswers .fail .selectorReversed []) := by
  simp [exec, execVsetsel, valueOperand_of_presents h, ho, State.respondFail_eq]

end Range

theorem exec_vclear_ok (h : s.presents none []) :
    exec (.vclear idx) s = .next ((s.setVec idx 0).respondOk []) := by
  simp [exec, execVclear, noOperand_of_presents h]

end

/-! ### The obligations on bits (R70, R71, R78) -/

/-- Settles O23: the replaced range of one bit, and the frame of a written cell. -/
theorem vsetbitWritesOneBitOfTheWindow : Obligations.VsetbitWritesOneBitOfTheWindow := by
  intro win idx pos val s h
  refine ⟨fun hpos => ?_, exec_vsetbit_fail idx val h⟩
  refine ⟨_, exec_vsetbit_ok idx val h hpos, answered_setVec_respondOk .., fun k hk => ?_,
    onlyVecCellChanges_setVec_respondOk ..⟩
  rw [State.setVec_respondOk_vecCell_self]
  exact getLsbD_replaceBits_ofBool _ _ _ _ hk

/-- Settles O24: the extracted range of one bit. -/
theorem vgetbitReadsTheBit : Obligations.VgetbitReadsTheBit :=
  fun _ idx _ _ h => ⟨exec_vgetbit_ok idx h, exec_vgetbit_fail idx h⟩

/-- Settles O35: a position in range of a window is in range of every wider one, and the window serves no other check. -/
theorem windowsAliasTheCell : Obligations.WindowsAliasTheCell := by
  intro win win' idx pos s hpos hle
  have hpos' : pos.val < win'.bits := hpos.trans_le hle
  simp [exec, execVgetbit, Nat.not_le.2 hpos, Nat.not_le.2 hpos']

/-! ### The obligations on sections (R72, R73, R78) -/

/-- Settles O25: section k is piece k of the split cell. -/
theorem vgetsecReadsTheSections : Obligations.VgetsecReadsTheSections := by
  intro win idx wc s h
  refine ⟨_, exec_vgetsec_ok idx win wc h, length_splitLow .., fun k x hx j hj => ?_⟩
  rw [getElem?_splitLow, Option.ite_none_right_eq_some, Option.some.injEq] at hx
  obtain ⟨-, rfl⟩ := hx
  simp [hj]

/-- Settles O26: the joined sections fill the window exactly, so the cell holds their bits and zeros above. -/
theorem vsetsecWritesTheSectionsAndClearsAbove : Obligations.VsetsecWritesTheSectionsAndClearsAbove := by
  intro win idx wc count xs s h hl
  refine ⟨fun hw => ?_, exec_vsetsec_fail idx h hl⟩
  have hfill : xs.length * wc.bits = win.bits := by rw [hl, hw]
  refine ⟨_, exec_vsetsec_ok idx h hl hw, answered_setVec_respondOk .., fun k x hx j hj => ?_, fun b hb => ?_,
    onlyVecCellChanges_setVec_respondOk ..⟩
  · rw [State.setVec_respondOk_vecCell_self]
    exact getLsbD_joinLow_of_getElem? hx (hfill.trans_le win.bits_le) hj
  · rw [State.setVec_respondOk_vecCell_self]
    exact getLsbD_joinLow_of_le 512 wc.bits_pos (hfill.trans_le hb)

/-- Settles O32: splitting what was joined gives the sections back. -/
theorem sectionsRoundTrip : Obligations.SectionsRoundTrip := by
  intro win idx wc count xs s t moves h hl hw ht h'
  have hfill : xs.length * wc.bits = win.bits := by rw [hl, hw]
  have hlength : xs.length = win.bits / wc.bits := (Nat.div_eq_of_eq_mul_left wc.bits_pos hfill.symm).symm
  rw [exec_vsetsec_ok idx h hl hw] at ht
  cases ht
  refine ⟨fun b hb => ?_, _, exec_vgetsec_ok idx win wc h', ?_, fun _ => rfl⟩
  · rw [State.setVec_respondOk_vecCell_self]
    exact getLsbD_joinLow_of_le 512 wc.bits_pos (hfill.trans_le hb)
  · have hfits : win.bits / wc.bits * wc.bits ≤ 512 := (Nat.div_mul_le_self ..).trans win.bits_le
    rw [State.withInputs_vecCell, State.setVec_respondOk_vecCell_self,
      splitLow_joinLow 512 _ wc.bits_pos xs hlength hfits]
    rfl

/-! ### The obligations on selectors (R74 to R76, R79) -/

/-- Settles O27, by the order of the bounds and the bits of an extracted range. -/
theorem vgetselReadsTheRange : Obligations.VgetselReadsTheRange := by
  intro win idx wc a b s h
  refine ⟨fun horder => ⟨fun hw => ?_, fun hw => ?_⟩, fun hlt hreject => ?_⟩
  · refine ⟨_, exec_vgetsel_ok idx win h (orderSelector_eq_max_min horder) hw, fun k hk => ?_⟩
    simp [hk]
  · exact exec_vgetsel_tooNarrow idx win h (orderSelector_eq_max_min horder) hw
  · exact exec_vgetsel_reversed idx win h (hreject ▸ orderSelector_reject hlt)

/-- Settles O28, by the order of the bounds and the bits of a replaced range. -/
theorem vsetselWritesTheRange : Obligations.VsetselWritesTheRange := by
  intro win idx wc a b v s h
  refine ⟨fun horder => ?_, fun hlt hreject => exec_vsetsel_reversed idx win h (hreject ▸ orderSelector_reject hlt)⟩
  refine ⟨_, exec_vsetsel_ok idx win h (orderSelector_eq_max_min horder), answered_setVec_respondOk ..,
    fun k hk => ?_, onlyVecCellChanges_setVec_respondOk ..⟩
  have hrange : min a.val b.val ≤ k ∧ k < min a.val b.val + (max a.val b.val - min a.val b.val + 1)
      ↔ min a.val b.val ≤ k ∧ k ≤ max a.val b.val := by omega
  have hbit : (v.setWidth 512).getLsbD (k - min a.val b.val)
      = (decide (k - min a.val b.val < wc.bits) && v.getLsbD (k - min a.val b.val)) := by
    have hk' : k - min a.val b.val < 512 := by omega
    simp [hk', decide_lt_and_getLsbD]
  rw [State.setVec_respondOk_vecCell_self, getLsbD_replaceBits _ _ _ _ _ hk, hbit]
  simp only [hrange]

/-- Settles O33: each bit read from the range (O27) is the bit written there (O28). -/
theorem selectorRoundTrip : Obligations.SelectorRoundTrip := by
  intro win win' idx wc a b v s t moves h hle hw ht h'
  have hmax : max a.val b.val = a.val := max_eq_left hle
  have hmin : min a.val b.val = b.val := min_eq_right hle
  obtain ⟨t', ht', -, hwritten, -⟩ := (vsetselWritesTheRange win idx wc a b v s h).1 (.inl hle)
  rw [ht] at ht'
  cases ht'
  obtain ⟨hread, -⟩ := (vgetselReadsTheRange win' idx wc a b _ h').1 (.inl hle)
  rw [hmax, hmin] at hread hwritten
  obtain ⟨x, hx, hbits⟩ := hread hw
  refine ⟨_, x, hx, rfl, fun k hk => ?_⟩
  rw [hbits k hk]
  by_cases hka : k ≤ a.val - b.val
  · have hin : b.val ≤ b.val + k ∧ b.val + k ≤ a.val := by omega
    rw [State.withInputs_vecCell, hwritten _ (by omega), if_pos hin]
    simp [hk]
  · simp [hka]

/-- Settles O34: under `Swap` both orders of the bounds give one range. -/
theorem swappedSelectorsAgree : Obligations.SwappedSelectorsAgree := by
  intro win win' idx wc a b s hswap
  simp [exec, execVgetsel, execVsetsel, hswap, orderSelector_swap_comm a b]

/-! ### The obligation on VCLEAR (R77) -/

/-- Settles O29, by the frame of a written cell. -/
theorem vclearZeroesItsCell : Obligations.VclearZeroesItsCell :=
  fun idx _ h => ⟨_, exec_vclear_ok idx h, answered_setVec_respondOk .., State.setVec_respondOk_vecCell_self ..,
    onlyVecCellChanges_setVec_respondOk ..⟩

end Sys2Proof.Machine

/-! PROOFS. The scalar register commands (41_scalar_regs.md): each answers with one written cell or with data read from
its cell, and the bits of both are those of the view functions; the effective view of R81 is the view or `full64`. -/

namespace Sys2Proof.Machine

/-! ### Views (R80, R81) -/

theorem effView_eq_ite (p : AliasPolicy) (view : GprView) (idx : Fin 16) :
    effView p view idx = if p = .raxOnly ∧ idx ≠ 0 then .full64 else view := by
  cases p with
  | uniform => simp [effView]
  | raxOnly => by_cases h : idx = 0 <;> simp [effView, h]

/-- `WriteView` under the effective view, as 41_scalar_regs.md R82 lists its bits. -/
theorem getLsbD_writeView_effView (p : AliasPolicy) (view : GprView) (idx : Fin 16) (g v : Word) {k : Nat}
    (hk : k < 64) : (writeView (effView p view idx) g v).getLsbD k =
      if view = .full64 ∨ (p = .raxOnly ∧ idx ≠ 0) then v.getLsbD k
      else if view = .zext32 then (decide (k < 32) && v.getLsbD k)
      else if view = .merge16 then (if k < 16 then v.getLsbD k else g.getLsbD k)
      else if view = .merge8Low then (if k < 8 then v.getLsbD k else g.getLsbD k)
      else (if 8 ≤ k ∧ k < 16 then v.getLsbD (k - 8) else g.getLsbD k) := by
  rw [effView_eq_ite, getLsbD_writeView _ _ _ _ hk]
  by_cases hfull : p = .raxOnly ∧ idx ≠ 0
  · simp [hfull]
  · simp only [hfull, or_false]
    cases view <;> rfl

/-- `ReadView` under the effective view, as 41_scalar_regs.md R83 lists its bits. -/
theorem getLsbD_readView_effView (p : AliasPolicy) (view : GprView) (idx : Fin 16) (g : Word) {k : Nat}
    (hk : k < 64) : (readView (effView p view idx) g).getLsbD k =
      if view = .full64 ∨ (p = .raxOnly ∧ idx ≠ 0) then g.getLsbD k
      else if view = .zext32 then (decide (k < 32) && g.getLsbD k)
      else if view = .merge16 then (decide (k < 16) && g.getLsbD k)
      else if view = .merge8Low then (decide (k < 8) && g.getLsbD k)
      else (decide (k < 8) && g.getLsbD (8 + k)) := by
  rw [effView_eq_ite, getLsbD_readView _ _ _ hk]
  by_cases hfull : p = .raxOnly ∧ idx ≠ 0
  · simp [hfull]
  · simp only [hfull, or_false]
    cases view <;> rfl

/-- How many bits a general-purpose view shows (R80). -/
def gprViewWidth : GprView → Nat
  | .full64 => 64
  | .zext32 => 32
  | .merge16 => 16
  | .merge8Low => 8
  | .merge8High => 8

theorem getLsbD_readView_writeView (view : GprView) (g v : Word) {k : Nat} (hk : k < 64) :
    (readView view (writeView view g v)).getLsbD k = (decide (k < gprViewWidth view) && v.getLsbD k) := by
  rw [getLsbD_readView _ _ _ hk]
  cases view with
  | merge8High =>
    by_cases h : k < 8
    · have hcell : 8 + k < 64 := by omega
      have hwritten : 8 + k < 16 := by omega
      simp [getLsbD_writeView _ _ _ _ hcell, h, hwritten, gprViewWidth]
    · simp [h, gprViewWidth]
  | full64 => simp [writeView, hk, gprViewWidth]
  | zext32 => by_cases h : k < 32 <;> simp [getLsbD_writeView _ _ _ _ hk, h, gprViewWidth]
  | merge16 => by_cases h : k < 16 <;> simp [getLsbD_writeView _ _ _ _ hk, h, gprViewWidth]
  | merge8Low => by_cases h : k < 8 <;> simp [getLsbD_writeView _ _ _ _ hk, h, gprViewWidth]

theorem readView_writeView (view : GprView) (g v : Word) : readView view (writeView view g v) =
    v &&& (BitVec.allOnes (gprViewWidth view)).setWidth 64 := by
  apply BitVec.eq_of_getLsbD_eq
  intro k hk
  rw [getLsbD_readView_writeView view g v hk]
  simp [hk, Bool.and_comm]

/-! ### What each command answers -/

section

variable {s : State} {v : Word}

theorem exec_gprset_ok (view : GprView) (idx : Fin 16) (h : s.presents none [⟨64, v⟩]) :
    exec (.gprset view idx) s = .next
      ((s.setGpr idx (writeView (effView s.params.aliasPolicy view idx) (s.gprCell idx) v)).respondOk []) := by
  simp [exec, execGprset, valueOperand_of_presents h]

theorem exec_gprget_ok (view : GprView) (idx : Fin 16) (h : s.presents none []) :
    exec (.gprget view idx) s = .next (s.onlyAnswers .ok .none
      [⟨64, readView (effView s.params.aliasPolicy view idx) (s.gprCell idx)⟩]) := by
  simp [exec, execGprget, noOperand_of_presents h, State.respondOk_eq]

theorem exec_flset_ok (view : CellView) (h : s.presents none [⟨64, v⟩]) :
    exec (.flset view) s = .next ((s.setFl (cellWrite view s.fl v)).respondOk []) := by
  simp [exec, execFlset, valueOperand_of_presents h]

theorem exec_flget_ok (view : CellView) (h : s.presents none []) :
    exec (.flget view) s = .next (s.onlyAnswers .ok .none [⟨64, cellRead view s.fl⟩]) := by
  simp [exec, execFlget, noOperand_of_presents h, State.respondOk_eq]

theorem exec_ipset_ok (view : CellView) (h : s.presents none [⟨64, v⟩]) :
    exec (.ipset view) s = .next ((s.setIp (cellWrite view s.ip v)).respondOk []) := by
  simp [exec, execIpset, valueOperand_of_presents h]

theorem exec_ipget_ok (view : CellView) (h : s.presents none []) :
    exec (.ipget view) s = .next (s.onlyAnswers .ok .none [⟨64, cellRead view s.ip⟩]) := by
  simp [exec, execIpget, noOperand_of_presents h, State.respondOk_eq]

end

@[simp] theorem State.setGpr_respondOk_gprCell_self (s : State) (idx : Fin 16) (v : Word) (d : List Elem) :
    ((s.setGpr idx v).respondOk d).gprCell idx = v := State.setGpr_gprCell_self s idx v

/-- A general-purpose cell that the command does not set stays (R89 item 3). -/
theorem ExecResult.gprCell_of_ne_gprset {i : Instr} {s t : State} (h : ExecResult i s t) {j : Fin 16}
    (hj : ∀ view, i ≠ .gprset view j) : t.gprCell j = s.gprCell j := by
  cases h with
  | gpr view idx v hi =>
    have hne : j ≠ idx := by rintro rfl; exact hj view hi
    exact State.setGpr_gprCell_of_ne s idx j v hne
  | write u hi hu => rw [hu.eq]; rfl
  | writeFault u c wc count hi hu => rw [hu.eq]; rfl
  | _ => rfl

/-! ### The obligations on the general-purpose cells (R80 to R83, R89) -/

/-- Settles O36: the bits of the effective view, and the frame of a written cell. -/
theorem gprsetWritesItsView : Obligations.GprsetWritesItsView := by
  intro view idx v s _ h
  refine ⟨_, exec_gprset_ok view idx h, ⟨rfl, rfl⟩, fun k hk => ?_,
    fun j hj => State.setGpr_gprCell_of_ne s idx j _ hj, fun _ => rfl, rfl, rfl, ⟨fun _ => rfl, rfl⟩, ⟨rfl, rfl⟩,
    rfl, rfl, rfl⟩
  rw [State.setGpr_respondOk_gprCell_self]
  exact getLsbD_writeView_effView _ _ _ _ _ hk

/-- Settles O37, by the bits of the effective view. -/
theorem gprgetReadsItsView : Obligations.GprgetReadsItsView :=
  fun view idx _ _ h => ⟨_, exec_gprget_ok view idx h, fun _ hk => getLsbD_readView_effView _ _ _ _ hk⟩

/-- Settles O38, by the frames of every part of the state over the results of a command. -/
theorem onlyGprsetTouchesItsCell : Obligations.OnlyGprsetTouchesItsCell := by
  intro i s t h
  have hr := exec_inversion h
  refine ⟨?_, hr.sameGpr⟩
  rintro view idx rfl
  refine ⟨fun j hj => hr.gprCell_of_ne_gprset ?_, hr.sameVec rfl, hr.sameFl nofun, hr.sameIp nofun,
    hr.sameMemory rfl, hr.config⟩
  rintro view' ⟨⟩
  exact hj rfl

/-- Settles O39: the mask of each view is the literal of its width. -/
theorem viewReadsBackWhatItWrote : Obligations.ViewReadsBackWhatItWrote :=
  fun g v => ⟨rfl, readView_writeView .zext32 g v, readView_writeView .merge16 g v, readView_writeView .merge8Low g v,
    readView_writeView .merge8High g v⟩

/-! ### The obligations on the Flags and Instruction-Pointer cells (R84 to R88) -/

/-- Settles O40, by the bits of the view functions of R84. -/
theorem flagsCellFollowsItsViews : Obligations.FlagsCellFollowsItsViews := by
  intro view s
  refine ⟨fun v h => ?_, fun h => ⟨_, exec_flget_ok view h, getLsbD_cellRead view s.fl⟩⟩
  exact ⟨_, exec_flset_ok view h, ⟨rfl, rfl⟩, getLsbD_cellWrite view s.fl v, fun _ => rfl, fun _ => rfl, rfl,
    ⟨fun _ => rfl, rfl⟩, ⟨rfl, rfl⟩, rfl, rfl, rfl⟩

/-- Settles O41, by the bits of the view functions of R84. -/
theorem instructionPointerFollowsItsViews : Obligations.InstructionPointerFollowsItsViews := by
  intro view s
  refine ⟨fun v h => ?_, fun h => ⟨_, exec_ipget_ok view h, getLsbD_cellRead view s.ip⟩⟩
  exact ⟨_, exec_ipset_ok view h, ⟨rfl, rfl⟩, getLsbD_cellWrite view s.ip v, fun _ => rfl, fun _ => rfl, rfl,
    ⟨fun _ => rfl, rfl⟩, ⟨rfl, rfl⟩, rfl, rfl, rfl⟩

end Sys2Proof.Machine

/-! PROOFS. The checks of an access, and the memory commands of many elements (42_memory_ops.md R90, R95 to R99): what
MRDV and MWRV answer, the frame of every memory command, and MWRV as the run of its MWRs. -/

namespace Sys2Proof.Machine

/-! ### The checks of an access (R90) -/

/-- In range, only the capacity can refuse a write. -/
theorem accessFault_write {s : State} {e n : Nat} (hbase : s.base.toNat ≤ e) (htop : e + n ≤ 2 ^ 64) :
    s.accessFault e n .write =
      if admits s.params.maxChunks s.segs (s.translate e) n = true then none else some .outOfChunks := by
  unfold State.accessFault AW
  rw [if_neg (by omega), if_neg (by omega)]
  cases admits s.params.maxChunks s.segs (s.translate e) n <;> rfl

theorem base_le_of_accessFault_eq_none {s : State} {e n : Nat} {kind : AccessKind}
    (h : s.accessFault e n kind = none) : s.base.toNat ≤ e := by
  by_contra hlow
  rw [accessFault_below s e n kind (by omega)] at h
  cases h

/-- Settles O43, check by check. -/
theorem accessChecksInOrder : Obligations.AccessChecksInOrder := by
  intro s e n kind hn
  refine ⟨accessFault_below s e n kind, accessFault_above s e n kind, accessFault_read s e n hn,
    fun hbase htop hmax => ?_, fun m hbase htop hmax => ?_⟩
  · rw [accessFault_write hbase htop, hmax, admits_none, if_pos rfl]
  · rw [accessFault_write hbase htop, hmax]
    simp only [admits_some, State.translate, ← Nat.not_lt, ite_not]

/-! ### The memory commands side by side (R98, R99, 20_memory.md R34) -/

/-- Settles O51, by the two equations of the byte commands. -/
theorem byteCommandsAreTheU8Commands : Obligations.ByteCommandsAreTheU8Commands :=
  fun s => ⟨exec_mrdb_eq_mrd s, exec_mwrb_eq_mwr s⟩

/-- Settles O53, by the frames of every part of the state over the results of a command. -/
theorem onlyMemoryWritesTouchMemory : Obligations.OnlyMemoryWritesTouchMemory := by
  intro i s t h
  have hr := exec_inversion h
  refine ⟨hr.sameMemory, fun hm => ⟨hr.sameVec ?_, hr.sameGpr ?_, hr.sameFl ?_, hr.sameIp ?_, hr.config⟩⟩
  · cases i with
    | mrdb | mwrb | mrd wc | mwr wc | mrdv wc count | mwrv wc count => rfl
    | _ => cases hm
  · rintro view idx rfl; cases hm
  · rintro view rfl; cases hm
  · rintro view rfl; cases hm

/-- Settles O52: the bytes the write left are those of the value. -/
theorem memoryRoundTrip : Obligations.MemoryRoundTrip := by
  intro s t addr wc v moves hm h hc hexec hread
  obtain ⟨hbase, htop, -⟩ := (accessFault_none_iff s _ _ .write wc.bytes_pos).1 hc
  rw [exec_mwr_ok h hc] at hexec
  cases hexec
  rw [exec_mrd_ok wc hread (by simpa [State.onlyAnswers, memWrite_base] using hbase) htop, memRead_eq _ wc _ v]
  intro k hk
  rw [← readByteT_memWrite_inside s wc addr.toNat v hm k hk, ← memWrite_translate s addr.toNat addr.toNat v]
  rfl

/-- Settles O57: the first two writes allocate adjacent chunks, and the third lies in the segment they make. -/
theorem adjacentChunksCoalesce : Obligations.AdjacentChunksCoalesce := by
  intro s x y z hs
  have htwo : ((s.writeByteT 0 x).writeByteT 512 y).segs = [⟨0, 1024⟩] := by
    rw [State.writeByteT_segs, State.writeByteT_segs, hs]
    decide
  refine ⟨htwo, ?_⟩
  rw [State.writeByteT_segs, htwo]
  decide

/-! ### MRDV (R96) -/

section ReadVector

variable {s : State} {addr : Addr} {wc : Width} {count : Fin 65536}

theorem exec_mrdv_ok {vs : List (BitVec wc.bits)} (h : s.presents (some addr) [])
    (hread : s.readElements wc.bits count.val addr.toNat = .ok vs) :
    exec (.mrdv wc count) s = .next (s.onlyAnswers .ok .none (elems vs)) := by
  simp [exec, execMrdv, addrOperand_of_presents h, hread, State.respondOk_eq, elems]

theorem exec_mrdv_fault {cause : Cause} (h : s.presents (some addr) [])
    (hread : s.readElements wc.bits count.val addr.toNat = .error cause) :
    exec (.mrdv wc count) s = .next (s.faultedBy cause) := by
  simp [exec, execMrdv, addrOperand_of_presents h, hread, State.raiseFatal_eq]

end ReadVector

/-- Settles O47, by the three outcomes of a vector read and the bytes of each element. -/
theorem mrdvReadsItsElements : Obligations.MrdvReadsItsElements := by
  intro s addr wc count h
  refine ⟨fun hrange => ?_, fun hc hlow => ?_, fun hc hbase htop => ?_⟩
  · refine ⟨_, exec_mrdv_ok h (readElements_ok s wc count.val addr.toNat hrange), by simp, fun j v hv k hk => ?_⟩
    obtain ⟨hj, rfl⟩ := List.getElem?_eq_some_iff.1 hv
    have hbase : s.base.toNat ≤ addr.toNat := by
      rcases hrange with hzero | ⟨hbase, -⟩
      · simp [hzero] at hj
      · exact hbase
    rw [List.getElem_map, List.getElem_range, extractLsb'_memRead s wc _ k hk, State.translate,
      Nat.sub_add_comm hbase]
  · exact exec_mrdv_fault h (readElements_below s wc count.val addr.toNat hc hlow)
  · exact exec_mrdv_fault h (readElements_above s wc count.val addr.toNat hc hbase htop)

/-! ### MWRV (R97) -/

/-- The end of a vector write: the fault of the element that failed, or OK. -/
def finishWrites : State × Option Cause → State
  | (t, some cause) => t.raiseFatal cause
  | (t, none) => t.respondOk []

@[simp] theorem finishWrites_readByteT (r : State × Option Cause) (a : Nat) :
    (finishWrites r).readByteT a = r.1.readByteT a := by
  rcases r with ⟨t, _ | cause⟩ <;> rfl

@[simp] theorem finishWrites_segs (r : State × Option Cause) : (finishWrites r).segs = r.1.segs := by
  rcases r with ⟨t, _ | cause⟩ <;> rfl

section WriteVector

variable {s : State} {addr : Addr} {wc : Width} {count : Fin 65536} {vs : List (BitVec wc.bits)}

theorem exec_mwrv_of_presents (h : s.presents (some addr) (elems vs)) (hl : vs.length = count.val) :
    exec (.mwrv wc count) s = .next (finishWrites (s.writeElements vs addr.toNat)) := by
  simp only [exec, execMwrv, addrListOperand_of_presents h hl]
  rcases s.writeElements vs addr.toNat with ⟨t, _ | cause⟩ <;> rfl

theorem finishWrites_ok {e : Nat} (h : (s.writeElements vs e).2 = none) :
    Answered s (finishWrites (s.writeElements vs e)) .ok .none []
      ∧ SameFault s (finishWrites (s.writeElements vs e)) := by
  obtain ⟨-, -, -, -, hfault, -, hinputs, hresponses⟩ := (writeElements_written s vs e wc.eight_le s .refl).frame
  rcases hr : s.writeElements vs e with ⟨t, c⟩
  rw [hr] at h hfault hinputs hresponses
  cases h
  exact ⟨⟨congrArg List.tail hinputs, congrArg (· ++ _) hresponses⟩, hfault⟩

theorem finishWrites_fault {e : Nat} {cause : Cause} (h : (s.writeElements vs e).2 = some cause) :
    Answered s (finishWrites (s.writeElements vs e)) .fatal cause.reason []
      ∧ (finishWrites (s.writeElements vs e)).halted = true
      ∧ (finishWrites (s.writeElements vs e)).faultCause = cause.code := by
  obtain ⟨-, -, -, -, -, -, hinputs, hresponses⟩ := (writeElements_written s vs e wc.eight_le s .refl).frame
  rcases hr : s.writeElements vs e with ⟨t, c⟩
  rw [hr] at h hinputs hresponses
  cases h
  exact ⟨⟨congrArg List.tail hinputs, congrArg (· ++ _) hresponses⟩, rfl, rfl⟩

end WriteVector

/-- Settles O48: `writeElements_commits` says which elements are stored, and MWRV ends as the last check says. -/
theorem mwrvCommitsTheElementsBeforeAFault : Obligations.MwrvCommitsTheElementsBeforeAFault := by
  intro s addr wc count vs hm hw h hl
  have hexec := exec_mwrv_of_presents h hl
  obtain ⟨hvec, hgpr, hfl, hip, hconfig⟩ := (onlyMemoryWritesTouchMemory _ _ _ hexec).2 rfl
  obtain ⟨m, hle, hcheck, hinside, houtside, hmapped, hall, hfails⟩ := writeElements_commits s wc vs addr.toNat hm hw
  rw [hl] at hle hall hfails
  refine ⟨_, m, hexec, hle, hcheck, ?_, ?_, ?_, fun heq => finishWrites_ok (hall heq), fun hlt => ?_,
    hvec, hgpr, hfl, hip, hconfig⟩
  · simpa only [finishWrites_readByteT, State.translate] using hinside
  · simpa only [finishWrites_readByteT, State.translate] using houtside
  · simpa only [finishWrites_segs, State.translate] using hmapped
  · obtain ⟨cause, hcause, hr⟩ := hfails hlt
    exact ⟨cause, hcause, finishWrites_fault hr⟩

/-- Settles O49, by `writeElements_fits`; without elements there is no check. -/
theorem mwrvStoresAllThatFits : Obligations.MwrvStoresAllThatFits := by
  intro s addr wc count vs hm hw h hl
  have hexec := exec_mwrv_of_presents h hl
  refine ⟨fun hzero => ?_, fun hc => ?_⟩
  · obtain rfl : vs = [] := List.eq_nil_of_length_eq_zero (hl.trans hzero)
    exact hexec
  rw [← hl] at hc ⊢
  obtain ⟨hvec, hgpr, hfl, hip, hconfig⟩ := (onlyMemoryWritesTouchMemory _ _ _ hexec).2 rfl
  obtain ⟨hinside, hall⟩ := writeElements_fits s wc vs addr.toNat hm hw (.inr hc)
  obtain ⟨hanswered, hfault⟩ := finishWrites_ok hall
  refine ⟨_, hexec, hanswered, ?_, ?_, hvec, hgpr, hfl, hip, hfault, hconfig⟩
  · simpa only [finishWrites_readByteT, State.translate] using hinside
  · simpa only [finishWrites_readByteT, State.translate] using fun a =>
      readByteT_writeElements_outside s wc vs addr.toNat a (base_le_of_accessFault_eq_none hc)

/-! ### MWRV as the run of its MWRs (R95, R97, 60_exceptions.md R105) -/

/-- The requests of the MWRs at `e`, `e + n`, ... (R95). -/
def mwrRequests (wc : Width) : List (BitVec wc.bits) → Nat → List Request
  | [], _ => []
  | v :: vs, e => ⟨encode (.mwr wc), some (BitVec.ofNat 64 e), [⟨wc.bits, v⟩]⟩ :: mwrRequests wc vs (e + wc.bytes)

@[simp] theorem length_mwrRequests (wc : Width) (vs : List (BitVec wc.bits)) (e : Nat) :
    (mwrRequests wc vs e).length = vs.length := by
  induction vs generalizing e with
  | nil => rfl
  | cons v vs ih => simp [mwrRequests, ih]

theorem mapIdx_mwr_eq_mwrRequests (wc : Width) (vs : List (BitVec wc.bits)) (e : Nat) :
    (vs.mapIdx fun j v => (⟨encode (.mwr wc), some (BitVec.ofNat 64 (e + j * wc.bytes)), [⟨wc.bits, v⟩]⟩ : Request))
      = mwrRequests wc vs e := by
  induction vs generalizing e with
  | nil => rfl
  | cons v vs ih =>
    rw [List.mapIdx_cons, mwrRequests, ← ih (e + wc.bytes)]
    simp [Nat.succ_mul, Nat.add_assoc, Nat.add_comm wc.bytes]

/-- A running block serves a request of an encoded command by running the command. -/
theorem step_of_encoded {s : State} {i : Instr} {addr : Option Addr} {wdata : List Elem} {later : List HostMove}
    (hin : s.inputs = .request ⟨encode i, addr, wdata⟩ :: later) (hs : s.halted = false)
    (hwf : i.wellFormed = true) : step s = exec i s := by
  rw [step_of_request hin]
  refine serve_of_decode hs ?_
  rw [port_of_request hin]
  exact decode_eq_some_iff.2 ⟨hwf, rfl⟩

section SameBlock

variable {s t : State}

theorem SameBlock.halted_eq (h : SameBlock s t) : t.halted = s.halted := by
  obtain ⟨-, -, -, -, -, -, ⟨hhalted, -⟩, -, -⟩ := h
  exact hhalted

theorem SameBlock.accessFault_eq (h : SameBlock s t) (e n : Nat) (kind : AccessKind) :
    t.accessFault e n kind = s.accessFault e n kind := by
  obtain ⟨-, -, -, -, -, hsegs, -, hbase, hparams⟩ := h
  unfold State.accessFault State.translate
  rw [hsegs, hbase, hparams]

theorem SameBlock.writeByteT (h : SameBlock s t) (a : Nat) (b : Byte) :
    SameBlock (s.writeByteT a b) (t.writeByteT a b) := by
  obtain ⟨hvec, hgpr, hfl, hip, hmem, hsegs, hfault, hbase, hparams⟩ := h
  exact ⟨hvec, hgpr, hfl, hip, by simp [hmem], by simp [hsegs], hfault, hbase, hparams⟩

theorem SameBlock.writeBytesT (h : SameBlock s t) (a : Nat) (bs : List Byte) :
    SameBlock (s.writeBytesT a bs) (t.writeBytesT a bs) := by
  induction bs generalizing s t a with
  | nil => exact h
  | cons b bs ih => exact ih (h.writeByteT a b) (a + 1)

theorem SameBlock.memWrite (h : SameBlock s t) {w : Nat} (e : Nat) (v : BitVec w) :
    SameBlock (s.memWrite e v) (t.memWrite e v) := by
  obtain ⟨-, -, -, -, -, -, -, hbase, -⟩ := id h
  simp only [State.memWrite, State.translate, hbase]
  exact h.writeBytesT _ _

theorem SameBlock.raiseFatal (h : SameBlock s t) (cause : Cause) :
    SameBlock (s.raiseFatal cause) (t.raiseFatal cause) := by
  obtain ⟨hvec, hgpr, hfl, hip, hmem, hsegs, -, hbase, hparams⟩ := h
  exact ⟨hvec, hgpr, hfl, hip, hmem, hsegs, ⟨rfl, rfl⟩, hbase, hparams⟩

/-- A halted block answers every request and stays as it is (60_exceptions.md R105). -/
theorem run_of_halted (h : SameBlock s t) (hs : s.halted = true) {rs : List Request}
    (hin : t.inputs = rs.map .request) : ∃ u, run rs.length t = .next u ∧ SameBlock s u := by
  induction rs generalizing t with
  | nil => exact ⟨t, rfl, h⟩
  | cons r rs ih =>
    have hstep : step t = .next t.respondHalted :=
      (step_of_request hin).trans (serve_of_halted (h.halted_eq.trans hs))
    rw [List.length_cons, run_succ hstep]
    exact ih (t := t.respondHalted) h (by rw [State.respondHalted, State.respond_inputs, hin]; rfl)

/-- The run of the MWRs ends in the block that the vector write of the same elements leaves: element by element, the
check and the write are the same on both sides, and after a fault the block only answers. -/
theorem run_mwrRequests (wc : Width) {vs : List (BitVec wc.bits)} {e : Nat} (h : SameBlock s t)
    (hs : s.halted = false) (haddr : ∀ j, j < vs.length → e + j * wc.bytes < 2 ^ 64)
    (hin : t.inputs = (mwrRequests wc vs e).map .request) :
    ∃ u, run vs.length t = .next u ∧ SameBlock (finishWrites (s.writeElements vs e)) u := by
  induction vs generalizing s t e with
  | nil => exact ⟨t, rfl, h⟩
  | cons v vs ih =>
    have he : e < 2 ^ 64 := by simpa using haddr 0 (Nat.succ_pos _)
    have hport : t.presents (some (BitVec.ofNat 64 e)) [⟨wc.bits, v⟩] :=
      ⟨congrArg Request.addr (port_of_request hin), congrArg Request.wdata (port_of_request hin)⟩
    have htoNat : (BitVec.ofNat 64 e).toNat = e := Nat.mod_eq_of_lt he
    have hstep : step t = exec (.mwr wc) t := step_of_encoded hin (h.halted_eq.trans hs) rfl
    have hrest : t.inputs.tail = (mwrRequests wc vs (e + wc.bytes)).map .request := congrArg List.tail hin
    have hcheck := h.accessFault_eq e wc.bytes .write
    cases hc : s.accessFault e wc.bytes .write with
    | some cause =>
      have hfault : step t = .next (t.faultedBy cause) :=
        hstep.trans (exec_mwr_fault hport (by rw [htoNat, hcheck, hc]))
      rw [writeElements_cons_fault s wc v vs e cause hc, List.length_cons, run_succ hfault,
        ← length_mwrRequests wc vs (e + wc.bytes)]
      exact run_of_halted (h.raiseFatal cause) rfl hrest
    | none =>
      have hok : step t = .next ((t.memWrite e v).onlyAnswers .ok .none []) := by
        rw [hstep, exec_mwr_ok hport (by rw [htoNat, hcheck, hc]), htoNat]
      rw [writeElements_cons s wc v vs e hc, List.length_cons, run_succ hok]
      refine ih (t := (t.memWrite e v).onlyAnswers .ok .none []) (h.memWrite e v) ?_ (fun j hj => ?_) ?_
      · rw [memWrite_eq]
        exact hs
      · have := haddr (j + 1) (Nat.succ_lt_succ hj)
        rw [Nat.succ_mul] at this
        omega
      · rw [memWrite_eq]
        exact hrest

end SameBlock

/-- Settles O50: both runs start on one block, with the vector request or its MWRs at the port. -/
theorem mwrvIsItsElementwiseMwrs : Obligations.MwrvIsItsElementwiseMwrs := by
  intro s addr wc count vs hs hl haddr
  have hsame : ∀ rs rs', SameBlock (s.issue rs) (s.issue rs') := fun _ _ =>
    ⟨fun _ => rfl, fun _ => rfl, rfl, rfl, rfl, rfl, ⟨rfl, rfl⟩, rfl, rfl⟩
  have hvector := step_of_encoded (s := s.issue [⟨encode (.mwrv wc count), some addr, elems vs⟩]) rfl hs rfl
  have hexec := exec_mwrv_of_presents (s := s.issue [⟨encode (.mwrv wc count), some addr, elems vs⟩]) ⟨rfl, rfl⟩ hl
  have hrequests : (vs.mapIdx fun j v =>
      (⟨encode (.mwr wc), some (addr + BitVec.ofNat 64 (j * wc.bytes)), [⟨wc.bits, v⟩]⟩ : Request))
        = mwrRequests wc vs addr.toNat := by
    simp [← mapIdx_mwr_eq_mwrRequests, BitVec.ofNat_add]
  rw [← hl] at haddr ⊢
  obtain ⟨u, hrun, hblock⟩ := run_mwrRequests wc (hsame _ _) hs haddr rfl
  exact ⟨_, u, hvector.trans hexec, hrequests ▸ hrun, hblock⟩

end Sys2Proof.Machine

/-! PROOFS. Statuses, reasons and the fault (60_exceptions.md R100 to R114): the codes, the order in which a request is
served, what FATAL and FAIL say about the command that answered so, and what a halted block keeps. -/

namespace Sys2Proof.Machine

/-! ### The codes (R100, R101) -/

theorem status_code_ne_three (status : Status) : status.code ≠ 3 := by
  cases status with
  | ok | fail | fatal => decide

/-- Settles O5: every clause but the one on status 3 compares two given codes or reasons. -/
theorem responseCodesAreTheSpecs : Obligations.ResponseCodesAreTheSpecs := by
  refine ⟨rfl, rfl, rfl, status_code_ne_three, ?_⟩
  decide

/-! ### The order of serving a request (R105, R106) -/

/-- Settles O6, by the second step of R106 on the request at the port. -/
theorem stepRunsTheDecodedCommand : Obligations.StepRunsTheDecodedCommand := by
  intro s r later i hin hs hd
  rw [← port_of_request hin] at hd
  exact (step_of_request hin).trans (serve_of_decode hs hd)

/-- Settles O7: an illegal word raises the fault, whose state `raiseFatal_eq` writes out. -/
theorem illegalWordHaltsTheBlock : Obligations.IllegalWordHaltsTheBlock := by
  intro s r later hin hs hd
  rw [← port_of_request hin] at hd
  rw [step_of_request hin, serve_of_illegal hs hd, State.raiseFatal_eq]

/-- Settles O9: the first step of R106 answers before the word is decoded. -/
theorem haltedBlockAnswersItsCause : Obligations.HaltedBlockAnswersItsCause := by
  intro s r later hin hs
  rw [step_of_request hin, serve_of_halted hs, State.respondHalted_eq]

theorem step_of_inputs_eq_nil {s : State} (h : s.inputs = []) : step s = .next s := by
  simp [step, State.serveMove, h]

/-- Settles O17, by the idle move. -/
theorem idleBlockKeepsItsState : Obligations.IdleBlockKeepsItsState := fun _ => step_of_inputs_eq_nil

/-! ### What a FATAL or FAIL answer says (R102 to R104) -/

section

variable {i : Instr} {s t : State} {reason : Reason} {rdata : List Elem}

theorem Written.responses_eq {u : State} (h : Written s u) : u.responses = s.responses := by
  rw [h.eq]

/-- A command that answers FATAL has raised a cause, on its own state or, in MWRV, after checked element writes. -/
theorem ExecResult.eq_raiseFatal_of_fatal (h : ExecResult i s t)
    (hresp : t.responses = s.responses ++ [⟨.fatal, reason, rdata⟩]) :
    ∃ u cause, t = u.raiseFatal cause ∧ Written s u ∧ ((∀ wc count, i ≠ .mwrv wc count) → u = s)
      ∧ reason = cause.reason ∧ rdata = [] := by
  cases h with
  | fatal c =>
    obtain ⟨rfl, rfl⟩ : c.reason = reason ∧ [] = rdata := by simpa [State.raiseFatal] using hresp
    exact ⟨s, c, rfl, .refl, fun _ => rfl, rfl, rfl⟩
  | writeFault u c wc count hi hu =>
    obtain ⟨rfl, rfl⟩ : c.reason = reason ∧ [] = rdata := by
      simpa [State.raiseFatal, hu.responses_eq] using hresp
    exact ⟨u, c, rfl, hu, fun hne => absurd hi (hne wc count), rfl, rfl⟩
  | fail r hr => simp [State.respondFail] at hresp
  | write u hi hu => simp [State.respondOk, hu.responses_eq] at hresp
  | _ => simp [State.respondOk] at hresp

/-- A command that answers FAIL has met the condition of R102 that gives its reason. -/
theorem ExecResult.failReason_of_fail (h : ExecResult i s t)
    (hresp : t.responses = s.responses ++ [⟨.fail, reason, rdata⟩]) : failReason s.params i = some reason := by
  cases h with
  | fail r hr =>
    obtain ⟨rfl, -⟩ : r = reason ∧ [] = rdata := by simpa [State.respondFail] using hresp
    exact hr
  | fatal c => simp [State.raiseFatal] at hresp
  | writeFault u c wc count hi hu => simp [State.raiseFatal, hu.responses_eq] at hresp
  | write u hi hu => simp [State.respondOk, hu.responses_eq] at hresp
  | _ => simp [State.respondOk] at hresp

end

/-- Settles O10: `raiseFatal` writes the status registers, and the element writes before it, which only MWRV has, only
memory. -/
theorem fatalCommandRecordsItsCauseOnly : Obligations.FatalCommandRecordsItsCauseOnly := by
  intro i s t reason rdata h hresp
  obtain ⟨u, cause, rfl, hu, hnone, rfl, rfl⟩ := (exec_inversion h).eq_raiseFatal_of_fatal hresp
  obtain ⟨hvec, hgpr, hfl, hip, -, hconfig, -, -⟩ := hu.frame
  refine ⟨rfl, rfl, rfl, ⟨cause, rfl⟩, hvec, hgpr, hfl, hip, hconfig, fun hne => ?_⟩
  rw [hnone hne]
  exact ⟨fun _ => rfl, rfl⟩

/-! ### A well-shaped payload without an address (30_encoding.md R62) -/

theorem exists_eq_elems {w : Nat} {es : List Elem} (h : ∀ e ∈ es, e.width = w) :
    ∃ vs : List (BitVec w), es = elems vs := by
  induction es with
  | nil => exact ⟨[], rfl⟩
  | cons e es ih =>
    obtain ⟨he, hes⟩ := List.forall_mem_cons.1 h
    obtain ⟨vs, rfl⟩ := ih hes
    obtain ⟨width, bits⟩ := e
    obtain rfl : width = w := he
    exact ⟨bits :: vs, rfl⟩

theorem presents_elems_of_payloadMatches {i : Instr} {s : State} {count w : Nat}
    (hs : payloadShape i = ⟨false, count, w⟩) (h : payloadMatches i s.port = true) :
    ∃ vs : List (BitVec w), vs.length = count ∧ s.presents none (elems vs) := by
  simp only [payloadMatches, hs, Bool.and_eq_true, decide_eq_true_eq, List.all_eq_true, Option.isSome_eq_false_iff,
    Option.isNone_iff_eq_none] at h
  obtain ⟨⟨haddr, hlength⟩, hwidth⟩ := h
  obtain ⟨vs, hvs⟩ := exists_eq_elems hwidth
  exact ⟨vs, by rw [← hlength, hvs, length_elems], haddr, hvs⟩

theorem presents_nil_of_payloadMatches {i : Instr} {s : State} (hs : payloadShape i = ⟨false, 0, 0⟩)
    (h : payloadMatches i s.port = true) : s.presents none [] := by
  obtain ⟨vs, hlength, hpresents⟩ := presents_elems_of_payloadMatches hs h
  rwa [List.eq_nil_of_length_eq_zero hlength] at hpresents

theorem presents_value_of_payloadMatches {i : Instr} {s : State} {w : Nat} (hs : payloadShape i = ⟨false, 1, w⟩)
    (h : payloadMatches i s.port = true) : ∃ v : BitVec w, s.presents none [⟨w, v⟩] := by
  obtain ⟨vs, hlength, hpresents⟩ := presents_elems_of_payloadMatches hs h
  obtain ⟨v, rfl⟩ := List.length_eq_one_iff.1 hlength
  exact ⟨v, hpresents⟩

/-! ### FAIL (R102) -/

theorem orderSelector_of_lt_reject {o : SelectorOrder} {a b : Fin 512} (h : a.val < b.val ∧ o = .reject) :
    orderSelector o a b = none := by
  obtain ⟨hlt, rfl⟩ := h
  exact orderSelector_reject hlt

/-- A command whose condition of R102 holds answers FAIL with its reason. -/
theorem exec_of_failReason {i : Instr} {s : State} {reason : Reason} (h : payloadMatches i s.port = true)
    (hf : failReason s.params i = some reason) : exec i s = .next (s.onlyAnswers .fail reason []) := by
  cases i with
  | vsetbit win idx pos val =>
    obtain ⟨hpos, ⟨⟩⟩ := Option.ite_none_right_eq_some.1 hf
    exact exec_vsetbit_fail idx val (presents_nil_of_payloadMatches rfl h) hpos
  | vgetbit win idx pos =>
    obtain ⟨hpos, ⟨⟩⟩ := Option.ite_none_right_eq_some.1 hf
    exact exec_vgetbit_fail idx (presents_nil_of_payloadMatches rfl h) hpos
  | vsetsec win idx wc count =>
    obtain ⟨hw, ⟨⟩⟩ := Option.ite_none_right_eq_some.1 hf
    obtain ⟨xs, hl, hpresents⟩ := presents_elems_of_payloadMatches rfl h
    exact exec_vsetsec_fail idx hpresents hl hw
  | vgetsel win idx wc a b =>
    obtain ⟨hreject, ⟨⟩⟩ := Option.ite_none_right_eq_some.1 hf
    exact exec_vgetsel_reversed idx win (presents_nil_of_payloadMatches rfl h) (orderSelector_of_lt_reject hreject)
  | vsetsel win idx wc a b =>
    obtain ⟨hreject, ⟨⟩⟩ := Option.ite_none_right_eq_some.1 hf
    obtain ⟨v, hpresents⟩ := presents_value_of_payloadMatches rfl h
    exact exec_vsetsel_reversed idx win hpresents (orderSelector_of_lt_reject hreject)
  | _ => cases hf

theorem step_of_selector_none {s : State} {c : SelectorCall} {later : List HostMove}
    (hin : s.inputs = .selector c :: later) (he : encodeSelectorCall c = none) :
    step s = .next (s.respondFail .selectorParse) := by
  simp [step, State.serveMove, hin, State.serveSelector, he]

/-- Settles O11: a condition of R102 gives FAIL, and a FAIL response has its condition. -/
theorem failHasItsConditionAndChangesNothing : Obligations.FailHasItsConditionAndChangesNothing := by
  refine ⟨fun i s h => ⟨fun reason => exec_of_failReason h, fun hnone t ht reason rdata hresp => ?_⟩,
    fun s c later => step_of_selector_none⟩
  have hsome := (exec_inversion ht).failReason_of_fail hresp
  rw [hnone] at hsome
  cases hsome

/-! ### The halted block (R105, R108, R114) -/

/-- Every move but a reset leaves a halted block as it is, but for the moves to come and the responses. -/
theorem step_of_halted {s : State} (hs : s.halted = true)
    (hne : ∀ base abandoned later, s.inputs ≠ .reset base abandoned :: later) :
    ∃ moves answers, step s = .next { s with inputs := moves, responses := answers } := by
  obtain ⟨base, abandoned, later, hin, -⟩ | ⟨-, hstep⟩ | hstep | ⟨r, later, hstep⟩ := step_cases s
  · exact absurd hin (hne base abandoned later)
  · exact ⟨_, _, hstep⟩
  · exact ⟨_, _, hstep⟩
  · exact ⟨_, _, hstep.trans (serve_of_halted hs)⟩

/-- Settles O13, by `step_of_halted`. -/
theorem onlyResetLeavesTheFault : Obligations.OnlyResetLeavesTheFault := by
  intro s hs hne
  obtain ⟨moves, answers, hstep⟩ := step_of_halted hs hne
  exact ⟨_, hstep, ⟨rfl, rfl⟩, fun _ => rfl, fun _ => rfl, rfl, rfl, ⟨fun _ => rfl, rfl⟩, rfl, rfl, rfl⟩

end Sys2Proof.Machine

/-! PROOFS. Runs over a list of requests (70_reset_and_hazards.md R123, R125): their answers and their end. -/

namespace Sys2Proof.Machine

/-! ### A fault and its answer (60_exceptions.md R104, R105, R114) -/

section

variable {i : Instr} {s t : State} {resp : Response}

/-- A command on a running block halts it exactly where it answers FATAL. -/
theorem ExecResult.halted_iff_fatal (h : ExecResult i s t) (hs : s.halted = false)
    (hresp : t.responses = s.responses ++ [resp]) : t.halted = true ↔ resp.status = .fatal := by
  cases h with
  | fatal c =>
    obtain rfl : _ = resp := by simpa [State.raiseFatal] using hresp
    simp [State.raiseFatal]
  | writeFault u c wc count hi hu =>
    obtain rfl : _ = resp := by simpa [State.raiseFatal, hu.responses_eq] using hresp
    simp [State.raiseFatal]
  | fail r hr =>
    obtain rfl : _ = resp := by simpa [State.respondFail] using hresp
    simp [State.respondFail, hs]
  | write u hi hu =>
    obtain ⟨-, -, -, -, ⟨hhalted, -⟩, -, -, -⟩ := hu.frame
    obtain rfl : _ = resp := by simpa [State.respondOk, hu.responses_eq] using hresp
    simp [State.respondOk, hhalted, hs]
  | _ =>
    obtain rfl : _ = resp := by simpa [State.respondOk] using hresp
    simp [State.respondOk, hs]

/-- After a request the block is halted exactly where it was before or the answer is FATAL. -/
theorem ServeResult.halted_iff (h : ServeResult s t) (hresp : t.responses = s.responses ++ [resp]) :
    t.halted = true ↔ s.halted = true ∨ resp.status = .fatal := by
  cases h with
  | halted hh => simp [State.respondHalted, hh]
  | illegal hh hd =>
    obtain rfl : _ = resp := by simpa [State.raiseFatal] using hresp
    simp [State.raiseFatal]
  | command i hh hd hr => simp [hh, hr.halted_iff_fatal hh hresp]

end

/-! ### The answers of a run (R123, R125) -/

/-- From `s` to `u` the block gave `answers`, one after another, and has `rest` still to serve; only a FATAL among them
halted it. -/
structure AnsweredRun (s u : State) (answers : List Response) (rest : List Request) : Prop where
  inputs : u.inputs = rest.map .request
  responses : u.responses = s.responses ++ answers
  halted : u.halted = true ↔ s.halted = true ∨ ∃ a ∈ answers, a.status = .fatal

theorem AnsweredRun.refl {s : State} {rs : List Request} (h : s.inputs = rs.map .request) : AnsweredRun s s [] rs where
  inputs := h
  responses := (List.append_nil _).symm
  halted := by simp

theorem AnsweredRun.trans {s t u : State} {as bs : List Response} {qs rs : List Request} (hst : AnsweredRun s t as qs)
    (htu : AnsweredRun t u bs rs) : AnsweredRun s u (as ++ bs) rs where
  inputs := htu.inputs
  responses := by rw [htu.responses, hst.responses, List.append_assoc]
  halted := by simp only [htu.halted, hst.halted, List.mem_append, or_and_right, exists_or, or_assoc]

/-- One step serves the first request and gives its one answer. -/
theorem step_answers {s : State} {r : Request} {rs : List Request} (h : s.inputs = (r :: rs).map .request) :
    ∃ t resp, step s = .next t ∧ AnsweredRun s t [resp] rs := by
  obtain ⟨t, resp, hstep, hinputs, hresp, -, -⟩ := everyRequestGetsOneResponse s r _ h
  have hserve : ServeResult s t := serve_inversion ((step_of_request h).symm.trans hstep)
  exact ⟨t, resp, hstep, hinputs, hresp, by simpa using hserve.halted_iff hresp⟩

/-- The first `k` steps serve the first `k` requests and give the first `k` answers. -/
theorem run_answers (rs : List Request) {s : State} (h : s.inputs = rs.map .request) :
    ∃ answers : List Response, answers.length = rs.length
      ∧ ∀ k, k ≤ rs.length → ∃ u, run k s = .next u ∧ AnsweredRun s u (answers.take k) (rs.drop k) := by
  induction rs generalizing s with
  | nil =>
    refine ⟨[], rfl, fun k hk => ?_⟩
    obtain rfl : k = 0 := Nat.le_zero.1 hk
    exact ⟨s, rfl, .refl h⟩
  | cons r rs ih =>
    obtain ⟨t, resp, hstep, hst⟩ := step_answers h
    obtain ⟨answers, hlength, hrun⟩ := ih hst.inputs
    refine ⟨resp :: answers, congrArg (· + 1) hlength, fun k hk => ?_⟩
    cases k with
    | zero => exact ⟨s, rfl, .refl h⟩
    | succ k =>
      obtain ⟨u, hu, htu⟩ := hrun k (Nat.le_of_succ_le_succ hk)
      exact ⟨u, (run_succ hstep).trans hu, hst.trans htu⟩

/-- Settles O18: `run_answers` at every `k`, and at the whole list for the end of the run. -/
theorem runAnswersEveryRequest : Obligations.RunAnswersEveryRequest := by
  intro rs s
  obtain ⟨answers, hlength, hrun⟩ := run_answers rs (s := s.issue rs) rfl
  obtain ⟨t, ht, hend⟩ := hrun rs.length (Nat.le_refl _)
  rw [← hlength, List.take_length, hlength, List.drop_length] at hend
  refine ⟨t, answers, ht, hend.inputs, hend.responses, hlength, fun k hk => ?_, fun hs => ?_⟩
  · obtain ⟨u, hu, hprefix⟩ := hrun k hk
    exact ⟨u, hu, hprefix.inputs, hprefix.responses⟩
  · have hs' : ¬(s.issue rs).halted = true := Bool.eq_false_iff.1 hs
    exact hend.halted.trans (or_iff_right hs')

end Sys2Proof.Machine
